-- ==== Sys2Proof/Word.lean ====
section
/-! DEFINITION. The machine's words: bytes, frame ids, command words (spec/00_scope.md R7, R11, spec/30_encoding.md R100). -/

namespace Sys2Proof

/-- A byte, 0 to 255 (R11, R71). -/
abbrev Byte := BitVec 8

/-- An 11-bit bus frame id (R7, R110). -/
abbrev FrameId := BitVec 11

/-- A 64-bit command word (R100). -/
abbrev CmdWord := BitVec 64

end Sys2Proof
end

