-- ==== Sys2Proof/Config.lean ====
section
/-! DEFINITION. What one implementation fixes: the parameters of spec/00_scope.md R6 (with the CurrentStatus layout of
spec/43_status_decoders.md R260 and the PowerStatus layout of R272), their constraints, and the free values. A model
holds for every value of a parameter marked OPEN, so the machine's state carries the parameters and nothing is assumed
of them but their constraints (log entries 1 and 2). -/

namespace Sys2Proof

/-- A bit of the window: a byte offset and a bit index (R260). -/
structure BitPos where
  off : Nat
  bit : Nat
deriving DecidableEq, Repr, Inhabited

/-- `CSL`, the CurrentStatus layout record (R260). -/
structure CurrentLayout where
  /-- `MOSP_BIT`, `AMBP_BIT`: bits of byte 0. -/
  mospBit : Nat
  ambpBit : Nat
  /-- `DSG_BYTE`, `DSG_BIT`: where the discharging bit is. -/
  dsgByte : Nat
  dsgBit : Nat
  /-- `FPOS[0..9]`: where the ten raw flags are. -/
  fpos : List BitPos
  /-- `NT`: number of per-cell temperature probes. -/
  nt : Nat
  /-- `T_ADD`: added to a temperature byte. -/
  tAdd : Int
deriving DecidableEq, Repr, Inhabited

/-- `PSL`, the PowerStatus layout record (R272). -/
structure PowerLayout where
  oSoc : Nat
  oCyc : Nat
  oDcap : Nat
  oFcap : Nat
  oRcap : Nat
  capExp : BitVec 4
  oDmin : Nat
  oCmin : Nat
  oVbat : Nat
  vbatExp : BitVec 4
  oVcell : Nat
  nvc : Nat
  vcellExp : BitVec 4
  oMark : Nat
  oHw : Nat
  oFe : Nat
deriving DecidableEq, Repr, Inhabited

/-- One row of the code tables `CTAB`: table index, byte, code id (R6). -/
structure CodeRow where
  table : Byte
  byte : Byte
  id : Byte
deriving DecidableEq, Repr, Inhabited

/-- The components of a timestamp (R229). -/
inductive TsPart where
  | year | month | day | hour | minute | second
deriving DecidableEq, Repr, Inhabited

/-- The parameters of one instance of the block (R6). -/
structure Params where
  txSidStart : FrameId
  txSidData : FrameId
  txSidEnd : FrameId
  rxSidStart : FrameId
  rxSidData : FrameId
  rxSidEnd : FrameId
  txAid : FrameId
  rxBudget : Nat
  /-- `RX_TIMEOUT` and `IFD`: opaque durations, no rule reads them (log entry 15). -/
  rxTimeout : Nat
  ifd : Nat
  /-- `CTAB` as the finite list of its entries: the first row for a table and a byte is its value (log entry 14). -/
  ctab : List CodeRow
  /-- `TS_ORDER`: element `i` says which component byte `i` is (log entry 14). -/
  tsOrder : List TsPart
  csl : CurrentLayout
  psl : PowerLayout
deriving DecidableEq, Repr, Inhabited

/-- `PKT_CAP` (R6, R8). -/
def pktCap : Nat := 264
/-- `RB_CAP` (R6, R8). -/
def rbCap : Nat := 264
/-- `AB_CAP` (R6, R8). -/
def abCap : Nat := 32
/-- `OUT_CAP` (R6). -/
def outCap : Nat := 512

/-- The constraints of R260. -/
def CurrentLayout.wf (c : CurrentLayout) : Bool :=
  decide (c.mospBit ≤ 7) && decide (c.ambpBit ≤ 7) && decide (c.mospBit ≠ c.ambpBit)
  && decide (c.dsgByte = 0 ∨ (3 ≤ c.dsgByte ∧ c.dsgByte ≤ 6)) && decide (c.dsgBit ≤ 7)
  && decide (c.fpos.length = 10)
  && c.fpos.all (fun p => decide (3 ≤ p.off ∧ p.off ≤ 6 ∧ p.bit ≤ 7))
  && decide c.fpos.Nodup
  && decide (c.nt ≤ 32) && decide (-128 ≤ c.tAdd ∧ c.tAdd ≤ 127)

/-- The constraints of R272: offsets are natural numbers up to 263, `NVC` is 0 to 8. -/
def PowerLayout.wf (p : PowerLayout) : Bool :=
  [p.oSoc, p.oCyc, p.oDcap, p.oFcap, p.oRcap, p.oDmin, p.oCmin, p.oVbat, p.oVcell, p.oMark, p.oHw, p.oFe].all
    (fun o => decide (o ≤ 263))
  && decide (p.nvc ≤ 8)

/-- The six components a `TS_ORDER` arranges, in its default order (R6, R229). -/
def tsDefault : List TsPart := [.year, .month, .day, .hour, .minute, .second]

/-- The constraints of R6 (with R260 and R272): receive ids pairwise distinct, a budget of at least 1, `TS_ORDER` a
permutation of the six components. -/
def Params.wf (p : Params) : Bool :=
  decide (p.rxSidStart ≠ p.rxSidData) && decide (p.rxSidStart ≠ p.rxSidEnd) && decide (p.rxSidData ≠ p.rxSidEnd)
  && decide (1 ≤ p.rxBudget)
  && decide (p.tsOrder.length = 6 ∧ tsDefault.all (fun c => p.tsOrder.contains c))
  && p.csl.wf && p.psl.wf

/-- The test instance `T` of spec/95_test_vectors.md section 0: NOT normative, one instance that meets the constraints. -/
def Params.testT : Params where
  txSidStart := 0x100
  txSidData := 0x101
  txSidEnd := 0x102
  rxSidStart := 0x200
  rxSidData := 0x201
  rxSidEnd := 0x202
  txAid := 0x300
  rxBudget := 8
  rxTimeout := 0
  ifd := 0
  ctab := [⟨1, 0, 0⟩, ⟨1, 1, 1⟩, ⟨1, 2, 2⟩, ⟨0xFF, 0, 0⟩, ⟨0xFF, 1, 1⟩]
  tsOrder := tsDefault
  csl := { mospBit := 0, ambpBit := 1, dsgByte := 3, dsgBit := 7,
           fpos := [⟨4, 0⟩, ⟨4, 1⟩, ⟨4, 2⟩, ⟨4, 3⟩, ⟨4, 4⟩, ⟨5, 0⟩, ⟨5, 1⟩, ⟨5, 2⟩, ⟨6, 0⟩, ⟨6, 1⟩],
           nt := 2, tAdd := -40 }
  psl := { oSoc := 0, oCyc := 1, oDcap := 3, oFcap := 7, oRcap := 11, capExp := -2, oDmin := 15, oCmin := 17,
           oVbat := 19, vbatExp := -2, oVcell := 21, nvc := 2, vcellExp := -3, oMark := 25, oHw := 26, oFe := 27 }

/-- The byte buffers whose contents after reset are unspecified (R55). -/
inductive ByteBuffer where
  | pkt | rb | ab
deriving DecidableEq, Repr

/-- FREE VALUE: an arbitrary parameter record. Nothing can be proved of it (log entry 2). -/
opaque Config.pick : Params

/-- The parameters of the instance `State.reset` describes: `Config.pick` where it meets the constraints of R6. It is an
arbitrary record that meets them: the other branch only keeps it inside the constraints (log entry 2). -/
def Config.chosen : Params := if Config.pick.wf then Config.pick else Params.testT

/-- FREE VALUE: what a byte of a buffer reads as before anything is written to it (R35, R55,
spec/93_implementation_defined.md U2, "any value"): per buffer, per use of the reset input, per index (log entry 5). -/
opaque Config.unwritten : ByteBuffer → Nat → Nat → Byte

/-- FREE VALUE: what the 32-bit register `BUD` reads as when the counter does not fit 32 bits (log entry 9). -/
opaque Config.wideBudget : Nat → BitVec 32

end Sys2Proof
end

