-- ==== Sys2Proof/Syntax.lean ====
section
/-! DEFINITION. What the block is given: bus frames, the transport's answers, events, and the ONE inductive `Instr`, one
constructor per row of spec/opcode_table.json (23 commands, the illegal word, 12 classes of received bus frame, the SP
packet). -/

namespace Sys2Proof

/-- A bus frame: "id: 11-bit unsigned, data: 0–8 bytes" (R110). `len` and the zero bytes the receive port shows in place
of missing ones (R77) are computed from it. -/
structure Frame where
  id : FrameId
  data : List Byte
deriving DecidableEq, Repr

/-- The port record's `len` (R77, R110). -/
def Frame.len (f : Frame) : Nat := f.data.length

/-- The transport's answer to one receive attempt (R10). -/
inductive Answer where
  | frame (f : Frame)
  | empty
deriving DecidableEq, Repr

/-- Sentinel policy `SENT` of a 16-bit read (R102): none, 0xFFFF reads as 0, 0xFFFF reads as -1. -/
inductive Sent where
  | n | z | m
deriving DecidableEq, Repr

/-- Unit codes (R43). -/
inductive UnitCode where
  | none | v | a | degc | pct | ohm | min
deriving DecidableEq, Repr

/-- The operation register `OPR`: which command is running (R48). -/
inductive Opr where
  | none | ufs | ufa
deriving DecidableEq, Repr

/-- One event (R10), `reset` the reset input (R340). A host access names a byte offset of `REG`, a width in bits and, for
a write, a value whose low `width` bits are written (R31, R75). `hostBuffer` is the host's hand-over of an application
byte buffer: the writes of its bytes to `PKT` and then of its length to `PLEN` (R34, R35; log entry 10). -/
inductive Event where
  | hostCmd (w : CmdWord)
  | hostWrite (off width : Nat) (value : BitVec 128)
  | hostRead (off width : Nat)
  | hostBuffer (bytes : List Byte)
  | rxAnswer (a : Answer)
  | reset
deriving DecidableEq, Repr

/-- The instructions. -/
inductive Instr where
  -- system, spec/44_system.md
  | nop
  | srst
  -- framer commands, spec/40_framer.md
  | frs
  | fra (k : Byte)
  | ufs
  | ufa (k : Byte)
  | depad
  -- codec commands, spec/41_codec.md
  | bld (a : Byte)
  | val (e : Byte)
  -- field commands, spec/42_field_decoder.md
  | setw (off len : BitVec 16)
  | gu8 (off : Byte) (mul add : BitVec 16) (exp : BitVec 4) (unit : UnitCode)
  | gu16 (off : Byte) (sent : Sent) (mul add : BitVec 16) (exp : BitVec 4) (unit : UnitCode)
  | gs16 (off : Byte) (sent : Sent) (mul add : BitVec 16) (exp : BitVec 4) (unit : UnitCode)
  | gu32 (off : Byte) (mul add : BitVec 16) (exp : BitVec 4) (unit : UnitCode)
  | gnh (off : Byte) (mul add : BitVec 16) (exp : BitVec 4) (unit : UnitCode)
  | gnl (off : Byte) (mul add : BitVec 16) (exp : BitVec 4) (unit : UnitCode)
  | gbcd (off : Byte) (mul add : BitVec 16) (exp : BitVec 4) (unit : UnitCode)
  | gbit (off : Byte) (bit : BitVec 3)
  | gcode (off table : Byte)
  | gts (off : Byte)
  -- decode programs, spec/43_status_decoders.md
  | dvolt
  | dcurr
  | dpwr
  /-- every word that is no command (R105, R124, R292) -/
  | illegal (w : CmdWord)
  -- frames received by a running UFS (R111, R112); `data` is the eight bytes the port shows
  | frameSentinelStart
  | frameSentinelData (data : List Byte)
  | frameSentinelEnd
  | frameSentinelOther (id : FrameId)
  -- frames received by a running UFA (R114 to R118): node id, then total `T` or the chunk's bytes
  | frameAddressedHeader (node total : Byte)
  | frameAddressedChunk1 (node : Byte) (c : List Byte)
  | frameAddressedChunk2 (node : Byte) (c : List Byte)
  | frameAddressedChunk3 (node : Byte) (c : List Byte)
  | frameAddressedChunk4 (node : Byte) (c : List Byte)
  | frameAddressedChunk5 (node : Byte) (c : List Byte)
  | frameAddressedChunk6 (node : Byte) (c : List Byte)
  | frameAddressedIgnored (f : Frame)
  /-- an SP packet: address byte and body (R190) -/
  | packetSp (addr : Byte) (body : List Byte)
deriving DecidableEq, Repr

end Sys2Proof
end

