-- ==== Sys2Proof/WellFormed.lean ====
section
/-! DEFINITION. Which terms of `Instr` stand for something the block can be given. `wordIllegal` is the list of illegal
words of spec/30_encoding.md R124 in the masks of spec/opcode_table.json, written apart from the decoder. -/

namespace Sys2Proof

/-- The bits below the operation code that the format of an operation code does not use (R101, R104): none where there is
no such operation code. -/
def unusedBits (opc : Byte) : Option CmdWord :=
  if opc ∈ [0x00, 0x01, 0x10, 0x12, 0x14, 0x30, 0x31, 0x32] then some 0x00FFFFFFFFFFFFFF       -- Z
  else if opc ∈ [0x11, 0x13, 0x18, 0x19, 0x2A] then some 0x0000FFFFFFFFFFFF                    -- N, O
  else if opc = 0x20 then some 0x00FFFFFF00000000                                              -- W
  else if opc ∈ [0x22, 0x23] then some 0x0000FC0000000000                                      -- G with SENT
  else if opc ∈ [0x21, 0x24, 0x25, 0x26, 0x27] then some 0x0000FF0000000000                    -- G, SENT = 0
  else if opc = 0x28 then some 0x0000F8FFFFFFFFFF                                              -- B
  else if opc = 0x29 then some 0x000000FFFFFFFFFF                                              -- K
  else none

/-- The operation codes of format G (R101). -/
def isFormatG (opc : Byte) : Bool := opc ∈ ([0x21, 0x22, 0x23, 0x24, 0x25, 0x26, 0x27] : List Byte)

/-- The illegal command words (R124): no such operation code; a non-zero unused bit (`SENT` counts as unused outside
`GU16` and `GS16`); `SENT = 3`; `UNIT` from 7 to 15. -/
def wordIllegal (w : CmdWord) : Bool :=
  let opc := w.extractLsb' 56 8
  match unusedBits opc with
  | none => true
  | some m => decide (w &&& m ≠ 0)
      || (isFormatG opc && (decide (w.extractLsb' 40 2 = 3) || decide (7 ≤ (w.extractLsb' 32 4).toNat)))

/-- A frame carries at most 8 data bytes (R110). -/
def Frame.wf (f : Frame) : Bool := decide (f.len ≤ 8)

/-- What a term must meet whatever the state: a word under `illegal` is illegal; a data frame shows eight bytes; a chunk
carries its capacity (R116); an ignored frame is a frame; a body has at most 253 bytes (R191). -/
def Instr.wf : Instr → Bool
  | .illegal w => wordIllegal w
  | .frameSentinelData d => decide (d.length = 8)
  | .frameAddressedChunk1 _ c => decide (c.length = 5)
  | .frameAddressedChunk2 _ c => decide (c.length = 6)
  | .frameAddressedChunk3 _ c => decide (c.length = 6)
  | .frameAddressedChunk4 _ c => decide (c.length = 6)
  | .frameAddressedChunk5 _ c => decide (c.length = 6)
  | .frameAddressedChunk6 _ c => decide (c.length = 3)
  | .frameAddressedIgnored f => f.wf
  | .packetSp _ body => decide (body.length ≤ 253)
  | .nop | .srst | .frs | .fra _ | .ufs | .ufa _ | .depad | .bld _ | .val _ | .setw _ _ | .gu8 _ _ _ _ _
  | .gu16 _ _ _ _ _ _ | .gs16 _ _ _ _ _ _ | .gu32 _ _ _ _ _ | .gnh _ _ _ _ _ | .gnl _ _ _ _ _ | .gbcd _ _ _ _ _
  | .gbit _ _ | .gcode _ _ | .gts _ | .dvolt | .dcurr | .dpwr
  | .frameSentinelStart | .frameSentinelEnd | .frameSentinelOther _ | .frameAddressedHeader _ _ => true

/-- A frame a `UFA` with target node `k` ignores (R118): not 8 bytes, another node, or a marker above 6. -/
def Frame.ignoredBy (k : Byte) (f : Frame) : Bool :=
  decide (f.len ≠ 8) || decide (f.data.getD 0 0 ≠ k) || decide (6 < (f.data.getD 7 0).toNat)

/-- What the class of a received frame must meet beside `wf`, against the receive ids of an instance (R112) and the
target node of the running `UFA` (R118). -/
def Instr.inContext (p : Params) (k : Byte) : Instr → Bool
  | .frameSentinelOther id => decide (id ≠ p.rxSidStart ∧ id ≠ p.rxSidData ∧ id ≠ p.rxSidEnd)
  | .frameAddressedHeader node _ => decide (node = k)
  | .frameAddressedChunk1 node _ => decide (node = k)
  | .frameAddressedChunk2 node _ => decide (node = k)
  | .frameAddressedChunk3 node _ => decide (node = k)
  | .frameAddressedChunk4 node _ => decide (node = k)
  | .frameAddressedChunk5 node _ => decide (node = k)
  | .frameAddressedChunk6 node _ => decide (node = k)
  | .frameAddressedIgnored f => f.ignoredBy k
  | .nop | .srst | .frs | .fra _ | .ufs | .ufa _ | .depad | .bld _ | .val _ | .setw _ _ | .gu8 _ _ _ _ _
  | .gu16 _ _ _ _ _ _ | .gs16 _ _ _ _ _ _ | .gu32 _ _ _ _ _ | .gnh _ _ _ _ _ | .gnl _ _ _ _ _ | .gbcd _ _ _ _ _
  | .gbit _ _ | .gcode _ _ | .gts _ | .dvolt | .dcurr | .dpwr | .illegal _
  | .frameSentinelStart | .frameSentinelData _ | .frameSentinelEnd | .packetSp _ _ => true

end Sys2Proof
end

