-- ==== Sys2Proof/Decode.lean ====
section
/-! DEFINITION. Decoding and encoding: command words (spec/30_encoding.md R100 to R105), received frames (R112, R114 to
R118) and SP packets (spec/41_codec.md R190 to R194). Total; what is no instruction is rejected by name. -/

namespace Sys2Proof

/-! ## Command words -/

/-- Unit codes 0 to 6; 7 to 15 are reserved (R43). -/
def unitOfCode (c : BitVec 4) : Option UnitCode :=
  match c.toNat with
  | 0 => some .none
  | 1 => some .v
  | 2 => some .a
  | 3 => some .degc
  | 4 => some .pct
  | 5 => some .ohm
  | 6 => some .min
  | _ => none

/-- The number of a unit (R43). -/
def codeOfUnit : UnitCode → BitVec 4
  | .none => 0
  | .v => 1
  | .a => 2
  | .degc => 3
  | .pct => 4
  | .ohm => 5
  | .min => 6

/-- Sentinel policies 0, 1, 2; 3 is reserved (R102). -/
def sentOfCode (c : BitVec 2) : Option Sent :=
  match c.toNat with
  | 0 => some .n
  | 1 => some .z
  | 2 => some .m
  | _ => none

/-- The number of a sentinel policy (R102). -/
def codeOfSent : Sent → BitVec 2
  | .n => 0
  | .z => 1
  | .m => 2

/-- `OPC`, bits 63:56 (R100). -/
def opcOf (w : CmdWord) : Byte := w.extractLsb' 56 8
/-- `A`, bits 55:48 (R100). -/
def fieldA (w : CmdWord) : Byte := w.extractLsb' 48 8
/-- `B`, bits 47:40 (R100). -/
def fieldB (w : CmdWord) : Byte := w.extractLsb' 40 8
/-- `EXP`, bits 39:36 (R100, R102). -/
def fieldExp (w : CmdWord) : BitVec 4 := w.extractLsb' 36 4
/-- `UNIT`, bits 35:32 (R100, R102). -/
def fieldUnit (w : CmdWord) : BitVec 4 := w.extractLsb' 32 4
/-- `M`, bits 31:16 (R100). -/
def fieldM (w : CmdWord) : BitVec 16 := w.extractLsb' 16 16
/-- `D`, bits 15:0 (R100). -/
def fieldD (w : CmdWord) : BitVec 16 := w.extractLsb' 0 16

/-- Format Z: every bit below `OPC` is zero (R101). -/
def formatZ (w : CmdWord) (i : Instr) : Instr :=
  if w.extractLsb' 0 56 = 0 then i else .illegal w

/-- Formats N and O: only `A` beside `OPC` (R101). -/
def formatN (w : CmdWord) (mk : Byte → Instr) : Instr :=
  if w.extractLsb' 0 48 = 0 then mk (fieldA w) else .illegal w

/-- Format W: `M` and `D` beside `OPC` (R101). -/
def formatW (w : CmdWord) (mk : BitVec 16 → BitVec 16 → Instr) : Instr :=
  if w.extractLsb' 32 24 = 0 then mk (fieldM w) (fieldD w) else .illegal w

/-- Format G with a sentinel policy: bits 47:42 zero, `SENT` not 3, `UNIT` at most 6 (R102, R105). -/
def formatGSent (w : CmdWord)
    (mk : Byte → Sent → BitVec 16 → BitVec 16 → BitVec 4 → UnitCode → Instr) : Instr :=
  if w.extractLsb' 42 6 = 0 then
    match sentOfCode (w.extractLsb' 40 2), unitOfCode (fieldUnit w) with
    | some sent, some unit => mk (fieldA w) sent (fieldM w) (fieldD w) (fieldExp w) unit
    | _, _ => .illegal w
  else .illegal w

/-- Format G without one: bits 47:42 and `SENT` zero, `UNIT` at most 6 (R102, R105). -/
def formatG (w : CmdWord) (mk : Byte → BitVec 16 → BitVec 16 → BitVec 4 → UnitCode → Instr) : Instr :=
  if fieldB w = 0 then
    match unitOfCode (fieldUnit w) with
    | some unit => mk (fieldA w) (fieldM w) (fieldD w) (fieldExp w) unit
    | none => .illegal w
  else .illegal w

/-- Format B: `A` and `B[2:0]` beside `OPC` (R101). -/
def formatB (w : CmdWord) (mk : Byte → BitVec 3 → Instr) : Instr :=
  if w.extractLsb' 43 5 = 0 ∧ w.extractLsb' 0 40 = 0 then mk (fieldA w) (w.extractLsb' 40 3) else .illegal w

/-- Format K: `A` and `B` beside `OPC` (R101). -/
def formatK (w : CmdWord) (mk : Byte → Byte → Instr) : Instr :=
  if w.extractLsb' 0 40 = 0 then mk (fieldA w) (fieldB w) else .illegal w

/-- The command decoder (R104, R105): every word is one command with its operands, or `illegal`. -/
def decodeCmd (w : CmdWord) : Instr :=
  match (opcOf w).toNat with
  | 0x00 => formatZ w .nop
  | 0x01 => formatZ w .srst
  | 0x10 => formatZ w .frs
  | 0x11 => formatN w .fra
  | 0x12 => formatZ w .ufs
  | 0x13 => formatN w .ufa
  | 0x14 => formatZ w .depad
  | 0x18 => formatN w .bld
  | 0x19 => formatN w .val
  | 0x20 => formatW w .setw
  | 0x21 => formatG w .gu8
  | 0x22 => formatGSent w .gu16
  | 0x23 => formatGSent w .gs16
  | 0x24 => formatG w .gu32
  | 0x25 => formatG w .gnh
  | 0x26 => formatG w .gnl
  | 0x27 => formatG w .gbcd
  | 0x28 => formatB w .gbit
  | 0x29 => formatK w .gcode
  | 0x2A => formatN w .gts
  | 0x30 => formatZ w .dvolt
  | 0x31 => formatZ w .dcurr
  | 0x32 => formatZ w .dpwr
  | _ => .illegal w

/-- A command word from its fields, `OPC` first (R100). -/
def wordOf (opc a b : Byte) (exp unit : BitVec 4) (m d : BitVec 16) : CmdWord :=
  opc ++ a ++ b ++ exp ++ unit ++ m ++ d

/-- A format G word (R102). -/
def wordG (opc off : Byte) (sent : BitVec 2) (mul add : BitVec 16) (exp : BitVec 4) (unit : UnitCode) : CmdWord :=
  wordOf opc off (sent.setWidth 8) exp (codeOfUnit unit) mul add

/-! ## Received frames -/

/-- Data byte `i` as the receive port shows it: a missing byte reads as zero (R77). -/
def Frame.byte (f : Frame) (i : Nat) : Byte := f.data.getD i 0

/-- The first `n` chunk bytes `c0 …` of an addressed frame (R114, R116). -/
def Frame.chunk (f : Frame) (n : Nat) : List Byte := (List.range n).map (fun i => f.byte (1 + i))

/-- Classification in a running `UFS`, by id alone (R112). -/
def classifySentinel (p : Params) (f : Frame) : Instr :=
  if f.id = p.rxSidStart then .frameSentinelStart
  else if f.id = p.rxSidData then .frameSentinelData ((List.range 8).map f.byte)
  else if f.id = p.rxSidEnd then .frameSentinelEnd
  else .frameSentinelOther f.id

/-- Classification in a running `UFA` with target node `k`, in the order of R118. -/
def classifyAddressed (k : Byte) (f : Frame) : Instr :=
  if f.len ≠ 8 then .frameAddressedIgnored f
  else if f.byte 0 ≠ k then .frameAddressedIgnored f
  else match (f.byte 7).toNat with
    | 0 => .frameAddressedHeader (f.byte 0) (f.byte 1)
    | 1 => .frameAddressedChunk1 (f.byte 0) (f.chunk 5)
    | 2 => .frameAddressedChunk2 (f.byte 0) (f.chunk 6)
    | 3 => .frameAddressedChunk3 (f.byte 0) (f.chunk 6)
    | 4 => .frameAddressedChunk4 (f.byte 0) (f.chunk 6)
    | 5 => .frameAddressedChunk5 (f.byte 0) (f.chunk 6)
    | 6 => .frameAddressedChunk6 (f.byte 0) (f.chunk 3)
    | _ => .frameAddressedIgnored f

/-- What a received frame is to the running command (R112, R118): nothing while none runs (R150). -/
def classify (p : Params) (opr : Opr) (k : Byte) (f : Frame) : Option Instr :=
  match opr with
  | .none => none
  | .ufs => some (classifySentinel p f)
  | .ufa => some (classifyAddressed k f)

/-- Eight zero bytes, the data of a zero frame (R111). -/
def zeroData : List Byte := List.replicate 8 0

/-- The data of an addressed frame: node, chunk area filled with zero bytes, marker (R74, R114, R116). -/
def addressedData (node marker : Byte) (c : List Byte) : List Byte :=
  [node] ++ c ++ List.replicate (6 - c.length) 0 ++ [marker]

/-! ## SP packets -/

/-- The XOR of all bytes of a sequence (R12, R14 (a)). -/
def xor8 (bs : List Byte) : Byte := bs.foldl (· ^^^ ·) 0

/-- The SP packet of an address and a body: `EA D1 addr LEN body xor F5`, `LEN = |body| + 2` (R190, R191, R194). -/
def packetBytes (addr : Byte) (body : List Byte) : List Byte :=
  let len : Byte := BitVec.ofNat 8 (body.length + 2)
  [0xEA, 0xD1, addr, len] ++ body ++ [xor8 (len :: body), 0xF5]

/-- Why bytes are no instruction. -/
inductive Reject where
  /-- a frame of more than 8 data bytes (R110) -/
  | frameTooLong
  /-- byte 0 missing or not 0xEA (R190) -/
  | badStart
  /-- byte 1 missing or not 0xD1 (R190) -/
  | badProduct
  /-- no address byte (R190) -/
  | noAddress
  /-- length byte missing, below 2, or not the actual length less 4 (R190, R191) -/
  | badLength
  /-- checksum byte not the XOR of length byte and body (R194) -/
  | badChecksum
  /-- last byte not 0xF5 (R190) -/
  | badTerm
deriving DecidableEq, Repr

/-- What the decoder answers. -/
inductive Decoded where
  | instr (i : Instr)
  | reject (r : Reject)
deriving DecidableEq, Repr

/-- Reads an SP packet (R190, R191, R194). -/
def decodePacket (bs : List Byte) : Decoded :=
  match bs with
  | [] => .reject .badStart
  | b0 :: t0 =>
    if b0 ≠ 0xEA then .reject .badStart else
    match t0 with
    | [] => .reject .badProduct
    | b1 :: t1 =>
      if b1 ≠ 0xD1 then .reject .badProduct else
      match t1 with
      | [] => .reject .noAddress
      | [_] => .reject .badLength
      | addr :: len :: rest =>
        if len.toNat < 2 ∨ rest.length ≠ len.toNat then .reject .badLength else
        let body := rest.take (len.toNat - 2)
        if rest.getD (len.toNat - 2) 0 ≠ xor8 (len :: body) then .reject .badChecksum
        else if rest.getD (len.toNat - 1) 0 ≠ 0xF5 then .reject .badTerm
        else .instr (.packetSp addr body)

/-! ## All of them -/

/-- What stands at the block's ports: a command word, a frame received by a running `UFS`, a frame received by a running
`UFA`, or the bytes of a packet. -/
inductive Wire where
  | cmd (w : CmdWord)
  | sentinel (f : Frame)
  | addressed (f : Frame)
  | packet (bs : List Byte)
deriving DecidableEq, Repr

/-- The decoder, for the receive ids of an instance and a target node `k`. -/
def decode (p : Params) (k : Byte) : Wire → Decoded
  | .cmd w => .instr (decodeCmd w)
  | .sentinel f => if f.wf then .instr (classifySentinel p f) else .reject .frameTooLong
  | .addressed f => if f.wf then .instr (classifyAddressed k f) else .reject .frameTooLong
  | .packet bs => decodePacket bs

/-- The encoder: the words, the frame or the bytes of a well-formed instruction (R100 to R104, R111, R114 to R116, R190).
A frame goes out on a receive id, an addressed one on `TX_AID` (its id is not examined, R118). -/
def encode (p : Params) : Instr → Wire
  | .nop => .cmd (wordOf 0x00 0 0 0 0 0 0)
  | .srst => .cmd (wordOf 0x01 0 0 0 0 0 0)
  | .frs => .cmd (wordOf 0x10 0 0 0 0 0 0)
  | .fra k => .cmd (wordOf 0x11 k 0 0 0 0 0)
  | .ufs => .cmd (wordOf 0x12 0 0 0 0 0 0)
  | .ufa k => .cmd (wordOf 0x13 k 0 0 0 0 0)
  | .depad => .cmd (wordOf 0x14 0 0 0 0 0 0)
  | .bld a => .cmd (wordOf 0x18 a 0 0 0 0 0)
  | .val e => .cmd (wordOf 0x19 e 0 0 0 0 0)
  | .setw off len => .cmd (wordOf 0x20 0 0 0 0 off len)
  | .gu8 off mul add exp unit => .cmd (wordG 0x21 off 0 mul add exp unit)
  | .gu16 off sent mul add exp unit => .cmd (wordG 0x22 off (codeOfSent sent) mul add exp unit)
  | .gs16 off sent mul add exp unit => .cmd (wordG 0x23 off (codeOfSent sent) mul add exp unit)
  | .gu32 off mul add exp unit => .cmd (wordG 0x24 off 0 mul add exp unit)
  | .gnh off mul add exp unit => .cmd (wordG 0x25 off 0 mul add exp unit)
  | .gnl off mul add exp unit => .cmd (wordG 0x26 off 0 mul add exp unit)
  | .gbcd off mul add exp unit => .cmd (wordG 0x27 off 0 mul add exp unit)
  | .gbit off bit => .cmd (wordOf 0x28 off (bit.setWidth 8) 0 0 0 0)
  | .gcode off table => .cmd (wordOf 0x29 off table 0 0 0 0)
  | .gts off => .cmd (wordOf 0x2A off 0 0 0 0 0)
  | .dvolt => .cmd (wordOf 0x30 0 0 0 0 0 0)
  | .dcurr => .cmd (wordOf 0x31 0 0 0 0 0 0)
  | .dpwr => .cmd (wordOf 0x32 0 0 0 0 0 0)
  | .illegal w => .cmd w
  | .frameSentinelStart => .sentinel ⟨p.rxSidStart, zeroData⟩
  | .frameSentinelData d => .sentinel ⟨p.rxSidData, d⟩
  | .frameSentinelEnd => .sentinel ⟨p.rxSidEnd, zeroData⟩
  | .frameSentinelOther id => .sentinel ⟨id, zeroData⟩
  | .frameAddressedHeader node total => .addressed ⟨p.txAid, addressedData node 0 [total]⟩
  | .frameAddressedChunk1 node c => .addressed ⟨p.txAid, addressedData node 1 c⟩
  | .frameAddressedChunk2 node c => .addressed ⟨p.txAid, addressedData node 2 c⟩
  | .frameAddressedChunk3 node c => .addressed ⟨p.txAid, addressedData node 3 c⟩
  | .frameAddressedChunk4 node c => .addressed ⟨p.txAid, addressedData node 4 c⟩
  | .frameAddressedChunk5 node c => .addressed ⟨p.txAid, addressedData node 5 c⟩
  | .frameAddressedChunk6 node c => .addressed ⟨p.txAid, addressedData node 6 c⟩
  | .frameAddressedIgnored f => .addressed f
  | .packetSp addr body => .packet (packetBytes addr body)

/-! ## The opcode table's words -/

/-- The 64 data bits of an addressed frame as the opcode table numbers them, data byte 0 most significant. -/
def frameOfWord (w : Nat) : Frame :=
  let v : BitVec 64 := BitVec.ofNat 64 w
  ⟨0, [v.extractLsb' 56 8, v.extractLsb' 48 8, v.extractLsb' 40 8, v.extractLsb' 32 8,
       v.extractLsb' 24 8, v.extractLsb' 16 8, v.extractLsb' 8 8, v.extractLsb' 0 8]⟩

/-- The instruction of a row of spec/opcode_table.json whose bits are `w`: 64 bits are a command word; fewer are the low
bits of the 64 data bits of an addressed frame (the seven rows that fix the marker byte alone), received by a `UFA` whose
target is the node in its byte 0 (log entry 12). -/
def decodeTableWord (nbits w : Nat) : Option Instr :=
  if nbits = 64 then some (decodeCmd (BitVec.ofNat 64 w))
  else if nbits < 64 then
    let f := frameOfWord (w % 2 ^ nbits)
    some (classifyAddressed (f.byte 0) f)
  else none

end Sys2Proof
end

