-- ==== Sys2Proof/Machine/State.lean ====
section
/-! DEFINITION. The state of the block (spec/10_state.md), its reset values (R55, R340), and the reasons a step can stop. -/

namespace Sys2Proof.Machine

/-- The completion codes (R302). No other value of `CODE` is ever written. -/
inductive Code where
  | ok | timeout
  | badStart | badProduct | badAddr | badLength | badChecksum | badTerm
  | emptyBuffer | tooLong | badWindow
  | illegalCmd
deriving DecidableEq, Repr

/-- The fields of `STATUS` that are not hard-wired to zero (R33). -/
structure Status where
  busy : Bool
  done : Bool
  ovr : Bool
  code : Code
deriving DecidableEq, Repr

/-- The sentinel phase `SPH` (R49). -/
inductive Phase where
  | idle | start | data
deriving DecidableEq, Repr

/-- Tag codes 0 to 7 (R42); 8 to 15 are never produced. -/
inductive Tag where
  | absent | num | bool | corrupt | rawhex | code | ts | flags
deriving DecidableEq, Repr

/-- The abstract value `{tag, unit, exp, mant}` of a value record (R13, R41). `EXP` is its 4 bits, two's complement;
`MANT` is the exact integer (log entry 11). -/
structure Value where
  tag : Tag
  unit : UnitCode
  exp : BitVec 4
  mant : Int
deriving DecidableEq, Repr

/-- The `ABSENT` value, all zero (R42). -/
def Value.absent : Value := ⟨.absent, .none, 0, 0⟩

/-- An entry of `OUT`: `KEY`, `IDX` and the value (R39, R41). -/
structure Entry where
  key : Byte
  idx : Byte
  val : Value
deriving DecidableEq, Repr

/-- The all-zero record (R55). -/
def Entry.zero : Entry := ⟨0, 0, Value.absent⟩

/-- The registers and buffer cells a host access can name (R31). -/
inductive HostReg where
  | cmd | status | plen | vaddr | vlen | poff | pn | res | outn | bud
  | pkt (i : Nat)
  | out (k : Nat)
deriving DecidableEq, Repr

/-- A byte buffer: (index, byte) pairs, indices strictly rising; an index not listed has not been written. -/
abbrev Memory := List Host.Cell

/-- The output memory: (index, record) pairs, indices strictly rising, no record all zero; an index not listed holds the
all-zero record (R55). -/
abbrev OutMemory := List (Nat × Entry)

/-- The state of the block: everything of spec/10_state.md R31 and R48 to R52, and the model's own fields `cfg`, `inbox`,
`reads` and `resets` (log entries 1, 3, 5, 7). -/
structure State where
  /-- the parameters of the instance, which no step changes (R6, R56) -/
  cfg : Params
  /-- `STATUS` (R33) -/
  status : Status
  /-- `PLEN` (R34) -/
  plen : Nat
  /-- `VADDR`, `VLEN` (R36) -/
  vaddr : Byte
  vlen : Byte
  /-- `POFF`, `PN`: the window (R37) -/
  poff : Nat
  pn : Nat
  /-- `RES`, whose `KEY` and `IDX` are 0 (R38) -/
  res : Value
  /-- `OUTN` (R39) -/
  outn : Nat
  /-- `BUD` (R40) -/
  bud : Nat
  /-- `PKT[0..264)` (R35) -/
  pkt : Memory
  /-- `OUT[0..512)` (R39) -/
  out : OutMemory
  /-- `OPR`, the running command (R48) -/
  opr : Opr
  /-- `KNODE`, the target node of the running `UFA` (R48) -/
  knode : Byte
  /-- `SPH`, `RN`, `RB[0..264)`: sentinel reassembly (R49, R50) -/
  sph : Phase
  rn : Nat
  rb : Memory
  /-- `AOPEN`, `ANODE`, `ANEXT`, `AT`, `AN`, `AB[0..32)`: addressed reassembly (R51) -/
  aOpen : Bool
  aNode : Byte
  aNext : Nat
  aT : Nat
  aN : Nat
  ab : Memory
  /-- `TX`, every frame sent since reset, oldest first (R52) -/
  tx : List Frame
  /-- the events not yet taken, oldest first (R10, R82) -/
  inbox : List Event
  /-- what `HostRead` events returned, oldest first (R44) -/
  reads : List (HostReg × BitVec 128)
  /-- how often the reset input has been used (R340) -/
  resets : Nat
deriving DecidableEq, Repr

/-- Faults: none. No rule of the spec stops the block: a command that fails ends with a completion code, which is a next
state (R301, R319, R327). An empty type is safe: no step answers with a fault. -/
inductive Fault where
deriving DecidableEq, Repr

/-- Why the model defines no step. -/
inductive Refusal where
  /-- An instruction without a meaning in `exec`. No arm answers so in this model. Safe. -/
  | notModelled (mnemonic : String)
  /-- A host access to an offset outside the map of R31, or at a width that is not the register's own: "a model refuses
  it" (R31, R75, spec/93_implementation_defined.md U1). Raised by the host-access events. Safe: the model stops. -/
  | hostAccessUndefined
  /-- A host read of the write-only `CMD`, which is not storage (R31, R32). Raised by the host-read event. Safe. -/
  | readOfWriteOnly
  /-- `RxAnswer` while the command that takes such a frame is not running: the event is not enabled (R10, R150). Raised by
  the received-frame instructions and by an `Empty` answer. Safe. -/
  | rxNotEnabled
  /-- A received frame of more than 8 data bytes, which no transport presents (R77, R110). Raised by the step. Safe. -/
  | frameTooLong
deriving DecidableEq, Repr

/-- The state after reset of an instance with parameters `p` (R55, R340): every value is the spec's; the model's own
fields are empty (log entries 3, 6, 7). -/
def State.resetOf (p : Params) : State where
  cfg := p
  status := { busy := false, done := false, ovr := false, code := .ok }
  plen := 0
  vaddr := 0
  vlen := 0
  poff := 0
  pn := 0
  res := Value.absent
  outn := 0
  bud := 0
  pkt := []
  out := []
  opr := .none
  knode := 0
  sph := .idle
  rn := 0
  rb := []
  aOpen := false
  aNode := 0
  aNext := 1
  aT := 0
  aN := 0
  ab := []
  tx := []
  inbox := []
  reads := []
  resets := 0

/-- The machine right after reset, for an instance about which nothing but the constraints of R6 is known (R55, R340;
log entry 2). -/
def State.reset : State := State.resetOf Config.chosen

end Sys2Proof.Machine
end

