-- ==== Sys2Proof/Machine/Flags.lean ====
section
/-! DEFINITION. The block's flags, which are the `STATUS` bits and nothing else (spec/10_state.md R33, R46), and the
numbers of the completion codes (spec/60_exceptions.md R302). -/

namespace Sys2Proof.Machine

/-- The number of a completion code (R302). -/
def codeNumber : Code → Byte
  | .ok => 0x00
  | .timeout => 0x01
  | .badStart => 0x10
  | .badProduct => 0x11
  | .badAddr => 0x12
  | .badLength => 0x13
  | .badChecksum => 0x14
  | .badTerm => 0x15
  | .emptyBuffer => 0x20
  | .tooLong => 0x21
  | .badWindow => 0x22
  | .illegalCmd => 0x3F

/-- `STATUS` as the host reads it: bit 0 `BUSY`, bit 1 `DONE`, bit 2 `OVR`, bits 15:8 `CODE`, every other bit 0 (R33). -/
def statusWord (st : Status) : BitVec 32 :=
  (0 : BitVec 16) ++ codeNumber st.code ++ (0 : BitVec 5) ++ BitVec.ofBool st.ovr ++ BitVec.ofBool st.done
    ++ BitVec.ofBool st.busy

/-- `STATUS` after a command ends with `c`: `CODE` is `c`, `DONE` is 1, `BUSY` is 0 (R301). -/
def statusFinished (c : Code) (st : Status) : Status := { st with code := c, done := true, busy := false }

/-- `STATUS` when a command is accepted: `DONE` and `CODE` are cleared (R300). -/
def statusAccepted (st : Status) : Status := { st with done := false, code := .ok }

/-- `STATUS` when a reassembly starts (R150). -/
def statusRunning (st : Status) : Status := { st with busy := true, done := false, code := .ok }

/-- `STATUS` when something is dropped because the block is busy: the sticky `OVR` is set (R32, R44). -/
def statusOverrun (st : Status) : Status := { st with ovr := true }

/-- `STATUS` after the host writes `v` to it: a 1 in bit 2 clears `OVR`, nothing else changes (R33). -/
def statusWritten (v : BitVec 32) (st : Status) : Status := if v.getLsbD 2 then { st with ovr := false } else st

end Sys2Proof.Machine
end

