-- ==== Sys2Proof/Machine/Ops.lean ====
section
/-! DEFINITION. The operations every meaning is written over: byte buffers and the output memory, the window, ending a
command (this block's "exception entry", spec/60_exceptions.md R301, R319), accepting one (its "return", R300, R320),
sending a frame, and one receive attempt (spec/40_framer.md R151). -/

namespace Sys2Proof.Machine

/-- What a step answers. -/
abbrev Result := Host.Outcome State Fault Refusal

/-! ## Sparse memories in canonical form -/

/-- The cell at an index, if one is listed. -/
def cellAt {α : Type} : List (Nat × α) → Nat → Option α
  | [], _ => none
  | (b, v) :: m, a => if b = a then some v else cellAt m a

/-- The cells of consecutive values from an index on. -/
def cellsFrom {α : Type} : Nat → List α → List (Nat × α)
  | _, [] => []
  | base, v :: vs => (base, v) :: cellsFrom (base + 1) vs

/-- `m` with `vs` written at `base`, `base + 1`, …; every other index keeps its cell. -/
def blit {α : Type} (base : Nat) (vs : List α) (m : List (Nat × α)) : List (Nat × α) :=
  m.filter (fun c => decide (c.1 < base)) ++ cellsFrom base vs
    ++ m.filter (fun c => decide (base + vs.length ≤ c.1))

/-- Indices strictly rising, from `lo` on, all below `hi`. -/
def cellsWf {α : Type} (lo hi : Nat) : List (Nat × α) → Bool
  | [] => true
  | (a, _) :: m => decide (lo ≤ a) && decide (a < hi) && cellsWf (a + 1) hi m

/-- The canonical form of a byte buffer of `cap` bytes. -/
def Memory.wf (cap : Nat) (m : Memory) : Bool := cellsWf 0 cap m

/-- The canonical form of the output memory: rising indices below 512, no all-zero record listed. -/
def OutMemory.wf (m : OutMemory) : Bool := cellsWf 0 outCap m && m.all (fun c => decide (c.2 ≠ Entry.zero))

/-- `PKT[i]` (R12, R35). -/
def pktByte (s : State) (i : Nat) : Byte := (cellAt s.pkt i).getD (Config.unwritten .pkt s.resets i)
/-- `RB[i]` (R50). -/
def rbByte (s : State) (i : Nat) : Byte := (cellAt s.rb i).getD (Config.unwritten .rb s.resets i)
/-- `AB[i]` (R51). -/
def abByte (s : State) (i : Nat) : Byte := (cellAt s.ab i).getD (Config.unwritten .ab s.resets i)

/-- `PKT[base .. base+n)` as a sequence (R11). -/
def pktBytes (s : State) (base n : Nat) : List Byte := (List.range n).map (fun i => pktByte s (base + i))
/-- `RB[0..n)`. -/
def rbBytes (s : State) (n : Nat) : List Byte := (List.range n).map (rbByte s)
/-- `AB[0..n)`. -/
def abBytes (s : State) (n : Nat) : List Byte := (List.range n).map (abByte s)

/-- `OUT[k]` (R39). -/
def outAt (m : OutMemory) (k : Nat) : Entry := (cellAt m k).getD Entry.zero

/-- `OUT` after a program wrote `es` to `OUT[0..|es|)`; later entries keep their content (R39). -/
def outWrite (es : List Entry) (m : OutMemory) : OutMemory :=
  (cellsFrom 0 es).filter (fun c => decide (c.2 ≠ Entry.zero)) ++ m.filter (fun c => decide (es.length ≤ c.1))

/-! ## Ending and accepting a command -/

/-- "Clear the window" (R47). -/
def clearWindow (s : State) : State := { s with poff := 0, pn := 0, vaddr := 0, vlen := 0 }

/-- `finish(code)`, the one way a command ends, with a failure or not (R301, R319). -/
def finish (c : Code) (s : State) : State := { s with status := statusFinished c s.status, opr := .none }

/-- Accepting a command: what the next command does to the state a failure left (R300, R320). -/
def accept (s : State) : State := { s with status := statusAccepted s.status }

/-- A command or a buffer write dropped because the block is busy (R32, R44). -/
def overrun (s : State) : State := { s with status := statusOverrun s.status }

/-- The event `HostCmd`: dropped while busy, else accepted and run (R32, R300). `BUSY` is tested first (R317). -/
def hostCommand (run : State → State) (s : State) : Result :=
  .next (if s.status.busy then overrun s else run (accept s))

/-! ## Buffers and frames -/

/-- `PKT[base ..) <- bs`. -/
def writePkt (base : Nat) (bs : List Byte) (s : State) : State := { s with pkt := blit base bs s.pkt }

/-- `PKT[0..n) <- bs; PLEN <- n;` clear the window: how a command replaces the buffer (R47, R158, R169, R192). -/
def setBuffer (bs : List Byte) (s : State) : State :=
  clearWindow { writePkt 0 bs s with plen := bs.length }

/-- `send`, for frames in order: each is appended to `TX` (R12, R76). -/
def sendAll (fs : List Frame) (s : State) : State := { s with tx := s.tx ++ fs }

/-! ## Reassembly -/

/-- Start of a reassembly (R150). -/
def startReassembly (o : Opr) (s : State) : State :=
  { s with opr := o, status := statusRunning s.status, bud := s.cfg.rxBudget }

/-- One receive attempt (R151, R171): it costs one unit of budget; the frame rule; if that ended the command, stop; at
budget 0 the command ends with `TIMEOUT`. -/
def attempt (rule : State → State) (s : State) : State :=
  let s1 := rule { s with bud := s.bud - 1 }
  if s1.opr = .none then s1
  else if s1.bud = 0 then finish .timeout s1
  else s1

/-- The event `RxAnswer(Frame(f))` for the frame rule of a class that a running `o` receives (R10, R150, R151). -/
def receive (o : Opr) (rule : State → State) (s : State) : Result :=
  if s.opr = o then .next (attempt rule s) else .refused .rxNotEnabled

/-- The event `RxAnswer(Empty)`: no reassembly state changes (R161), the attempt costs its unit (R151). -/
def receiveEmpty (s : State) : Result :=
  if s.opr = .none then .refused .rxNotEnabled else .next (attempt id s)

end Sys2Proof.Machine
end

