-- ==== Sys2Proof/Machine/Codec.lean ====
section
/-! DEFINITION. The codec commands `BLD` and `VAL` (spec/41_codec.md R192, R195 to R200). -/

namespace Sys2Proof.Machine

/-- `BLD a` (R192, R311): the body in `PKT[0..PLEN)` becomes a packet in place. -/
def execBld (a : Byte) (s : State) : Result :=
  hostCommand (fun t =>
    if 253 < t.plen then finish .tooLong t
    else finish .ok (setBuffer (packetBytes a (pktBytes t 0 t.plen)) t)) s

/-- `g(i)`: a byte the buffer has, none otherwise (R195, R196). -/
def bufferByte (s : State) (i : Nat) : Option Byte := if i < s.plen then some (pktByte s i) else none

/-- The length check: the length byte exists, is at least 2, and `LEN + 4 = PLEN` (R197). -/
def lengthOk (s : State) : Bool :=
  match bufferByte s 3 with
  | none => false
  | some l => decide (2 ≤ l.toNat ∧ l.toNat + 4 = s.plen)

/-- The first check of `VAL e` that fails, in the order of R195, none when all pass. -/
def firstFailure (e : Byte) (s : State) : Option Code :=
  if bufferByte s 0 ≠ some 0xEA then some .badStart
  else if bufferByte s 1 ≠ some 0xD1 then some .badProduct
  else if bufferByte s 2 ≠ some e then some .badAddr
  else if lengthOk s = false then some .badLength
  else if pktByte s (s.plen - 2) ≠ xor8 (pktBytes s 3 (s.plen - 5)) then some .badChecksum
  else if pktByte s (s.plen - 1) ≠ 0xF5 then some .badTerm
  else none

/-- A validated packet: its fields, and the window on its payload (R193, R199). -/
def packetAccepted (s : State) : State :=
  let l := (pktByte s 3).toNat
  let k := min 2 (l - 2)
  { s with vaddr := pktByte s 2, vlen := pktByte s 3, poff := 4 + k, pn := (l - 2) - k }

/-- `VAL e` (R195, R199, R200). -/
def execVal (e : Byte) (s : State) : Result :=
  hostCommand (fun t =>
    match firstFailure e t with
    | some c => finish c (clearWindow t)
    | none => finish .ok (packetAccepted t)) s

end Sys2Proof.Machine
end

