-- ==== Sys2Proof/Machine/Operands.lean ====
section
/-! DEFINITION. The one operand form, window-relative bytes (spec/42_field_decoder.md R211), the extraction of a raw value
(R214), sentinel policy (R215), transform (R218), hexdec and the calendar (R230, R231), the code tables (R228), and the
128-bit layout of a value record (spec/10_state.md R41 to R43). -/

namespace Sys2Proof.Machine

/-! ## The window -/

/-- `W(o)` (R12, R211). -/
def winByte (s : State) (o : Nat) : Option Byte := if o < s.pn then some (pktByte s (s.poff + o)) else none

/-- `MemRead(o, n)` (R12, R211). -/
def memRead (s : State) (o n : Nat) : Option (List Byte) :=
  if o + n ≤ s.pn then some (pktBytes s (s.poff + o) n) else none

/-! ## Values -/

/-- The `CORRUPT` value (R42). -/
def Value.corrupt : Value := ⟨.corrupt, .none, 0, 0⟩
/-- A `NUM` value: `mant * 10^exp` in a unit (R13, R42). -/
def Value.num (unit : UnitCode) (exp : BitVec 4) (mant : Int) : Value := ⟨.num, unit, exp, mant⟩
/-- A `BOOL` value (R42). -/
def Value.bool (b : Bool) : Value := ⟨.bool, .none, 0, if b then 1 else 0⟩
/-- A `RAWHEX` value (R42, R232). -/
def Value.rawhex (b : Nat) : Value := ⟨.rawhex, .none, 0, b⟩
/-- A `CODE` value: table index and code id (R42). -/
def Value.code (t id : Byte) : Value := ⟨.code, .none, 0, t.toNat * 256 + id.toNat⟩
/-- A `FLAGS` value: a bit set (R42). -/
def Value.flags (m : Nat) : Value := ⟨.flags, .none, 0, m⟩

/-! ## Raw extraction -/

/-- `be(s)`: big-endian (R12, R72). -/
def be (bs : List Byte) : Nat := bs.foldl (fun acc b => acc * 256 + b.toNat) 0

/-- `sext_16(v)` (R12). -/
def sext16 (v : Nat) : Int := if v < 32768 then (v : Int) else (v : Int) - 65536

/-- The high nibble of a byte (R214). -/
def hiNibble (b : Byte) : Nat := b.toNat / 16
/-- The low nibble of a byte (R214). -/
def loNibble (b : Byte) : Nat := b.toNat % 16

/-- `hexdec(b)`: the two hexadecimal digits read as a decimal number, none when corrupt (R230). -/
def hexdec (b : Byte) : Option Nat :=
  if hiNibble b ≤ 9 ∧ loNibble b ≤ 9 then some (10 * hiNibble b + loNibble b) else none

/-- The kinds of format G field (R214). -/
inductive FieldKind where
  | u8 | u16 | s16 | u32 | nh | nl | bcd
deriving DecidableEq, Repr

/-- The bytes a kind reads (R79, R214). -/
def kindWidth : FieldKind → Nat
  | .u8 => 1
  | .u16 => 2
  | .s16 => 2
  | .u32 => 4
  | .nh => 1
  | .nl => 1
  | .bcd => 1

/-- The raw integer of a field's bytes, none when a hex-as-decimal byte is corrupt (R214, R230). -/
def rawOf (k : FieldKind) (bs : List Byte) : Option Int :=
  match k with
  | .u8 => some (bs.getD 0 0).toNat
  | .u16 => some (be bs)
  | .s16 => some (sext16 (be bs))
  | .u32 => some (be bs)
  | .nh => some (hiNibble (bs.getD 0 0))
  | .nl => some (loNibble (bs.getD 0 0))
  | .bcd => (hexdec (bs.getD 0 0)).map Int.ofNat

/-- The fixed result of a sentinel pattern (R215): none for policy `N`. -/
def sentinelResult : Sent → Option Int
  | .n => none
  | .z => some 0
  | .m => some (-1)

/-- A format G field read: the value it leaves in `RES` (R213, R215, R216, R218). -/
def fieldG (k : FieldKind) (s : State) (off : Nat) (sent : Sent) (mul : Nat) (add : Int) (exp : BitVec 4)
    (unit : UnitCode) : Value :=
  match memRead s off (kindWidth k) with
  | none => Value.absent
  | some bs =>
    match rawOf k bs with
    | none => Value.corrupt
    | some raw =>
      match sentinelResult sent with
      | none => Value.num unit exp (raw * mul + add)
      | some m => if bs = [0xFF, 0xFF] then Value.num unit exp m else Value.num unit exp (raw * mul + add)

/-- A bit of a window byte as a boolean (R227). -/
def fieldBit (s : State) (off bit : Nat) : Value :=
  match winByte s off with
  | none => Value.absent
  | some b => Value.bool (b.getLsbD bit)

/-! ## Code tables -/

/-- `CTAB(t, b)` (R6, R228). -/
def codeOf (p : Params) (t b : Byte) : Option Byte :=
  (p.ctab.find? (fun r => decide (r.table = t ∧ r.byte = b))).map (fun r => r.id)

/-- A coded byte through table `t`, with raw-hex fallback (R228). -/
def fieldCode (s : State) (off : Nat) (t : Byte) : Value :=
  match winByte s off with
  | none => Value.absent
  | some b =>
    match codeOf s.cfg t b with
    | some id => Value.code t id
    | none => Value.rawhex b.toNat

/-! ## Timestamps -/

/-- `dim(yy, mo)` (R231). -/
def daysInMonth (yy mo : Nat) : Nat :=
  if mo = 2 then (if yy % 4 = 0 then 29 else 28)
  else if mo = 4 ∨ mo = 6 ∨ mo = 9 ∨ mo = 11 then 30
  else 31

/-- `valid(yy, mo, dd, hh, mi, ss)` (R231). -/
def validTime (yy mo dd hh mi ss : Nat) : Bool :=
  decide (1 ≤ mo ∧ mo ≤ 12) && decide (1 ≤ dd ∧ dd ≤ daysInMonth yy mo) && decide (hh ≤ 23) && decide (mi ≤ 59)
    && decide (ss ≤ 59)

/-- All of a list of `hexdec` results, none when one of them is corrupt (R229). -/
def hexdecAll : List Byte → Option (List Nat)
  | [] => some []
  | b :: bs =>
    match hexdec b, hexdecAll bs with
    | some v, some vs => some (v :: vs)
    | _, _ => none

/-- The component `c` of six values arranged by `TS_ORDER` (R229). -/
def tsPart (order : List TsPart) (vs : List Nat) (c : TsPart) : Nat := vs.getD (order.idxOf c) 0

/-- The value of six components (R42, R229). -/
def Value.ts (yy mo dd hh mi ss : Nat) : Value :=
  ⟨.ts, .none, 0, ((yy * 2 ^ 40 + mo * 2 ^ 32 + dd * 2 ^ 24 + hh * 2 ^ 16 + mi * 2 ^ 8 + ss : Nat) : Int)⟩

/-- A six-byte timestamp (R229). -/
def fieldTime (s : State) (off : Nat) : Value :=
  match memRead s off 6 with
  | none => Value.absent
  | some bs =>
    match hexdecAll bs with
    | none => Value.corrupt
    | some vs =>
      let part := tsPart s.cfg.tsOrder vs
      if validTime (part .year) (part .month) (part .day) (part .hour) (part .minute) (part .second) then
        Value.ts (part .year) (part .month) (part .day) (part .hour) (part .minute) (part .second)
      else Value.corrupt

/-! ## The 128-bit record -/

/-- Tag codes (R42). -/
def tagCode : Tag → BitVec 4
  | .absent => 0
  | .num => 1
  | .bool => 2
  | .corrupt => 3
  | .rawhex => 4
  | .code => 5
  | .ts => 6
  | .flags => 7

/-- A value record as the host reads it (R41): `KEY`, `IDX`, `TAG`, `UNIT`, `EXP`, 36 zero bits, `MANT`. -/
def recordBits (key idx : Byte) (v : Value) : BitVec 128 :=
  key ++ idx ++ tagCode v.tag ++ codeOfUnit v.unit ++ v.exp ++ (0 : BitVec 36) ++ BitVec.ofInt 64 v.mant

end Sys2Proof.Machine
end

