-- ==== Sys2Proof/Machine/FieldDecoder.lean ====
section
/-! DEFINITION. The field decoder commands `SETW` and `GU8` to `GTS` (spec/42_field_decoder.md R212, R216, R220 to R229). -/

namespace Sys2Proof.Machine

/-- `SETW off, len` (R212, R312); the sum does not wrap. -/
def execSetw (off len : BitVec 16) (s : State) : Result :=
  hostCommand (fun t =>
    if t.plen < off.toNat + len.toNat then finish .badWindow t
    else finish .ok { t with poff := off.toNat, pn := len.toNat, vaddr := 0, vlen := 0 }) s

/-- A field read: it writes `RES` and ends with `OK`, whatever the value is (R38, R216, R217). -/
def readField (value : State → Value) (s : State) : Result :=
  hostCommand (fun t => finish .ok { t with res := value t }) s

/-- `GU8` (R220). -/
def execGu8 (off : Byte) (mul add : BitVec 16) (exp : BitVec 4) (unit : UnitCode) (s : State) : Result :=
  readField (fun t => fieldG .u8 t off.toNat .n mul.toNat add.toInt exp unit) s

/-- `GU16` (R221). -/
def execGu16 (off : Byte) (sent : Sent) (mul add : BitVec 16) (exp : BitVec 4) (unit : UnitCode) (s : State) : Result :=
  readField (fun t => fieldG .u16 t off.toNat sent mul.toNat add.toInt exp unit) s

/-- `GS16` (R222). -/
def execGs16 (off : Byte) (sent : Sent) (mul add : BitVec 16) (exp : BitVec 4) (unit : UnitCode) (s : State) : Result :=
  readField (fun t => fieldG .s16 t off.toNat sent mul.toNat add.toInt exp unit) s

/-- `GU32` (R223). -/
def execGu32 (off : Byte) (mul add : BitVec 16) (exp : BitVec 4) (unit : UnitCode) (s : State) : Result :=
  readField (fun t => fieldG .u32 t off.toNat .n mul.toNat add.toInt exp unit) s

/-- `GNH` (R224). -/
def execGnh (off : Byte) (mul add : BitVec 16) (exp : BitVec 4) (unit : UnitCode) (s : State) : Result :=
  readField (fun t => fieldG .nh t off.toNat .n mul.toNat add.toInt exp unit) s

/-- `GNL` (R225). -/
def execGnl (off : Byte) (mul add : BitVec 16) (exp : BitVec 4) (unit : UnitCode) (s : State) : Result :=
  readField (fun t => fieldG .nl t off.toNat .n mul.toNat add.toInt exp unit) s

/-- `GBCD` (R226). -/
def execGbcd (off : Byte) (mul add : BitVec 16) (exp : BitVec 4) (unit : UnitCode) (s : State) : Result :=
  readField (fun t => fieldG .bcd t off.toNat .n mul.toNat add.toInt exp unit) s

/-- `GBIT` (R227). -/
def execGbit (off : Byte) (bit : BitVec 3) (s : State) : Result :=
  readField (fun t => fieldBit t off.toNat bit.toNat) s

/-- `GCODE` (R228). -/
def execGcode (off table : Byte) (s : State) : Result := readField (fun t => fieldCode t off.toNat table) s

/-- `GTS` (R229). -/
def execGts (off : Byte) (s : State) : Result := readField (fun t => fieldTime t off.toNat) s

end Sys2Proof.Machine
end

