-- ==== Sys2Proof/Machine/Framer.lean ====
section
/-! DEFINITION. The framer commands `FRS`, `FRA`, `UFS`, `UFA`, `DEPAD` (spec/40_framer.md R141, R145, R150, R152, R162,
R175). What `UFS` and `UFA` do with the frames they receive is Sys2Proof/Machine/Reassembly.lean. -/

namespace Sys2Proof.Machine

/-! ## Sending -/

/-- Data frame number `j` of a buffer: bytes `8j` to `8j+7`, zero-padded (R73, R141). -/
def dataFrame (p : Params) (bs : List Byte) (j : Nat) : Frame :=
  ⟨p.txSidData, (List.range 8).map (fun k => bs.getD (8 * j + k) 0)⟩

/-- The frames of a buffer in sentinel mode: start, `ceil(|b| / 8)` data frames, end (R111, R141). -/
def sentinelFrames (p : Params) (bs : List Byte) : List Frame :=
  [⟨p.txSidStart, zeroData⟩] ++ (List.range ((bs.length + 7) / 8)).map (dataFrame p bs) ++ [⟨p.txSidEnd, zeroData⟩]

/-- `cap(m)`: the buffer bytes a chunk frame carries (R116). -/
def chunkCap (m : Nat) : Nat :=
  match m with
  | 1 => 5
  | 2 => 6
  | 3 => 6
  | 4 => 6
  | 5 => 6
  | 6 => 3
  | _ => 0

/-- `base(m)`: the buffer offset of a chunk frame's first byte (R116). -/
def chunkBase (m : Nat) : Nat :=
  match m with
  | 1 => 0
  | 2 => 5
  | 3 => 11
  | 4 => 17
  | 5 => 23
  | 6 => 29
  | _ => 32

/-- The chunk frame with marker `m` of a buffer (R116, R145). -/
def chunkFrame (p : Params) (k : Byte) (bs : List Byte) (m : Nat) : Frame :=
  ⟨p.txAid, addressedData k (BitVec.ofNat 8 m) ((bs.drop (chunkBase m)).take (chunkCap m))⟩

/-- The frames of a buffer in addressed mode: the header, then the chunk frames that carry bytes (R115, R116, R145). -/
def addressedFrames (p : Params) (k : Byte) (bs : List Byte) : List Frame :=
  ⟨p.txAid, addressedData k 0 [BitVec.ofNat 8 bs.length]⟩
    :: (([1, 2, 3, 4, 5, 6] : List Nat).takeWhile (fun m => decide (chunkBase m < bs.length))).map (chunkFrame p k bs)

/-- `FRS` (R141, R310). -/
def execFrs (s : State) : Result :=
  hostCommand (fun t =>
    if t.plen = 0 then finish .emptyBuffer t
    else finish .ok (sendAll (sentinelFrames t.cfg (pktBytes t 0 t.plen)) t)) s

/-- `FRA K` (R145, R311). -/
def execFra (k : Byte) (s : State) : Result :=
  hostCommand (fun t =>
    if 32 < t.plen then finish .tooLong t
    else finish .ok (sendAll (addressedFrames t.cfg k (pktBytes t 0 t.plen)) t)) s

/-! ## Starting a reassembly -/

/-- `UFS` (R150, R152). -/
def execUfs (s : State) : Result := hostCommand (startReassembly .ufs) s

/-- `UFA K` (R150, R162). -/
def execUfa (k : Byte) (s : State) : Result :=
  hostCommand (fun t => startReassembly .ufa { t with knode := k }) s

/-! ## Padding removal -/

/-- The length `DEPAD` shortens the buffer to, if it does (R175): the total length `t = PKT[3] + 4` the packet declares,
when `t < n`, at most 7 bytes follow, and all of them are zero. -/
def depadTo (s : State) : Option Nat :=
  if 4 ≤ s.plen then
    let t := (pktByte s 3).toNat + 4
    if t < s.plen ∧ s.plen - t ≤ 7 ∧ (pktBytes s t (s.plen - t)).all (fun b => b == 0) then some t else none
  else none

/-- `DEPAD` (R175). -/
def execDepad (s : State) : Result :=
  hostCommand (fun t =>
    match depadTo t with
    | some n => finish .ok (clearWindow { t with plen := n })
    | none => finish .ok t) s

end Sys2Proof.Machine
end

