-- ==== Sys2Proof/Machine/HostAccess.lean ====
section
/-! DEFINITION. The host's side: the register map (spec/10_state.md R31), host reads and writes (R32 to R35, R44, R47), the
hand-over of an application byte buffer, and the reset input (spec/70_reset_and_hazards.md R340). -/

namespace Sys2Proof.Machine

/-- The register or cell at an offset, accessed at a width in bits: none where the map has none or the width is not its
own (R31, R75). -/
def regAt (off width : Nat) : Option HostReg :=
  if width = 64 then (if off = 0x000 then some .cmd else none)
  else if width = 32 then
    match off with
    | 0x008 => some .status
    | 0x00C => some .plen
    | 0x010 => some .vaddr
    | 0x014 => some .vlen
    | 0x018 => some .poff
    | 0x01C => some .pn
    | 0x030 => some .outn
    | 0x034 => some .bud
    | _ => none
  else if width = 8 then
    (if 0x100 ≤ off ∧ off < 0x100 + pktCap then some (.pkt (off - 0x100)) else none)
  else if width = 128 then
    (if off = 0x020 then some .res
     else if 0x2000 ≤ off ∧ off < 0x2000 + 16 * outCap ∧ off % 16 = 0 then some (.out ((off - 0x2000) / 16))
     else none)
  else none

/-- `BUD` as its 32-bit register shows it (R31, R40; log entry 9). -/
def budgetWord (n : Nat) : BitVec 32 := if n < 2 ^ 32 then BitVec.ofNat 32 n else Config.wideBudget n

/-- The value a host read returns, zero-extended (R31, R44): none for `CMD`, which is not storage (R32). -/
def hostValue (s : State) : HostReg → Option (BitVec 128)
  | .cmd => none
  | .status => some ((statusWord s.status).setWidth 128)
  | .plen => some (BitVec.ofNat 128 s.plen)
  | .vaddr => some (s.vaddr.setWidth 128)
  | .vlen => some (s.vlen.setWidth 128)
  | .poff => some (BitVec.ofNat 128 s.poff)
  | .pn => some (BitVec.ofNat 128 s.pn)
  | .res => some (recordBits 0 0 s.res)
  | .outn => some (BitVec.ofNat 128 s.outn)
  | .bud => some ((budgetWord s.bud).setWidth 128)
  | .pkt i => some ((pktByte s i).setWidth 128)
  | .out k => some (recordBits (outAt s.out k).key (outAt s.out k).idx (outAt s.out k).val)

/-- The event `HostRead`: it changes nothing but the record of what was read (R44, R80; log entry 7). -/
def hostRead (off width : Nat) (s : State) : Result :=
  match regAt off width with
  | none => .refused .hostAccessUndefined
  | some r =>
    match hostValue s r with
    | none => .refused .readOfWriteOnly
    | some v => .next { s with reads := s.reads ++ [(r, v)] }

/-- A host write to `PLEN` (R34, R44, R47). -/
def writePlen (v : Nat) (s : State) : State :=
  if s.status.busy then overrun s
  else if pktCap < v then s
  else clearWindow { s with plen := v }

/-- A host write to `PKT[i]` (R35, R44, R47). -/
def writePktByte (i : Nat) (b : Byte) (s : State) : State :=
  if s.status.busy then overrun s else clearWindow (writePkt i [b] s)

/-- A host write to a register other than `CMD`: a read-only one drops it without effect (R33, R34, R35, R44). -/
def writeReg (r : HostReg) (v : BitVec 128) (s : State) : State :=
  match r with
  | .status => { s with status := statusWritten (v.setWidth 32) s.status }
  | .plen => writePlen (v.setWidth 32).toNat s
  | .pkt i => writePktByte i (v.setWidth 8) s
  | .cmd | .vaddr | .vlen | .poff | .pn | .res | .outn | .bud | .out _ => s

/-- The host writes of a buffer's bytes to `PKT[i]`, `PKT[i+1]`, … -/
def writePktBytes (i : Nat) (bs : List Byte) (s : State) : State :=
  match bs with
  | [] => s
  | b :: rest => writePktBytes (i + 1) rest (writePktByte i b s)

/-- The host hands over an application byte buffer: its bytes to `PKT[0..n)`, then `n` to `PLEN` (R34, R35; log entry
10). Each write is a host write of its own: while busy each is dropped and sets `OVR` (R44). -/
def loadBuffer (bs : List Byte) (s : State) : State := writePlen bs.length (writePktBytes 0 bs s)

/-- An SP packet handed over by the host (R34, R190; log entry 10). -/
def execPacketSp (addr : Byte) (body : List Byte) (s : State) : Result :=
  .next (loadBuffer (packetBytes addr body) s)

/-- The reset input (R340): the reset values; the instance, the events still to come and the host's record of its reads
stay (log entry 6). -/
def applyReset (s : State) : State :=
  { State.resetOf s.cfg with inbox := s.inbox, reads := s.reads, resets := s.resets + 1 }

end Sys2Proof.Machine
end

