-- ==== Sys2Proof/Machine/Reassembly.lean ====
section
/-! DEFINITION. What a running `UFS` or `UFA` does with a received frame of each class (spec/40_framer.md R151 to R169). A
frame's class is what Sys2Proof/Decode.lean makes of it (spec/30_encoding.md R112, R118). -/

namespace Sys2Proof.Machine

/-! ## Sentinel mode -/

/-- Start frame, in any phase (R154). -/
def onSentinelStart (s : State) : State := { s with rn := 0, sph := .start }

/-- The open sequence is abandoned (R156, R159, R160). -/
def abandon (s : State) : State := { s with rn := 0, sph := .idle }

/-- Data frame (R155, R156, R157). -/
def onSentinelData (data : List Byte) (s : State) : State :=
  match s.sph with
  | .idle => s
  | .start | .data =>
    if s.rn + 8 ≤ rbCap then { s with rb := blit s.rn data s.rb, rn := s.rn + 8, sph := .data }
    else abandon s

/-- End frame (R158, R159). -/
def onSentinelEnd (s : State) : State :=
  match s.sph with
  | .data => finish .ok { setBuffer (rbBytes s s.rn) s with rn := 0, sph := .idle }
  | .idle | .start => abandon s

/-- A received start frame. -/
def execFrameSentinelStart (s : State) : Result := receive .ufs onSentinelStart s

/-- A received data frame. -/
def execFrameSentinelData (data : List Byte) (s : State) : Result := receive .ufs (onSentinelData data) s

/-- A received end frame. -/
def execFrameSentinelEnd (s : State) : Result := receive .ufs onSentinelEnd s

/-- A received frame on an id that is none of the three (R160); which id it is does not matter. -/
def execFrameSentinelOther (_id : FrameId) (s : State) : Result := receive .ufs abandon s

/-! ## Addressed mode -/

/-- Completion of an addressed reassembly (R169). -/
def completeAddressed (s : State) : State :=
  finish .ok { setBuffer (abBytes s s.aT) s with aOpen := false, aNext := 1, aN := 0 }

/-- Header frame with total `T` (R164, R165); one for another node is ignored (R163). -/
def onAddressedHeader (node total : Byte) (s : State) : State :=
  if node ≠ s.knode then s
  else if 32 < total.toNat then s
  else if total.toNat = 0 then
    finish .ok (clearWindow { s with aOpen := false, aT := 0, aN := 0, aNext := 1, plen := 0 })
  else { s with aOpen := true, aNode := s.knode, aT := total.toNat, aN := 0, aNext := 1 }

/-- A chunk is accepted while a reassembly of this node is open and its marker is the next one (R166, R167). -/
def chunkAccepted (m : Nat) (node : Byte) (s : State) : Bool :=
  decide (node = s.knode) && s.aOpen && decide (s.aNode = s.knode) && decide (m = s.aNext)

/-- Chunk frame with marker `m` (R166, R167); one for another node is ignored (R163). -/
def onAddressedChunk (m : Nat) (node : Byte) (c : List Byte) (s : State) : State :=
  if chunkAccepted m node s then
    let s1 := { s with
      ab := blit (chunkBase m) (c.take (chunkCap m)) s.ab
      aN := chunkBase m + chunkCap m
      aNext := if m < 6 then m + 1 else s.aNext }
    if s1.aT ≤ s1.aN then completeAddressed s1 else s1
  else s

/-- A received header frame. -/
def execFrameAddressedHeader (node total : Byte) (s : State) : Result := receive .ufa (onAddressedHeader node total) s

/-- A received first data frame. -/
def execFrameAddressedChunk1 (node : Byte) (c : List Byte) (s : State) : Result :=
  receive .ufa (onAddressedChunk 1 node c) s

/-- A received chunk with marker 2. -/
def execFrameAddressedChunk2 (node : Byte) (c : List Byte) (s : State) : Result :=
  receive .ufa (onAddressedChunk 2 node c) s

/-- A received chunk with marker 3. -/
def execFrameAddressedChunk3 (node : Byte) (c : List Byte) (s : State) : Result :=
  receive .ufa (onAddressedChunk 3 node c) s

/-- A received chunk with marker 4. -/
def execFrameAddressedChunk4 (node : Byte) (c : List Byte) (s : State) : Result :=
  receive .ufa (onAddressedChunk 4 node c) s

/-- A received chunk with marker 5. -/
def execFrameAddressedChunk5 (node : Byte) (c : List Byte) (s : State) : Result :=
  receive .ufa (onAddressedChunk 5 node c) s

/-- A received terminal chunk. -/
def execFrameAddressedChunk6 (node : Byte) (c : List Byte) (s : State) : Result :=
  receive .ufa (onAddressedChunk 6 node c) s

/-- A received frame that is ignored: not 8 bytes, another node, or no marker (R163). It costs its budget all the same. -/
def execFrameAddressedIgnored (_f : Frame) (s : State) : Result := receive .ufa id s

end Sys2Proof.Machine
end

