-- ==== Sys2Proof/Machine/StatusDecoders.lean ====
section
/-! DEFINITION. The decode programs `DVOLT`, `DCURR`, `DPWR` (spec/43_status_decoders.md). Each is the list of entries it
writes, over the field reads of Sys2Proof/Machine/Operands.lean. -/

namespace Sys2Proof.Machine

/-- A decode program: `OUT[0..n)`, `OUTN <- n`, `OK`, nothing else (R251). -/
def decodeProgram (entries : State → List Entry) (s : State) : Result :=
  hostCommand (fun t => finish .ok { t with out := outWrite (entries t) t.out, outn := (entries t).length }) s

/-! ## VoltageStatus -/

/-- The cell count `N` a count field stands for (R252, R256). -/
def countOf (c : Value) : Nat := if c.tag = .num then c.mant.toNat else 0

/-- Cell `i`'s voltage, `i` from 1 (R252). -/
def cellVoltage (s : State) (i : Nat) : Value := fieldG .u16 s (3 + 2 * (i - 1)) .z 1 0 (-3) .v

/-- The mantissas of the values that are present (R253). -/
def presentMants (vs : List Value) : List Int := (vs.filter (fun v => decide (v.tag = .num))).map (fun v => v.mant)

/-- `diff(v)`: maximum less minimum over the present cells, `ABSENT` when there is none (R253, R254). -/
def voltageDiff (vs : List Value) : Value :=
  match presentMants vs with
  | [] => Value.absent
  | m :: ms => Value.num .v (-3) (ms.foldl max m - ms.foldl min m)

/-- The entries of `DVOLT` (R250, R252). -/
def voltageEntries (s : State) : List Entry :=
  let c := fieldG .u8 s 0 .n 1 0 0 .none
  let cells := (List.range (countOf c)).map (fun j => cellVoltage s (j + 1))
  [⟨0x01, 0, c⟩]
    ++ (List.range (countOf c)).map (fun j => ⟨0x02, BitVec.ofNat 8 (j + 1), cellVoltage s (j + 1)⟩)
    ++ [⟨0x03, 0, voltageDiff cells⟩]

/-- `DVOLT` (R252). -/
def execDvolt (s : State) : Result := decodeProgram voltageEntries s

/-! ## CurrentStatus -/

/-- `current()` (R262). -/
def currentValue (s : State) : Value :=
  let c := fieldG .s16 s 1 .z 1 0 (-2) .a
  match c.tag, winByte s s.cfg.csl.dsgByte with
  | .num, some d => if d.getLsbD s.cfg.csl.dsgBit then Value.num .a (-2) (-(c.mant.natAbs : Int)) else c
  | _, _ => Value.absent

/-- `raw[k]` (R263). -/
def rawFlag (s : State) (k : Nat) : Bool :=
  match s.cfg.csl.fpos[k]? with
  | none => false
  | some p =>
    match winByte s p.off with
    | none => false
    | some b => b.getLsbD p.bit

/-- The ids of the flag set `S`: one per domain and qualifier pair that are both set, and the unrelated flags (R264,
R265). -/
def flagIds (raw : Nat → Bool) : List Nat :=
  (([0, 1, 2] : List Nat).flatMap (fun d =>
      (([3, 4] : List Nat).filter (fun q => raw d && raw q)).map (fun q => 10 + 2 * d + (q - 3))))
    ++ ([5, 6, 7, 8, 9] : List Nat).filter raw

/-- `flags()` (R263, R264). -/
def flagsValue (s : State) : Value :=
  if s.pn < 7 then Value.absent else Value.flags ((flagIds (rawFlag s)).map (fun k => 2 ^ k)).sum

/-- `balancing(o)` (R267). -/
def balancingValue (s : State) (o : Nat) : Value :=
  match memRead s o 3 with
  | none => Value.absent
  | some bs => Value.flags (be bs)

/-- `byteflags(o)` (R261). -/
def byteFlags (s : State) (o : Nat) : Value :=
  match winByte s o with
  | none => Value.absent
  | some b => Value.flags b.toNat

/-- A temperature byte (R261, R269). -/
def temperature (s : State) (o : Nat) : Value := fieldG .u8 s o .n 1 s.cfg.csl.tAdd 0 .degc

/-- The entries of `DCURR` (R250, R261, R266). -/
def currentEntries (s : State) : List Entry :=
  let mp := fieldBit s 0 s.cfg.csl.mospBit
  let ap := fieldBit s 0 s.cfg.csl.ambpBit
  let nt := s.cfg.csl.nt
  let oMos := 7 + nt
  let oAmb := if mp = Value.bool true then oMos + 1 else oMos
  let o := if ap = Value.bool true then oAmb + 1 else oAmb
  [⟨0x10, 0, mp⟩, ⟨0x11, 0, ap⟩, ⟨0x12, 0, currentValue s⟩, ⟨0x13, 0, flagsValue s⟩]
    ++ (List.range nt).map (fun j => ⟨0x14, BitVec.ofNat 8 (j + 1), temperature s (7 + j)⟩)
    ++ [⟨0x15, 0, if mp = Value.bool true then temperature s oMos else Value.absent⟩,
        ⟨0x16, 0, if ap = Value.bool true then temperature s oAmb else Value.absent⟩,
        ⟨0x17, 0, fieldG .u16 s o .z 1 0 (-2) .ohm⟩,
        ⟨0x18, 0, balancingValue s (o + 2)⟩,
        ⟨0x19, 0, fieldG .u8 s (o + 5) .n 1 0 0 .none⟩,
        ⟨0x1A, 0, byteFlags s (o + 6)⟩,
        ⟨0x1B, 0, byteFlags s (o + 7)⟩]

/-- `DCURR` (R261). -/
def execDcurr (s : State) : Result := decodeProgram currentEntries s

/-! ## PowerStatus -/

/-- `frontend(b)`: the high nibble through table 0xFF, else raw (R277). -/
def frontEnd (p : Params) (b : Option Byte) : Value :=
  match b with
  | none => Value.absent
  | some v =>
    match codeOf p 0xFF (BitVec.ofNat 8 (hiNibble v)) with
    | some id => Value.code 0xFF id
    | none => Value.rawhex (hiNibble v)

/-- The optional tail: present exactly when the marker byte is 0x0D (R273, R275, R276). -/
def powerTail (s : State) : List Entry :=
  let l := s.cfg.psl
  if winByte s l.oMark = some 0x0D then
    [⟨0x29, 0, fieldG .u8 s l.oHw .n 1 0 0 .none⟩,
     ⟨0x2A, 0, frontEnd s.cfg (winByte s l.oFe)⟩,
     ⟨0x2B, 0, fieldG .nl s l.oFe .n 1 0 0 .none⟩]
  else
    [⟨0x29, 0, Value.absent⟩, ⟨0x2A, 0, Value.code 0xFF 0⟩, ⟨0x2B, 0, Value.absent⟩]

/-- The entries of `DPWR` (R250, R273, R274). -/
def powerEntries (s : State) : List Entry :=
  let l := s.cfg.psl
  [⟨0x20, 0, fieldG .u8 s l.oSoc .n 1 0 0 .pct⟩,
   ⟨0x21, 0, fieldG .u16 s l.oCyc .n 1 0 0 .none⟩,
   ⟨0x22, 0, fieldG .u32 s l.oDcap .n 1 0 l.capExp .none⟩,
   ⟨0x23, 0, fieldG .u32 s l.oFcap .n 1 0 l.capExp .none⟩,
   ⟨0x24, 0, fieldG .u32 s l.oRcap .n 1 0 l.capExp .none⟩,
   ⟨0x25, 0, fieldG .u16 s l.oDmin .m 1 0 0 .min⟩,
   ⟨0x26, 0, fieldG .u16 s l.oCmin .m 1 0 0 .min⟩,
   ⟨0x27, 0, fieldG .u16 s l.oVbat .n 1 0 l.vbatExp .v⟩]
    ++ (List.range l.nvc).map (fun j =>
        ⟨0x28, BitVec.ofNat 8 (j + 1), fieldG .u16 s (l.oVcell + 2 * j) .n 1 0 l.vcellExp .v⟩)
    ++ powerTail s

/-- `DPWR` (R273). -/
def execDpwr (s : State) : Result := decodeProgram powerEntries s

end Sys2Proof.Machine
end

