-- ==== Sys2Proof/Machine/System.lean ====
section
/-! DEFINITION. The system commands and the illegal word (spec/44_system.md). -/

namespace Sys2Proof.Machine

/-- `NOP` (R290). -/
def execNop (s : State) : Result := hostCommand (finish .ok) s

/-- The reassembly machines, the window, `RES`, `OUTN`, `BUD` and `OVR` at their reset values (R291, R341). -/
def softReset (s : State) : State :=
  clearWindow { s with
    sph := .idle, rn := 0
    aOpen := false, aNode := 0, aNext := 1, aT := 0, aN := 0
    res := Value.absent, outn := 0, bud := 0
    status := { s.status with ovr := false } }

/-- `SRST` (R291). -/
def execSrst (s : State) : Result := hostCommand (fun t => finish .ok (softReset t)) s

/-- An illegal word ends at once with `ILLEGAL_CMD` (R292, R313). Presented to a busy block it is dropped like any word
(R32, R292). The word has no operand: nothing of it is used. -/
def execIllegal (_w : CmdWord) (s : State) : Result := hostCommand (finish .illegalCmd) s

end Sys2Proof.Machine
end

