-- ==== Sys2Proof/Machine/Dispatch.lean ====
section
/-! DEFINITION. The meaning of every instruction, one arm per constructor of Instr. -/

namespace Sys2Proof.Machine

def exec (i : Instr) (s : State) : Host.Outcome State Fault Refusal :=
  match i with
  | .nop => Sys2Proof.Machine.execNop s
  | .srst => Sys2Proof.Machine.execSrst s
  | .frs => Sys2Proof.Machine.execFrs s
  | .fra k => Sys2Proof.Machine.execFra k s
  | .ufs => Sys2Proof.Machine.execUfs s
  | .ufa k => Sys2Proof.Machine.execUfa k s
  | .depad => Sys2Proof.Machine.execDepad s
  | .bld a => Sys2Proof.Machine.execBld a s
  | .val e => Sys2Proof.Machine.execVal e s
  | .setw off len => Sys2Proof.Machine.execSetw off len s
  | .gu8 off mul add exp unit => Sys2Proof.Machine.execGu8 off mul add exp unit s
  | .gu16 off sent mul add exp unit => Sys2Proof.Machine.execGu16 off sent mul add exp unit s
  | .gs16 off sent mul add exp unit => Sys2Proof.Machine.execGs16 off sent mul add exp unit s
  | .gu32 off mul add exp unit => Sys2Proof.Machine.execGu32 off mul add exp unit s
  | .gnh off mul add exp unit => Sys2Proof.Machine.execGnh off mul add exp unit s
  | .gnl off mul add exp unit => Sys2Proof.Machine.execGnl off mul add exp unit s
  | .gbcd off mul add exp unit => Sys2Proof.Machine.execGbcd off mul add exp unit s
  | .gbit off bit => Sys2Proof.Machine.execGbit off bit s
  | .gcode off table => Sys2Proof.Machine.execGcode off table s
  | .gts off => Sys2Proof.Machine.execGts off s
  | .dvolt => Sys2Proof.Machine.execDvolt s
  | .dcurr => Sys2Proof.Machine.execDcurr s
  | .dpwr => Sys2Proof.Machine.execDpwr s
  | .illegal w => Sys2Proof.Machine.execIllegal w s
  | .frameSentinelStart => Sys2Proof.Machine.execFrameSentinelStart s
  | .frameSentinelData data => Sys2Proof.Machine.execFrameSentinelData data s
  | .frameSentinelEnd => Sys2Proof.Machine.execFrameSentinelEnd s
  | .frameSentinelOther id => Sys2Proof.Machine.execFrameSentinelOther id s
  | .frameAddressedHeader node total => Sys2Proof.Machine.execFrameAddressedHeader node total s
  | .frameAddressedChunk1 node c => Sys2Proof.Machine.execFrameAddressedChunk1 node c s
  | .frameAddressedChunk2 node c => Sys2Proof.Machine.execFrameAddressedChunk2 node c s
  | .frameAddressedChunk3 node c => Sys2Proof.Machine.execFrameAddressedChunk3 node c s
  | .frameAddressedChunk4 node c => Sys2Proof.Machine.execFrameAddressedChunk4 node c s
  | .frameAddressedChunk5 node c => Sys2Proof.Machine.execFrameAddressedChunk5 node c s
  | .frameAddressedChunk6 node c => Sys2Proof.Machine.execFrameAddressedChunk6 node c s
  | .frameAddressedIgnored f => Sys2Proof.Machine.execFrameAddressedIgnored f s
  | .packetSp addr body => Sys2Proof.Machine.execPacketSp addr body s

end Sys2Proof.Machine
end

