-- ==== Sys2Proof/Machine/Events.lean ====
section
/-! DEFINITION. What each event does (spec/00_scope.md R10): fetching a command word, decoding it, classifying a received
frame by the running command, and the host's accesses. It stands after Dispatch because a step runs `exec`. -/

namespace Sys2Proof.Machine

/-- The event `HostCmd(w)` (R32, R300): the instruction the word decodes to. Every command and the illegal word test
`BUSY` before anything else, so a word presented to a busy block is dropped whatever it decodes to (R317). -/
def presentWord (w : CmdWord) (s : State) : Result := exec (decodeCmd w) s

/-- The event `RxAnswer(Frame(f))`: the instruction that the frame's class is (R112, R118, R150). -/
def presentFrame (f : Frame) (s : State) : Result :=
  if f.wf then
    match classify s.cfg s.opr s.knode f with
    | none => .refused .rxNotEnabled
    | some i => exec i s
  else .refused .frameTooLong

/-- The event `HostWrite` (R31, R32, R44, R75): a write to `CMD` presents a command word. -/
def hostWrite (off width : Nat) (v : BitVec 128) (s : State) : Result :=
  match regAt off width with
  | none => .refused .hostAccessUndefined
  | some .cmd => presentWord (v.setWidth 64) s
  | some r => .next (writeReg r v s)

/-- The host hands over a buffer (log entry 10): an SP packet is the instruction `packet.SP`, other bytes are loaded the
same way; more bytes than `PKT` has cells name offsets outside the map (R31). -/
def presentBuffer (bs : List Byte) (s : State) : Result :=
  match decodePacket bs with
  | .instr i => exec i s
  | .reject _ => if bs.length ≤ pktCap then .next (loadBuffer bs s) else .refused .hostAccessUndefined

/-- What an event does to the state it meets (R10). -/
def stepEvent (e : Event) (s : State) : Result :=
  match e with
  | .hostCmd w => presentWord w s
  | .hostWrite off width v => hostWrite off width v s
  | .hostRead off width => hostRead off width s
  | .hostBuffer bs => presentBuffer bs s
  | .rxAnswer .empty => receiveEmpty s
  | .rxAnswer (.frame f) => presentFrame f s
  | .reset => .next (applyReset s)

/-- A state in which a `UFA` for the node of an addressed frame runs and that frame is the one event to come: what it takes
for the very next step to run the frame's instruction (log entry 12). -/
def awaitFrame (f : Frame) (s : State) : State :=
  { startReassembly .ufa { s with knode := f.byte 0 } with inbox := [.rxAnswer (.frame f)] }

/-- A state in which a command word is the one event to come. -/
def awaitWord (w : CmdWord) (s : State) : State := { s with inbox := [.hostCmd w] }

end Sys2Proof.Machine
end

