-- ==== Sys2Proof/Machine/Step.lean ====
section
/-! DEFINITION. One step: the block takes the oldest event and does what it asks (spec/00_scope.md R10, spec/20_memory.md
R82). With no event to take it waits (spec/70_reset_and_hazards.md R340). -/

namespace Sys2Proof.Machine

/-- One step of the block. -/
def step (s : State) : Host.Outcome State Fault Refusal :=
  match s.inbox with
  | [] => .next s
  | e :: rest => stepEvent e { s with inbox := rest }

/-- `s` with the instruction of an opcode-table row's bits standing where the next step takes it (log entry 12): a command
word as the host's next event; a frame as the next answer to a running `UFA` for its node. -/
def State.withFetchWord (s : State) (nbits w : Nat) : State :=
  if nbits = 64 then awaitWord (BitVec.ofNat 64 w) s else awaitFrame (frameOfWord (w % 2 ^ nbits)) s

end Sys2Proof.Machine
end

