-- ==== Sys2Proof/Safety.lean ====
section
/-! DEFINITION. What a sound state of the block is, in the terms the statements use: the invariants the spec states of its
registers (R33, R37, R50, R51, R110, R168, R172) with the constraints on the instance (R6) and the canonical forms of the
memories. -/

namespace Sys2Proof.Machine

/-- A value whose mantissa fits the 64-bit signed field `MANT` (R14 (f), R41). -/
def Value.fits (v : Value) : Prop := -(2 : Int) ^ 63 ≤ v.mant ∧ v.mant < (2 : Int) ^ 63

/-- The sentinel reassembly state (R50, R172): `RN = 0` in `S_IDLE` and `S_START`; in `S_DATA` it is a multiple of 8 from 8
to 264, and the bytes below it have been written. -/
def sentinelSound (s : State) : Prop :=
  (s.sph ≠ .data → s.rn = 0)
  ∧ (s.sph = .data → 8 ≤ s.rn ∧ s.rn ≤ rbCap ∧ s.rn % 8 = 0)
  ∧ ∀ i, i < s.rn → (cellAt s.rb i).isSome = true

/-- The addressed reassembly state (R51, R164 to R169): `ANEXT` is 1 to 6; while open, `AN` is `base(ANEXT)` and below the
declared total, which is at most 32; while closed, `ANEXT = 1` and `AN = 0`; the bytes below `AN` have been written. -/
def addressedSound (s : State) : Prop :=
  1 ≤ s.aNext ∧ s.aNext ≤ 6 ∧ s.aT ≤ abCap
  ∧ (s.aOpen = true → s.aN = chunkBase s.aNext ∧ s.aN < s.aT)
  ∧ (s.aOpen = false → s.aNext = 1 ∧ s.aN = 0)
  ∧ ∀ i, i < s.aN → (cellAt s.ab i).isSome = true

/-- The memories are in canonical form, so nothing is listed outside `PKT[0..264)`, `RB[0..264)`, `AB[0..32)` and
`OUT[0..512)` (R88). -/
def memoriesSound (s : State) : Prop :=
  Memory.wf pktCap s.pkt = true ∧ Memory.wf rbCap s.rb = true ∧ Memory.wf abCap s.ab = true
  ∧ OutMemory.wf s.out = true

/-- `BUSY` is 1 exactly while a `UFS` or `UFA` runs, never together with `DONE`, and a running one has budget (R33, R48,
R151). -/
def statusSound (s : State) : Prop :=
  (s.status.busy = true ↔ s.opr ≠ .none)
  ∧ ¬ (s.status.busy = true ∧ s.status.done = true)
  ∧ (s.status.busy = true → 1 ≤ s.bud)

/-- The buffer length and the window: `POFF + PN <= PLEN <= 264` (R34, R37), and `OUTN` at most 512 (R31). -/
def windowSound (s : State) : Prop :=
  s.poff + s.pn ≤ s.plen ∧ s.plen ≤ pktCap ∧ s.outn ≤ outCap

/-- The invariant of the block: what every step keeps, from every state that has it. -/
structure Sound (s : State) : Prop where
  instance_ok : s.cfg.wf = true
  status_ok : statusSound s
  window_ok : windowSound s
  sentinel_ok : sentinelSound s
  addressed_ok : addressedSound s
  memories_ok : memoriesSound s
  /-- every frame the block sends has 8 data bytes (R110) -/
  frames_ok : ∀ f, f ∈ s.tx → f.data.length = 8
  /-- the value in `RES` fits its record (R14 (f)) -/
  res_ok : s.res.fits

/-! ## The terms the statements are written in -/

/-- `s` after a command that was accepted ended with `c` and did nothing else: `CODE = c`, `DONE = 1`, `BUSY = 0`, `OVR` as
it was, `OPR = NONE` (R300, R301). -/
def ended (c : Code) (s : State) : State :=
  { s with status := { busy := false, done := true, ovr := s.status.ovr, code := c }, opr := .none }

/-- `s` after a receive attempt that did not complete: at `BUD = 0` the command ends with `TIMEOUT` (R151). -/
def timeoutAtZero (s : State) : State := if s.bud = 0 then ended .timeout s else s

/-- `k` steps, none as soon as one does not answer with a next state. -/
def steps : Nat → State → Option State
  | 0, s => some s
  | k + 1, s =>
    match step s with
    | .next t => steps k t
    | .fault _ => none
    | .refused _ => none

/-- The answers of a transport that delivers frames, as events. -/
def deliveries (fs : List Frame) : List Event := fs.map (fun f => .rxAnswer (.frame f))

/-- The instruction of an event that presents a command word (R32), none for every other event. -/
def commandOf : Event → Option Instr
  | .hostCmd w => some (decodeCmd w)
  | .hostWrite off width v => if regAt off width = some .cmd then some (decodeCmd (v.setWidth 64)) else none
  | .hostRead _ _ => none
  | .hostBuffer _ => none
  | .rxAnswer _ => none
  | .reset => none

/-- The events a busy block refuses and answers with `OVR` (R32, R44): a command word, a write of a buffer length that `PLEN`
takes, a write of a buffer byte. -/
def refusedWhileBusy (e : Event) : Prop :=
  commandOf e ≠ none
  ∨ (∃ v, e = .hostWrite 0x00C 32 v ∧ (v.setWidth 32).toNat ≤ pktCap)
  ∨ ∃ i v, i < pktCap ∧ e = .hostWrite (0x100 + i) 8 v

/-- The events that clear `OVR` (R33): a host write to `STATUS` of a word with bit 2 set, `SRST`, and reset. -/
def clearsOvr (e : Event) : Prop :=
  (∃ v, e = .hostWrite 0x008 32 v ∧ v.getLsbD 2 = true) ∨ commandOf e = some .srst ∨ e = .reset

/-- The bytes of the window a field read reads: offset and width (R79). -/
def fieldSpan : Instr → Option (Nat × Nat)
  | .gu8 off _ _ _ _ => some (off.toNat, 1)
  | .gu16 off _ _ _ _ _ => some (off.toNat, 2)
  | .gs16 off _ _ _ _ _ => some (off.toNat, 2)
  | .gu32 off _ _ _ _ => some (off.toNat, 4)
  | .gnh off _ _ _ _ => some (off.toNat, 1)
  | .gnl off _ _ _ _ => some (off.toNat, 1)
  | .gbcd off _ _ _ _ => some (off.toNat, 1)
  | .gbit off _ => some (off.toNat, 1)
  | .gcode off _ => some (off.toNat, 1)
  | .gts off => some (off.toNat, 6)
  | .nop | .srst | .frs | .fra _ | .ufs | .ufa _ | .depad | .bld _ | .val _ | .setw _ _ | .dvolt | .dcurr | .dpwr
  | .illegal _ | .frameSentinelStart | .frameSentinelData _ | .frameSentinelEnd | .frameSentinelOther _
  | .frameAddressedHeader _ _ | .frameAddressedChunk1 _ _ | .frameAddressedChunk2 _ _ | .frameAddressedChunk3 _ _
  | .frameAddressedChunk4 _ _ | .frameAddressedChunk5 _ _ | .frameAddressedChunk6 _ _ | .frameAddressedIgnored _
  | .packetSp _ _ => none

/-- The chunk instruction with marker `m` (R116); a header with total 33, which is ignored, where `m` is no chunk marker. -/
def chunkInstr (m : Nat) (node : Byte) (c : List Byte) : Instr :=
  match m with
  | 1 => .frameAddressedChunk1 node c
  | 2 => .frameAddressedChunk2 node c
  | 3 => .frameAddressedChunk3 node c
  | 4 => .frameAddressedChunk4 node c
  | 5 => .frameAddressedChunk5 node c
  | 6 => .frameAddressedChunk6 node c
  | _ => .frameAddressedHeader node 33

/-- The mantissa a present VoltageStatus cell word decodes to, none when one of its bytes is outside the window (R252). -/
def cellMant (s : State) (i : Nat) : Option Int :=
  match winByte s (3 + 2 * (i - 1)), winByte s (3 + 2 * (i - 1) + 1) with
  | some hi, some lo => some (if hi = 0xFF ∧ lo = 0xFF then 0 else ((hi.toNat * 256 + lo.toNat : Nat) : Int))
  | _, _ => none

/-- The marker of the chunk frame an addressed reassembly awaits: `ANEXT` while one of the target node is open, none while
none is (R166, R167). -/
def awaitedMarker (s : State) : Option Nat := if s.aOpen = true ∧ s.aNode = s.knode then some s.aNext else none

/-- A frame that a `UFA` with target `k` ignores while the reassembly awaits marker `next`: not 8 bytes, another node, a
marker above 6 (R163); a header with a total above 32 (R165); a chunk whose marker is not the awaited one, so a repeated or
early one too (R167). -/
def ignoredWhile (k : Byte) (next : Option Nat) (f : Frame) : Bool :=
  f.ignoredBy k
    || (decide (f.byte 7 = 0) && decide (32 < (f.byte 1).toNat))
    || (decide (1 ≤ (f.byte 7).toNat) && decide (next ≠ some (f.byte 7).toNat))

/-- The frames `received` are the frames `sent` in order, the last one last, with frames before or between them that the
reassembly ignores at the point where they arrive (R174): each sent frame makes the marker after its own the awaited one
(R164, R166). -/
def amongIgnored (k : Byte) (next : Option Nat) (sent : List Frame) (received : List Frame) : Bool :=
  match received with
  | [] => decide (sent = [])
  | g :: gs =>
    match sent with
    | [] => false
    | f :: fs =>
      (decide (g = f) && amongIgnored k (some ((f.byte 7).toNat + 1)) fs gs)
        || (ignoredWhile k next g && amongIgnored k next (f :: fs) gs)

/-- What `MANT`, `UNIT` and `EXP` hold under each tag (R42): zero beside `ABSENT` and `CORRUPT`, 0 or 1 under `BOOL`, a byte
under `RAWHEX`, a table index and a code id under `CODE`, six components under `TS`, a bit set under `FLAGS`; unit and
exponent are zero everywhere but under `NUM`. -/
def Value.shaped (v : Value) : Prop :=
  (v.tag ≠ .num → v.unit = .none ∧ v.exp = 0)
  ∧ match v.tag with
    | .absent | .corrupt => v.mant = 0
    | .num => v.fits
    | .bool => v.mant = 0 ∨ v.mant = 1
    | .rawhex => ∃ b : Byte, v.mant = b.toNat
    | .code => ∃ t id : Byte, v.mant = t.toNat * 256 + id.toNat
    | .ts => ∃ yy mo dd hh mi ss : Nat, yy ≤ 99 ∧ 1 ≤ mo ∧ mo ≤ 12 ∧ 1 ≤ dd ∧ dd ≤ 31 ∧ hh ≤ 23 ∧ mi ≤ 59 ∧ ss ≤ 59
        ∧ v.mant = (yy * 2 ^ 40 + mo * 2 ^ 32 + dd * 2 ^ 24 + hh * 2 ^ 16 + mi * 2 ^ 8 + ss : Nat)
    | .flags => 0 ≤ v.mant ∧ v.fits

/-- The numbers of the codes a command can end with, a received frame being an attempt of the `UFS` or `UFA` that runs
(R302); a handed-over packet ends no command. -/
def endNumbers : Instr → List Byte
  | .nop | .srst | .ufs | .ufa _ | .depad | .gu8 _ _ _ _ _ | .gu16 _ _ _ _ _ _ | .gs16 _ _ _ _ _ _ | .gu32 _ _ _ _ _
  | .gnh _ _ _ _ _ | .gnl _ _ _ _ _ | .gbcd _ _ _ _ _ | .gbit _ _ | .gcode _ _ | .gts _ | .dvolt | .dcurr | .dpwr =>
    [0x00]
  | .frs => [0x00, 0x20]
  | .fra _ | .bld _ => [0x00, 0x21]
  | .val _ => [0x00, 0x10, 0x11, 0x12, 0x13, 0x14, 0x15]
  | .setw _ _ => [0x00, 0x22]
  | .illegal _ => [0x3F]
  | .frameSentinelStart | .frameSentinelData _ | .frameSentinelEnd | .frameSentinelOther _ | .frameAddressedHeader _ _
  | .frameAddressedChunk1 _ _ | .frameAddressedChunk2 _ _ | .frameAddressedChunk3 _ _ | .frameAddressedChunk4 _ _
  | .frameAddressedChunk5 _ _ | .frameAddressedChunk6 _ _ | .frameAddressedIgnored _ => [0x00, 0x01]
  | .packetSp _ _ => []

end Sys2Proof.Machine
end

