-- ==== Sys2Proof/Certificates/Slice0/Obligations.lean ====
section
/-! DEFINITION. The statements for the provers. Each says, for every state it names, the WHOLE next state: what an
instruction leaves alone is said by the record update it is written as, so a register, a flag, a buffer byte or an entry of
OUT that is not in the update is unchanged. Where bytes are stored, the statement says what EVERY byte of the buffer reads
as afterwards. A statement about an instruction speaks of `exec`; `StepRunsDecodedInstruction` carries it to `step`. -/

open Sys2Proof Sys2Proof.Machine

/-! ## Encoding -/

/-- Words of spec/95_test_vectors.md 2.3, 2.7 and 3, written out, decode to the commands they stand for, and words of 2.7 to
the illegal word (R104, R105). -/
def Obligations.SpecWordsDecode : Prop :=
  decodeCmd 0x1801000000000000 = .bld 1
  ∧ decodeCmd 0x2000000000060007 = .setw 6 7
  ∧ decodeCmd 0x220301D100010000 = .gu16 3 .z 1 0 (-3) .v
  ∧ decodeCmd 0x210100030001FFD8 = .gu8 1 1 (-40) 0 .degc
  ∧ decodeCmd 0x2800020000000000 = .gbit 0 2
  ∧ decodeCmd 0x3000000000000000 = .dvolt
  ∧ decodeCmd 0x1000000000000001 = .illegal 0x1000000000000001
  ∧ decodeCmd 0x2200000700010000 = .illegal 0x2200000700010000

/-- For every instance, target node and well-formed instruction of the class its context admits, decoding the encoding gives
the instruction back: commands and the illegal word, received frames, the SP packet. -/
def Obligations.DecodeInvertsEncode : Prop :=
  ∀ (p : Params) (k : Byte) (i : Instr), p.wf = true → i.wf = true → i.inContext p k = true →
    decode p k (encode p i) = .instr i

/-- Every 64-bit word has one meaning: encoding what a word decodes to gives the word back (R105). -/
def Obligations.EncodeInvertsWordDecode : Prop :=
  ∀ (p : Params) (w : CmdWord), encode p (decodeCmd w) = .cmd w

/-- The words the decoder calls illegal are exactly those R124 lists: no such operation code, a non-zero unused bit,
`SENT = 3`, `SENT` outside `GU16` and `GS16`, `UNIT` from 7 to 15. -/
def Obligations.IllegalWordsAreThoseListed : Prop :=
  ∀ w : CmdWord, decodeCmd w = .illegal w ↔ wordIllegal w = true

/-- Bytes are an SP packet exactly when they are `EA D1 addr LEN body xor F5` with a body of at most 253 bytes,
`LEN = |body| + 2` and the XOR over length byte and body (R190, R191, R194). -/
def Obligations.PacketDecodesExactlyItsBytes : Prop :=
  ∀ (bs : List Byte) (i : Instr), decodePacket bs = .instr i ↔
    ∃ (a : Byte) (body : List Byte), body.length ≤ 253 ∧ i = .packetSp a body
      ∧ bs = [0xEA, 0xD1, a, BitVec.ofNat 8 (body.length + 2)] ++ body
          ++ [(BitVec.ofNat 8 (body.length + 2) :: body).foldl (· ^^^ ·) 0, 0xF5]

/-- A frame received by a running `UFS` is classified by its id alone, a data frame shows eight bytes with the missing ones
zero (R112). -/
def Obligations.SentinelFramesClassifiedById : Prop :=
  ∀ (p : Params) (f : Frame), p.wf = true →
    (f.id = p.rxSidStart → classifySentinel p f = .frameSentinelStart)
    ∧ (f.id = p.rxSidData → ∃ d, classifySentinel p f = .frameSentinelData d ∧ d.length = 8
        ∧ ∀ i, i < 8 → d.getD i 0 = if i < f.len then f.data.getD i 0 else 0)
    ∧ (f.id = p.rxSidEnd → classifySentinel p f = .frameSentinelEnd)
    ∧ (f.id ≠ p.rxSidStart → f.id ≠ p.rxSidData → f.id ≠ p.rxSidEnd → classifySentinel p f = .frameSentinelOther f.id)

/-- A frame received by a running `UFA` with target `k` is classified by length, byte 0 and byte 7, in that order; its id is
not examined (R118). -/
def Obligations.AddressedFramesClassified : Prop :=
  ∀ (k : Byte) (f : Frame),
    ((f.len ≠ 8 ∨ f.data.getD 0 0 ≠ k ∨ 6 < (f.data.getD 7 0).toNat) →
      classifyAddressed k f = .frameAddressedIgnored f)
    ∧ (f.len = 8 → f.data.getD 0 0 = k → f.data.getD 7 0 = 0 →
        classifyAddressed k f = .frameAddressedHeader k (f.data.getD 1 0))
    ∧ (∀ m, 1 ≤ m → m ≤ 6 → f.len = 8 → f.data.getD 0 0 = k → (f.data.getD 7 0).toNat = m →
        classifyAddressed k f = chunkInstr m k ((f.data.drop 1).take (chunkCap m)))

/-! ## The step, reset and the invariant -/

/-- A step runs the instruction its oldest event is: a command word by the command decoder (through either form of a write to
`CMD`), a received frame by the class the running command gives it. Two clauses are the model's choices and no rule of the
spec: the SP packet handed over by the host as one event, which R10 does not have (log entry 10), and waiting when there is
no event (log entry 3). -/
def Obligations.StepRunsDecodedInstruction : Prop :=
  ∀ (s : State) (rest : List Event),
    (∀ w, s.inbox = .hostCmd w :: rest → step s = exec (decodeCmd w) { s with inbox := rest })
    ∧ (∀ v, s.inbox = .hostWrite 0x000 64 v :: rest → step s = exec (decodeCmd (v.setWidth 64)) { s with inbox := rest })
    ∧ (∀ f, s.inbox = .rxAnswer (.frame f) :: rest → f.len ≤ 8 → s.opr = .ufs →
        step s = exec (classifySentinel s.cfg f) { s with inbox := rest })
    ∧ (∀ f, s.inbox = .rxAnswer (.frame f) :: rest → f.len ≤ 8 → s.opr = .ufa →
        step s = exec (classifyAddressed s.knode f) { s with inbox := rest })
    ∧ (∀ bs i, s.inbox = .hostBuffer bs :: rest → decodePacket bs = .instr i → step s = exec i { s with inbox := rest })
    ∧ (s.inbox = [] → step s = .next s)

/-- Every register and every piece of hidden state has the reset value of R55, every entry of `OUT` is all zero, `TX` is
empty. The contents of `PKT`, `RB` and `AB` are unspecified, so nothing is said of them. -/
def Obligations.ResetRegisterValues : Prop :=
  statusWord State.reset.status = 0 ∧ State.reset.plen = 0 ∧ State.reset.vaddr = 0 ∧ State.reset.vlen = 0
  ∧ State.reset.poff = 0 ∧ State.reset.pn = 0 ∧ State.reset.outn = 0 ∧ State.reset.bud = 0
  ∧ recordBits 0 0 State.reset.res = 0
  ∧ (∀ k, outAt State.reset.out k = ⟨0, 0, ⟨.absent, .none, 0, 0⟩⟩)
  ∧ State.reset.opr = .none ∧ State.reset.knode = 0 ∧ State.reset.sph = .idle
  ∧ State.reset.rn = 0 ∧ State.reset.aN = 0 ∧ State.reset.aT = 0
  ∧ State.reset.aOpen = false ∧ State.reset.aNode = 0 ∧ State.reset.aNext = 1
  ∧ State.reset.tx = []

/-- The invariant of the block holds after reset of every instance that meets the constraints, and of the instance of
`State.reset`. -/
def Obligations.ResetHasInvariant : Prop :=
  (∀ p : Params, p.wf = true → Sound (State.resetOf p)) ∧ Sound State.reset

/-- Every step keeps the invariant, from every state that has it: the constraints on the instance, `BUSY` exactly while a
reassembly runs and never with `DONE`, `POFF + PN <= PLEN <= 264` (R37), the sentinel phase table's `RN` (R172), the
addressed counters (R168), canonical memories inside their bounds (R88), 8-byte sent frames (R110), a mantissa that fits. The
parameters themselves are constants, which no step changes (R56). -/
def Obligations.StepKeepsInvariant : Prop :=
  ∀ s t : State, Sound s → step s = .next t → Sound t ∧ t.cfg = s.cfg

/-- The reset input gives the reset values whatever runs, without a completion code (R340, U13); the instance, the events to
come and the host's record of its reads are the model's own and stay (log entry 6). -/
def Obligations.ResetInputGivesResetState : Prop :=
  ∀ (s : State) (rest : List Event), s.inbox = .reset :: rest →
    step s = .next { State.resetOf s.cfg with inbox := rest, reads := s.reads, resets := s.resets + 1 }

/-! ## The command cycle -/

/-- While idle a word written to `CMD` is decoded and run; while busy it is dropped, `OVR` is set and nothing else changes,
whatever the word is (R32). -/
def Obligations.WordWhileBusyIsDropped : Prop :=
  ∀ (s : State) (w : CmdWord) (rest : List Event),
    (s.inbox = .hostCmd w :: rest ∨ s.inbox = .hostWrite 0x000 64 (w.setWidth 128) :: rest) →
    (s.status.busy = false → step s = exec (decodeCmd w) { s with inbox := rest })
    ∧ (s.status.busy = true → step s = .next { s with inbox := rest, status := { s.status with ovr := true } })

/-- `NOP` and `SRST`: their words, and the whole effect on an idle block. `NOP` ends with `OK` (R290); `SRST` puts both
reassembly machines, the window, `RES`, `OUTN`, `BUD` and `OVR` at their reset values and ends with `OK` (R291, R341). A
busy block refuses both, as it does every word. -/
def Obligations.NopAndSrst : Prop :=
  (∀ p, encode p .nop = .cmd 0x0000000000000000 ∧ encode p .srst = .cmd 0x0100000000000000)
  ∧ (∀ s : State, s.status.busy = false →
    exec .nop s = .next (ended .ok s)
    ∧ exec .srst s = .next { s with
      sph := .idle, rn := 0
      aOpen := false, aNode := 0, aNext := 1, aT := 0, aN := 0
      poff := 0, pn := 0, vaddr := 0, vlen := 0
      res := ⟨.absent, .none, 0, 0⟩, outn := 0, bud := 0
      status := { busy := false, done := true, ovr := false, code := .ok }, opr := .none })
  ∧ ∀ (s : State) (w : CmdWord) (rest : List Event), s.status.busy = true →
    (w = 0x0000000000000000 ∨ w = 0x0100000000000000) → s.inbox = .hostCmd w :: rest →
    step s = .next { s with inbox := rest, status := { s.status with ovr := true } }

/-- An illegal word presented to an idle block ends at once with `ILLEGAL_CMD`, 0x3F, and changes nothing but `DONE` and `CODE`
(R292, R313); `OPR`, which is `NONE` in every idle state that is sound, ends as `NONE`. Presented to a busy block it is
dropped with `OVR` set. -/
def Obligations.IllegalWordEndsIllegal : Prop :=
  codeNumber .illegalCmd = 0x3F
  ∧ ∀ (s : State) (w : CmdWord),
    (s.status.busy = false → exec (.illegal w) s
      = .next { s with status := { s.status with done := true, code := .illegalCmd }, opr := .none })
    ∧ ∀ rest, wordIllegal w = true → s.inbox = .hostCmd w :: rest →
      (s.status.busy = false → step s = .next { s with
        inbox := rest, status := { s.status with done := true, code := .illegalCmd }, opr := .none })
      ∧ (s.status.busy = true → step s = .next { s with
        inbox := rest, status := { s.status with ovr := true } })

/-- The layouts and numbers the host reads. `STATUS` (R33): bit 0 `BUSY`, bit 1 `DONE`, bit 2 `OVR`, bits 15:8 the code's
number, all others zero. The numbers of the completion codes (R302). A value record (R41): `KEY`, `IDX`, `TAG`, `UNIT`, `EXP`,
36 zero bits, `MANT`; the tag codes (R42) and the unit codes (R43). What a field read leaves in `RES` and a decode program in
`OUT` holds, under its tag, what the table of R42 says. -/
def Obligations.StatusAndValueLayouts : Prop :=
  (∀ st : Status,
    (statusWord st).getLsbD 0 = st.busy ∧ (statusWord st).getLsbD 1 = st.done ∧ (statusWord st).getLsbD 2 = st.ovr
    ∧ (statusWord st).extractLsb' 3 5 = 0
    ∧ (statusWord st).extractLsb' 8 8 = codeNumber st.code
    ∧ (statusWord st).extractLsb' 16 16 = 0)
  ∧ ([.ok, .timeout, .badStart, .badProduct, .badAddr, .badLength, .badChecksum, .badTerm, .emptyBuffer, .tooLong,
      .badWindow, .illegalCmd] : List Code).map codeNumber
    = [0x00, 0x01, 0x10, 0x11, 0x12, 0x13, 0x14, 0x15, 0x20, 0x21, 0x22, 0x3F]
  ∧ (∀ (key idx : Byte) (v : Value),
    (recordBits key idx v).extractLsb' 120 8 = key
    ∧ (recordBits key idx v).extractLsb' 112 8 = idx
    ∧ (recordBits key idx v).extractLsb' 108 4 = tagCode v.tag
    ∧ (recordBits key idx v).extractLsb' 104 4 = codeOfUnit v.unit
    ∧ (recordBits key idx v).extractLsb' 100 4 = v.exp
    ∧ (recordBits key idx v).extractLsb' 64 36 = 0
    ∧ (recordBits key idx v).extractLsb' 0 64 = BitVec.ofInt 64 v.mant)
  ∧ ([.absent, .num, .bool, .corrupt, .rawhex, .code, .ts, .flags] : List Tag).map tagCode = [0, 1, 2, 3, 4, 5, 6, 7]
  ∧ ([.none, .v, .a, .degc, .pct, .ohm, .min] : List UnitCode).map codeOfUnit = [0, 1, 2, 3, 4, 5, 6]
  ∧ ∀ (i : Instr) (s t : State), s.cfg.wf = true → s.status.busy = false → exec i s = .next t →
    (fieldSpan i ≠ none → t.res.shaped)
    ∧ ((i = .dvolt ∨ i = .dcurr ∨ i = .dpwr) → ∀ k, k < t.outn → (outAt t.out k).val.shaped)

/-- A command ends only with a code R302 lists for it: after every instruction either the command cycle is where it was
(`BUSY`, `DONE` and `CODE` unchanged) or `CODE` holds one of the numbers listed for the instruction. For `UFS` and `UFA` the
instruction is their start, which clears `CODE`; their ends are the received frames'. The bits of `STATUS` follow the events as
R33 says: `BUSY` is 1 while a `UFS` or `UFA` runs, never together with `DONE`; `DONE` is 1 from the end of a command until the
next accepted word or reset; `OVR` is set by what a busy block refuses, and once set is cleared only by a write to `STATUS`,
`SRST` or reset. The events are those of R10; the buffer hand-over, the model's own (log entry 10), is `PacketHandOver`. -/
def Obligations.StatusFollowsCommandCycle : Prop :=
  (([.ok, .timeout, .badStart, .badProduct, .badAddr, .badLength, .badChecksum, .badTerm, .emptyBuffer, .tooLong,
      .badWindow, .illegalCmd] : List Code).map codeNumber
    = [0x00, 0x01, 0x10, 0x11, 0x12, 0x13, 0x14, 0x15, 0x20, 0x21, 0x22, 0x3F]
  ∧ ∀ (i : Instr) (s t : State), exec i s = .next t →
    (t.status.busy = s.status.busy ∧ t.status.done = s.status.done ∧ t.status.code = s.status.code)
    ∨ codeNumber t.status.code ∈ endNumbers i)
  ∧ ∀ (s t : State) (e : Event) (rest : List Event), Sound s → s.inbox = e :: rest → (∀ bs, e ≠ .hostBuffer bs) →
    step s = .next t →
    ((t.status.busy = true ↔ t.opr ≠ .none) ∧ ¬ (t.status.busy = true ∧ t.status.done = true))
    ∧ (s.status.busy = true → t.status.busy = false → t.status.done = true ∨ e = .reset)
    ∧ (s.status.busy = false → commandOf e ≠ none → t.status.done = true ∨ t.status.busy = true)
    ∧ (s.status.done = false → t.status.done = true → s.status.busy = true ∨ commandOf e ≠ none)
    ∧ (s.status.done = true → t.status.done = false → commandOf e ≠ none ∨ e = .reset)
    ∧ (s.status.busy = true → refusedWhileBusy e → t.status.ovr = true)
    ∧ (s.status.ovr = false → t.status.ovr = true →
        s.status.busy = true ∧ (commandOf e ≠ none ∨ ∃ off width v, e = .hostWrite off width v))
    ∧ (s.status.ovr = true → t.status.ovr = false → clearsOvr e)
    ∧ (s.status.busy = false → clearsOvr e → t.status.ovr = false)

/-! ## The framer commands -/

/-- `FRS`: an empty buffer is refused with `EMPTY_BUFFER`; otherwise a zero frame on the start id, one data frame per 8 bytes,
zero-padded, and a zero frame on the end id are appended to `TX`, and nothing else changes (R140, R141, R310). -/
def Obligations.FrsSendsSentinelFrames : Prop :=
  (∀ p, encode p .frs = .cmd 0x1000000000000000)
  ∧ ∀ s : State, s.status.busy = false →
    (s.plen = 0 → exec .frs s = .next (ended .emptyBuffer s))
    ∧ (s.plen ≠ 0 → exec .frs s = .next { ended .ok s with
        tx := s.tx ++ [⟨s.cfg.txSidStart, [0, 0, 0, 0, 0, 0, 0, 0]⟩]
          ++ (List.range ((s.plen + 7) / 8)).map (fun j =>
              ⟨s.cfg.txSidData, (List.range 8).map (fun k => if 8 * j + k < s.plen then pktByte s (8 * j + k) else 0)⟩)
          ++ [⟨s.cfg.txSidEnd, [0, 0, 0, 0, 0, 0, 0, 0]⟩] })

/-- `FRA K`: above 32 bytes `TOO_LONG` and nothing sent; otherwise the header frame with the total and one chunk frame for
every marker whose base is below it, each with its node, its bytes, zero fill and its marker (R145), by the marker table
(R116). -/
def Obligations.FraSendsAddressedFrames : Prop :=
  (∀ p k, encode p (.fra k) = .cmd (0x11#8 ++ k ++ 0#48))
  ∧ ([1, 2, 3, 4, 5, 6] : List Nat).map (fun m => (chunkCap m, chunkBase m))
      = [(5, 0), (6, 5), (6, 11), (6, 17), (6, 23), (3, 29)]
  ∧ ∀ (s : State) (k : Byte), s.status.busy = false →
    (32 < s.plen → exec (.fra k) s = .next (ended .tooLong s))
    ∧ (s.plen ≤ 32 → exec (.fra k) s = .next { ended .ok s with
        tx := s.tx ++ ⟨s.cfg.txAid, [k, BitVec.ofNat 8 s.plen, 0, 0, 0, 0, 0, 0]⟩
          :: (([1, 2, 3, 4, 5, 6] : List Nat).filter (fun m => decide (chunkBase m < s.plen))).map (fun m =>
              ⟨s.cfg.txAid, [k] ++ (List.range 6).map (fun i =>
                  if i < chunkCap m ∧ chunkBase m + i < s.plen then pktByte s (chunkBase m + i) else 0)
                ++ [BitVec.ofNat 8 m]⟩) })

/-- Accepting `UFS` or `UFA K` sets `OPR` (and `KNODE`), `BUSY`, clears `DONE` and `CODE`, loads the budget, and touches
nothing else; answers of the transport are enabled exactly while one of the two runs (R150). -/
def Obligations.ReassemblyStart : Prop :=
  (∀ p, encode p .ufs = .cmd 0x1200000000000000)
  ∧ (∀ p k, encode p (.ufa k) = .cmd (0x13#8 ++ k ++ 0#48))
  ∧ (∀ s : State, s.status.busy = false →
    exec .ufs s = .next { s with
      opr := .ufs, bud := s.cfg.rxBudget
      status := { busy := true, done := false, ovr := s.status.ovr, code := .ok } }
    ∧ ∀ k, exec (.ufa k) s = .next { s with
      opr := .ufa, knode := k, bud := s.cfg.rxBudget
      status := { busy := true, done := false, ovr := s.status.ovr, code := .ok } })
  ∧ ∀ (s : State) (a : Answer) (rest : List Event), s.inbox = .rxAnswer a :: rest → (∀ f, a = .frame f → f.len ≤ 8) →
    ((∃ t, step s = .next t) ↔ s.opr ≠ .none)

/-- `DEPAD`: shortens `PLEN` to the total the packet's length byte declares, exactly when 1 to 7 bytes follow it and all are
zero, and then clears the window; in every other case nothing changes; always `OK` (R175). -/
def Obligations.DepadDropsOnlyPadding : Prop :=
  (∀ p, encode p .depad = .cmd 0x1400000000000000)
  ∧ ∀ s : State, s.status.busy = false →
    ((4 ≤ s.plen ∧ (pktByte s 3).toNat + 4 < s.plen ∧ s.plen - ((pktByte s 3).toNat + 4) ≤ 7
        ∧ ∀ i, (pktByte s 3).toNat + 4 ≤ i → i < s.plen → pktByte s i = 0) →
      exec .depad s = .next { ended .ok s with
        plen := (pktByte s 3).toNat + 4, poff := 0, pn := 0, vaddr := 0, vlen := 0 })
    ∧ (¬ (4 ≤ s.plen ∧ (pktByte s 3).toNat + 4 < s.plen ∧ s.plen - ((pktByte s 3).toNat + 4) ≤ 7
        ∧ ∀ i, (pktByte s 3).toNat + 4 ≤ i → i < s.plen → pktByte s i = 0) →
      exec .depad s = .next (ended .ok s))

/-! ## Received frames, sentinel mode -/

/-- A start frame, in any phase, drops what was accumulated and begins a new buffer (R154); a frame on an id that is none of
the three abandons the open sequence, in any phase (R160). -/
def Obligations.StartFrameRestartsOtherAbandons : Prop :=
  ∀ s : State, s.opr = .ufs →
    exec .frameSentinelStart s = .next (timeoutAtZero { s with bud := s.bud - 1, rn := 0, sph := .start })
    ∧ ∀ id, exec (.frameSentinelOther id) s = .next (timeoutAtZero { s with bud := s.bud - 1, rn := 0, sph := .idle })

/-- A data frame: dropped while idle (R157); accumulated in `RB[RN .. RN+8)` while there is room (R155); without room the
sequence is abandoned and no byte is written (R156). -/
def Obligations.DataFrameAccumulates : Prop :=
  ∀ (s : State) (d : List Byte), s.opr = .ufs → d.length = 8 →
    (s.sph = .idle → exec (.frameSentinelData d) s = .next (timeoutAtZero { s with bud := s.bud - 1 }))
    ∧ (s.sph ≠ .idle → s.rn + 8 ≤ 264 → ∃ t rb',
        exec (.frameSentinelData d) s = .next t
        ∧ t = timeoutAtZero { s with bud := s.bud - 1, rb := rb', rn := s.rn + 8, sph := .data }
        ∧ ∀ i, rbByte t i = if s.rn ≤ i ∧ i < s.rn + 8 then d.getD (i - s.rn) 0 else rbByte s i)
    ∧ (s.sph ≠ .idle → 264 < s.rn + 8 →
        exec (.frameSentinelData d) s = .next (timeoutAtZero { s with bud := s.bud - 1, rn := 0, sph := .idle }))

/-- An end frame in `S_DATA` completes: `PKT[0..RN) <- RB[0..RN)`, `PLEN <- RN`, the window cleared, the machine idle, `OK`
even on the attempt that takes `BUD` to 0 (R158, R171); in any other phase it completes nothing (R159). -/
def Obligations.EndFrameCompletes : Prop :=
  ∀ s : State, s.opr = .ufs →
    (s.sph = .data → ∃ t pkt',
        exec .frameSentinelEnd s = .next t
        ∧ t = { ended .ok s with
            bud := s.bud - 1, pkt := pkt', plen := s.rn, poff := 0, pn := 0, vaddr := 0, vlen := 0, rn := 0, sph := .idle }
        ∧ ∀ i, pktByte t i = if i < s.rn then rbByte s i else pktByte s i)
    ∧ (s.sph ≠ .data →
        exec .frameSentinelEnd s = .next (timeoutAtZero { s with bud := s.bud - 1, rn := 0, sph := .idle }))

/-- An `Empty` answer changes no reassembly state, in either mode: it costs one unit of budget (R161). -/
def Obligations.EmptyAnswerOnlyCostsBudget : Prop :=
  ∀ (s : State) (rest : List Event), s.inbox = .rxAnswer .empty :: rest → s.opr ≠ .none →
    step s = .next (timeoutAtZero { s with inbox := rest, bud := s.bud - 1 })

/-! ## Received frames, addressed mode -/

/-- A header frame of the target node: total 1 to 32 begins a new reassembly (R164); total 0 completes at once with an empty
buffer; a total above 32 is ignored (R165). One for another node is ignored (R163). -/
def Obligations.HeaderFrameOpens : Prop :=
  ∀ (s : State) (node total : Byte), s.opr = .ufa →
    (node = s.knode → 1 ≤ total.toNat → total.toNat ≤ 32 →
      exec (.frameAddressedHeader node total) s = .next (timeoutAtZero { s with
        bud := s.bud - 1, aOpen := true, aNode := s.knode, aT := total.toNat, aN := 0, aNext := 1 }))
    ∧ (node = s.knode → total = 0 →
      exec (.frameAddressedHeader node total) s = .next { ended .ok s with
        bud := s.bud - 1, aOpen := false, aT := 0, aN := 0, aNext := 1, plen := 0
        poff := 0, pn := 0, vaddr := 0, vlen := 0 })
    ∧ (node = s.knode → 32 < total.toNat →
      exec (.frameAddressedHeader node total) s = .next (timeoutAtZero { s with bud := s.bud - 1 }))
    ∧ (node ≠ s.knode →
      exec (.frameAddressedHeader node total) s = .next (timeoutAtZero { s with bud := s.bud - 1 }))

/-- What a running `UFA` ignores: it costs its unit of budget and nothing else changes. A chunk frame with marker `m` that is
not the open reassembly's next one (R167); a frame that is not 8 bytes long, or is for another node, or has a marker above 6
(R163). -/
def Obligations.UnexpectedFramesIgnored : Prop :=
  ∀ s : State, s.opr = .ufa →
    (∀ (m : Nat) (node : Byte) (c : List Byte), 1 ≤ m → m ≤ 6 →
      ¬ (node = s.knode ∧ s.aOpen = true ∧ s.aNode = s.knode ∧ m = s.aNext) →
      exec (chunkInstr m node c) s = .next (timeoutAtZero { s with bud := s.bud - 1 }))
    ∧ ∀ f : Frame, f.len ≤ 8 → (f.len ≠ 8 ∨ f.data.getD 0 0 ≠ s.knode ∨ 6 < (f.data.getD 7 0).toNat) →
      exec (.frameAddressedIgnored f) s = .next (timeoutAtZero { s with bud := s.bud - 1 })
      ∧ ∀ rest, s.inbox = .rxAnswer (.frame f) :: rest →
          step s = .next (timeoutAtZero { s with inbox := rest, bud := s.bud - 1 })

/-- The expected chunk frame is stored at its base (R166); while the total is not reached the next marker is awaited; when it
is reached the buffer is delivered, the window cleared, and the command ends with `OK` (R169). -/
def Obligations.ExpectedChunkStoredOrCompletes : Prop :=
  ∀ (s : State) (m : Nat) (c : List Byte), s.opr = .ufa → 1 ≤ m → m ≤ 6 → c.length = chunkCap m →
    s.aOpen = true → s.aNode = s.knode → s.aNext = m →
    (chunkBase m + chunkCap m < s.aT → ∃ t ab',
        exec (chunkInstr m s.knode c) s = .next t
        ∧ t = timeoutAtZero { s with
            bud := s.bud - 1, ab := ab', aN := chunkBase m + chunkCap m, aNext := if m < 6 then m + 1 else s.aNext }
        ∧ ∀ i, abByte t i = if chunkBase m ≤ i ∧ i < chunkBase m + chunkCap m then c.getD (i - chunkBase m) 0
            else abByte s i)
    ∧ (s.aT ≤ chunkBase m + chunkCap m → ∃ t ab' pkt',
        exec (chunkInstr m s.knode c) s = .next t
        ∧ t = { ended .ok s with
            bud := s.bud - 1, ab := ab', pkt := pkt', plen := s.aT, poff := 0, pn := 0, vaddr := 0, vlen := 0
            aOpen := false, aNext := 1, aN := 0 }
        ∧ (∀ i, abByte t i = if chunkBase m ≤ i ∧ i < chunkBase m + chunkCap m then c.getD (i - chunkBase m) 0
            else abByte s i)
        ∧ ∀ i, pktByte t i = if i < s.aT then abByte t i else pktByte s i)

/-! ## The retry logic -/

/-- Every receive attempt of a running command costs exactly one unit of budget and either leaves it running with budget
left, or ends it with `OK`, or, only with the budget at 0, ends it with `TIMEOUT` and `PKT`, `PLEN` and the window as they
were (R151, R171, R303). -/
def Obligations.AttemptCostsOneUnit : Prop :=
  ∀ (s : State) (a : Answer) (rest : List Event), s.inbox = .rxAnswer a :: rest → s.opr ≠ .none → 1 ≤ s.bud →
    (∀ f, a = .frame f → f.len ≤ 8) →
    ∃ t, step s = .next t ∧ t.bud = s.bud - 1
      ∧ ((t.opr = s.opr ∧ t.status = s.status ∧ 1 ≤ t.bud)
        ∨ (t.opr = .none ∧ t.status = { busy := false, done := true, ovr := s.status.ovr, code := .ok })
        ∨ (t.opr = .none ∧ t.status = { busy := false, done := true, ovr := s.status.ovr, code := .timeout }
            ∧ t.bud = 0 ∧ t.plen = s.plen ∧ t.poff = s.poff ∧ t.pn = s.pn ∧ t.vaddr = s.vaddr ∧ t.vlen = s.vlen
            ∧ ∀ i, pktByte t i = pktByte s i))

/-- A running reassembly ends after at most as many attempts as it has budget, whatever the transport answers (R151, R355). -/
def Obligations.ReassemblyEndsWithinBudget : Prop :=
  ∀ (s : State) (as : List Answer) (rest : List Event), s.opr ≠ .none → 1 ≤ s.bud → as.length = s.bud →
    (∀ f, .frame f ∈ as → f.len ≤ 8) → s.inbox = as.map .rxAnswer ++ rest →
    ∃ n t, n ≤ s.bud ∧ steps n s = some t ∧ t.opr = .none ∧ t.status.busy = false ∧ t.status.done = true
      ∧ (t.status.code = .ok ∨ t.status.code = .timeout)

/-- Where the model defines no step, by its own names. `RxAnswer` is no event of a block that runs neither `UFS` nor `UFA`
(R10, R150; log entry 4). A host access outside the map or at another width, and a read of `CMD`, are refused (R31, R75, U1;
log entry 8). -/
def Obligations.UndefinedEventsRefused : Prop :=
  (∀ (s : State) (rest : List Event), s.opr = .none →
    (s.inbox = .rxAnswer .empty :: rest → step s = .refused .rxNotEnabled)
    ∧ ∀ f, f.len ≤ 8 → s.inbox = .rxAnswer (.frame f) :: rest → step s = .refused .rxNotEnabled)
  ∧ (∀ (s : State) (off width : Nat) (v : BitVec 128) (rest : List Event), ¬ (width = 64 ∧ off = 0x000) →
    ¬ (width = 32 ∧ off ∈ [0x008, 0x00C, 0x010, 0x014, 0x018, 0x01C, 0x030, 0x034]) →
    ¬ (width = 128 ∧ off = 0x020) → ¬ (width = 8 ∧ 0x100 ≤ off ∧ off ≤ 0x207) →
    ¬ (width = 128 ∧ ∃ k, k < 512 ∧ off = 0x2000 + 16 * k) →
    (s.inbox = .hostRead off width :: rest → step s = .refused .hostAccessUndefined)
    ∧ (s.inbox = .hostWrite off width v :: rest → step s = .refused .hostAccessUndefined))
  ∧ ∀ (s : State) (rest : List Event), s.inbox = .hostRead 0x000 64 :: rest → step s = .refused .readOfWriteOnly

/-- The reassembly state changes only by received frames, by `SRST` and by reset: no other event touches it (R53). -/
def Obligations.ReassemblyStatePersists : Prop :=
  ∀ (s t : State) (e : Event) (rest : List Event), s.inbox = e :: rest → step s = .next t →
    e ≠ .reset → (∀ f, e ≠ .rxAnswer (.frame f)) → commandOf e ≠ some .srst →
    t.sph = s.sph ∧ t.rb = s.rb ∧ t.rn = s.rn ∧ t.aOpen = s.aOpen ∧ t.aNode = s.aNode ∧ t.aNext = s.aNext
    ∧ t.aT = s.aT ∧ t.aN = s.aN ∧ t.ab = s.ab

/-- Only `FRS` and `FRA` send: every other instruction leaves `TX` as it was, and those two only append (R70, R76). -/
def Obligations.OnlyFramingCommandsSend : Prop :=
  ∀ (i : Instr) (s t : State), exec i s = .next t →
    (i = .frs ∨ ∃ k, i = .fra k) ∧ (∃ fs, t.tx = s.tx ++ fs) ∨ t.tx = s.tx

/-- The round trip of sentinel mode (R173): the frames `FRS` sends for a buffer, given in order as answers to a running `UFS`
of an instance whose receive ids are the send ids, in any phase, with budget for them, come back as the buffer zero-padded to
a multiple of 8, with `OK`; if the buffer is an SP packet, a `DEPAD` then gives its length. -/
def Obligations.SentinelRoundTrip : Prop :=
  ∀ (s s1 r : State) (fs : List Frame) (rest : List Event),
    s.cfg.wf = true → r.cfg = s.cfg →
    s.cfg.txSidStart = s.cfg.rxSidStart → s.cfg.txSidData = s.cfg.rxSidData → s.cfg.txSidEnd = s.cfg.rxSidEnd →
    s.status.busy = false → 1 ≤ s.plen → s.plen ≤ 264 →
    exec .frs s = .next s1 → s1.tx = s.tx ++ fs →
    r.opr = .ufs → (s.plen + 7) / 8 + 2 ≤ r.bud → r.inbox = deliveries fs ++ rest →
    ∃ t, steps fs.length r = some t ∧ t.inbox = rest ∧ t.opr = .none
      ∧ t.status.done = true ∧ t.status.code = .ok ∧ t.plen = 8 * ((s.plen + 7) / 8)
      ∧ (∀ i, i < s.plen → pktByte t i = pktByte s i)
      ∧ (∀ i, s.plen ≤ i → i < t.plen → pktByte t i = 0)
      ∧ ∀ a body, body.length ≤ 253 → pktBytes s 0 s.plen = packetBytes a body →
          ∃ u, exec .depad t = .next u ∧ u.status.code = .ok ∧ u.plen = s.plen

/-- The round trip of addressed mode (R174): the frames `FRA K` sends for a buffer, given in order as answers to a running
`UFA K`, with frames before or between them that the reassembly ignores where they arrive (R163, R165, R167) and that the
budget also covers, come back as the buffer, with `OK`. -/
def Obligations.AddressedRoundTrip : Prop :=
  ∀ (s s1 r : State) (k : Byte) (fs as : List Frame) (rest : List Event),
    s.status.busy = false → s.plen ≤ 32 → exec (.fra k) s = .next s1 → s1.tx = s.tx ++ fs →
    r.opr = .ufa → r.knode = k → as.length ≤ r.bud →
    amongIgnored k (awaitedMarker r) fs as = true → (∀ f, f ∈ as → f.len ≤ 8) →
    r.inbox = deliveries as ++ rest →
    ∃ t, steps as.length r = some t ∧ t.inbox = rest ∧ t.opr = .none
      ∧ t.status.done = true ∧ t.status.code = .ok ∧ t.plen = s.plen
      ∧ ∀ i, i < s.plen → pktByte t i = pktByte s i

/-! ## The codec -/

/-- `BLD a`: a body of at most 253 bytes becomes `EA D1 a LEN body xor F5` in place, `PLEN` grows by 6, the window is cleared;
a longer body is `TOO_LONG` and nothing changes (R192). -/
def Obligations.BldBuildsPacketInPlace : Prop :=
  (∀ p a, encode p (.bld a) = .cmd (0x18#8 ++ a ++ 0#48))
  ∧ ∀ (s : State) (a : Byte), s.status.busy = false →
    (253 < s.plen → exec (.bld a) s = .next (ended .tooLong s))
    ∧ (s.plen ≤ 253 → ∃ t pkt',
        exec (.bld a) s = .next t
        ∧ t = { ended .ok s with pkt := pkt', plen := s.plen + 6, poff := 0, pn := 0, vaddr := 0, vlen := 0 }
        ∧ ∀ i, pktByte t i =
            if i = 0 then 0xEA else if i = 1 then 0xD1 else if i = 2 then a
            else if i = 3 then BitVec.ofNat 8 (s.plen + 2)
            else if i < 4 + s.plen then pktByte s (i - 4)
            else if i = 4 + s.plen then xor8 (BitVec.ofNat 8 (s.plen + 2) :: pktBytes s 0 s.plen)
            else if i = 5 + s.plen then 0xF5
            else pktByte s i)

/-- `VAL e`: the six checks in their order, a missing byte failing the check that needs it; the first that fails gives the
code and the window is cleared (R195, R196, R197, R200); a packet that passes sets `VADDR`, `VLEN` and the window on its
payload (R199). -/
def Obligations.ValChecksInOrder : Prop :=
  (∀ p e, encode p (.val e) = .cmd (0x19#8 ++ e ++ 0#48))
  ∧ ∀ (s : State) (e : Byte), s.status.busy = false →
    exec (.val e) s = .next (
      let fail := fun c => { ended c s with poff := 0, pn := 0, vaddr := 0, vlen := 0 }
      let len := (pktByte s 3).toNat
      if s.plen < 1 ∨ pktByte s 0 ≠ 0xEA then fail .badStart
      else if s.plen < 2 ∨ pktByte s 1 ≠ 0xD1 then fail .badProduct
      else if s.plen < 3 ∨ pktByte s 2 ≠ e then fail .badAddr
      else if s.plen < 4 ∨ len < 2 ∨ len + 4 ≠ s.plen then fail .badLength
      else if pktByte s (s.plen - 2) ≠ xor8 (pktBytes s 3 (s.plen - 5)) then fail .badChecksum
      else if pktByte s (s.plen - 1) ≠ 0xF5 then fail .badTerm
      else { ended .ok s with
        vaddr := pktByte s 2, vlen := pktByte s 3, poff := 4 + min 2 (len - 2), pn := (len - 2) - min 2 (len - 2) })

/-- Checksum idempotence (R201): for every address and every body of at most 253 bytes, `BLD a` then `VAL a` ends with `OK`,
and `VAL a'` with another address ends with `BAD_ADDR`. -/
def Obligations.BuiltPacketValidates : Prop :=
  ∀ (s : State) (a a' : Byte), s.status.busy = false → s.plen ≤ 253 →
    ∃ t, exec (.bld a) s = .next t
      ∧ (∃ u, exec (.val a) t = .next u ∧ u.status.code = .ok ∧ u.vaddr = a ∧ u.vlen.toNat = s.plen + 2)
      ∧ (a' ≠ a → ∃ u, exec (.val a') t = .next u ∧ u.status.code = .badAddr)

/-- A change of any single byte of a packet `VAL e` accepts makes `VAL e` fail, with the code of the check of that byte
(R203). -/
def Obligations.SingleByteChangeDetected : Prop :=
  ∀ (s s' t : State) (e : Byte) (i : Nat), s.status.busy = false → exec (.val e) s = .next t → t.status.code = .ok →
    s' = { s with pkt := s'.pkt } → i < s.plen → pktByte s' i ≠ pktByte s i →
    (∀ j, j ≠ i → pktByte s' j = pktByte s j) →
    ∃ u, exec (.val e) s' = .next u
      ∧ u.status.code = (if i = 0 then .badStart else if i = 1 then .badProduct else if i = 2 then .badAddr
          else if i = 3 then .badLength else if i = s.plen - 1 then .badTerm else .badChecksum)

/-- The host hands over an SP packet (log entry 10): its bytes to `PKT[0..n)`, its length to `PLEN`, the window cleared; while
busy every write is dropped and `OVR` is set. The hand-over as one event is the model's choice; what its writes do is R34,
R35, R44. -/
def Obligations.PacketHandOver : Prop :=
  ∀ (s : State) (a : Byte) (body : List Byte), body.length ≤ 253 →
    (s.status.busy = false → ∃ t pkt',
        exec (.packetSp a body) s = .next t
        ∧ t = { s with pkt := pkt', plen := body.length + 6, poff := 0, pn := 0, vaddr := 0, vlen := 0 }
        ∧ ∀ i, pktByte t i = if i < body.length + 6 then (packetBytes a body).getD i 0 else pktByte s i)
    ∧ (s.status.busy = true →
        exec (.packetSp a body) s = .next { s with status := { s.status with ovr := true } })

/-! ## The field reads -/

/-- `SETW`: a range inside `PKT[0..PLEN)` becomes the window, `VADDR` and `VLEN` are 0; any other range is `BAD_WINDOW` and
changes nothing (R212, R312); the sum does not wrap. -/
def Obligations.SetwSetsWindow : Prop :=
  (∀ p off len, encode p (.setw off len) = .cmd (0x20#8 ++ 0#24 ++ off ++ len))
  ∧ ∀ (s : State) (off len : BitVec 16), s.status.busy = false →
    (s.plen < off.toNat + len.toNat → exec (.setw off len) s = .next (ended .badWindow s))
    ∧ (off.toNat + len.toNat ≤ s.plen →
      exec (.setw off len) s = .next { ended .ok s with poff := off.toNat, pn := len.toNat, vaddr := 0, vlen := 0 })

/-- `GU8`, `GNH`, `GNL`: the byte, its high nibble, its low nibble, through the transform, or `ABSENT` outside the window
(R220, R224, R225). -/
def Obligations.ByteFieldReads : Prop :=
  (∀ p off mul add exp unit,
    encode p (.gu8 off mul add exp unit) = .cmd (0x21#8 ++ off ++ 0#8 ++ exp ++ codeOfUnit unit ++ mul ++ add)
    ∧ encode p (.gnh off mul add exp unit) = .cmd (0x25#8 ++ off ++ 0#8 ++ exp ++ codeOfUnit unit ++ mul ++ add)
    ∧ encode p (.gnl off mul add exp unit) = .cmd (0x26#8 ++ off ++ 0#8 ++ exp ++ codeOfUnit unit ++ mul ++ add))
  ∧ ∀ (s : State) (off : Byte) (mul add : BitVec 16) (exp : BitVec 4) (unit : UnitCode), s.status.busy = false →
    let b := pktByte s (s.poff + off.toNat)
    let result := fun raw : Nat =>
      if off.toNat < s.pn then { ended .ok s with res := ⟨.num, unit, exp, raw * mul.toNat + add.toInt⟩ }
      else { ended .ok s with res := ⟨.absent, .none, 0, 0⟩ }
    exec (.gu8 off mul add exp unit) s = .next (result b.toNat)
    ∧ exec (.gnh off mul add exp unit) s = .next (result (b.extractLsb' 4 4).toNat)
    ∧ exec (.gnl off mul add exp unit) s = .next (result (b.extractLsb' 0 4).toNat)

/-- `GU16`, `GS16`: the big-endian word, unsigned or two's complement, through the transform; the pattern `FF FF` is 0 or -1
under policy `Z` or `M`, tested before the sign, and bypasses the transform; `ABSENT` unless both bytes are inside the window
(R215, R221, R222). -/
def Obligations.WordFieldReads : Prop :=
  (∀ p off sent mul add exp unit,
    encode p (.gu16 off sent mul add exp unit)
      = .cmd (0x22#8 ++ off ++ 0#6 ++ codeOfSent sent ++ exp ++ codeOfUnit unit ++ mul ++ add)
    ∧ encode p (.gs16 off sent mul add exp unit)
      = .cmd (0x23#8 ++ off ++ 0#6 ++ codeOfSent sent ++ exp ++ codeOfUnit unit ++ mul ++ add))
  ∧ ∀ (s : State) (off : Byte) (sent : Sent) (mul add : BitVec 16) (exp : BitVec 4) (unit : UnitCode),
    s.status.busy = false →
    let hi := pktByte s (s.poff + off.toNat)
    let lo := pktByte s (s.poff + off.toNat + 1)
    let result := fun raw : Int =>
      if off.toNat + 2 ≤ s.pn then
        { ended .ok s with res := ⟨.num, unit, exp,
            if hi = 0xFF ∧ lo = 0xFF ∧ sent = .z then 0
            else if hi = 0xFF ∧ lo = 0xFF ∧ sent = .m then -1
            else raw * mul.toNat + add.toInt⟩ }
      else { ended .ok s with res := ⟨.absent, .none, 0, 0⟩ }
    exec (.gu16 off sent mul add exp unit) s = .next (result (hi ++ lo).toNat)
    ∧ exec (.gs16 off sent mul add exp unit) s = .next (result (hi ++ lo).toInt)

/-- `GU32`: the big-endian 32-bit word through the transform, or `ABSENT` (R223). -/
def Obligations.DoubleWordFieldRead : Prop :=
  (∀ p off mul add exp unit,
    encode p (.gu32 off mul add exp unit) = .cmd (0x24#8 ++ off ++ 0#8 ++ exp ++ codeOfUnit unit ++ mul ++ add))
  ∧ ∀ (s : State) (off : Byte) (mul add : BitVec 16) (exp : BitVec 4) (unit : UnitCode), s.status.busy = false →
    let b := fun i => pktByte s (s.poff + off.toNat + i)
    (off.toNat + 4 ≤ s.pn → exec (.gu32 off mul add exp unit) s = .next { ended .ok s with
        res := ⟨.num, unit, exp, (b 0 ++ b 1 ++ b 2 ++ b 3).toNat * mul.toNat + add.toInt⟩ })
    ∧ (s.pn < off.toNat + 4 → exec (.gu32 off mul add exp unit) s = .next { ended .ok s with
        res := ⟨.absent, .none, 0, 0⟩ })

/-- `GBCD`: two decimal digits read as a decimal number, through the transform; `CORRUPT` when a digit is above 9; `ABSENT`
outside the window (R226, R230). -/
def Obligations.HexDecimalFieldRead : Prop :=
  (∀ p off mul add exp unit,
    encode p (.gbcd off mul add exp unit) = .cmd (0x27#8 ++ off ++ 0#8 ++ exp ++ codeOfUnit unit ++ mul ++ add))
  ∧ ∀ (s : State) (off : Byte) (mul add : BitVec 16) (exp : BitVec 4) (unit : UnitCode), s.status.busy = false →
    let b := pktByte s (s.poff + off.toNat)
    let h := (b.extractLsb' 4 4).toNat
    let l := (b.extractLsb' 0 4).toNat
    exec (.gbcd off mul add exp unit) s = .next { ended .ok s with
      res := if s.pn ≤ off.toNat then ⟨.absent, .none, 0, 0⟩
        else if 9 < h ∨ 9 < l then ⟨.corrupt, .none, 0, 0⟩
        else ⟨.num, unit, exp, (10 * h + l) * mul.toNat + add.toInt⟩ }

/-- `GBIT`: bit `bit` of the byte, bit 0 the least significant, as a boolean, or `ABSENT` (R227). -/
def Obligations.BitFieldRead : Prop :=
  (∀ p off bit, encode p (.gbit off bit) = .cmd (0x28#8 ++ off ++ 0#5 ++ bit ++ 0#40))
  ∧ ∀ (s : State) (off : Byte) (bit : BitVec 3), s.status.busy = false →
    exec (.gbit off bit) s = .next { ended .ok s with
      res := if s.pn ≤ off.toNat then ⟨.absent, .none, 0, 0⟩
        else ⟨.bool, .none, 0, ((pktByte s (s.poff + off.toNat)).toNat / 2 ^ bit.toNat % 2 : Nat)⟩ }

/-- `GCODE`: a byte its table maps gives the table and the code id, a byte it does not map gives the raw byte, never a
failure; `ABSENT` outside the window (R228). -/
def Obligations.CodedFieldRead : Prop :=
  (∀ p off table, encode p (.gcode off table) = .cmd (0x29#8 ++ off ++ table ++ 0#40))
  ∧ ∀ (s : State) (off table : Byte), s.status.busy = false →
    let b := pktByte s (s.poff + off.toNat)
    (s.pn ≤ off.toNat → exec (.gcode off table) s = .next { ended .ok s with res := ⟨.absent, .none, 0, 0⟩ })
    ∧ (off.toNat < s.pn → ∀ id, codeOf s.cfg table b = some id →
        exec (.gcode off table) s = .next { ended .ok s with
          res := ⟨.code, .none, 0, table.toNat * 256 + id.toNat⟩ })
    ∧ (off.toNat < s.pn → codeOf s.cfg table b = none →
        exec (.gcode off table) s = .next { ended .ok s with res := ⟨.rawhex, .none, 0, b.toNat⟩ })

/-- `GTS`: six hex-as-decimal bytes arranged by `TS_ORDER`; a digit above 9, a date that is not in the calendar or a time that
is not one of a day gives `CORRUPT`; a window that does not hold all six bytes gives `ABSENT` (R229, R231). -/
def Obligations.TimestampFieldRead : Prop :=
  (∀ p off, encode p (.gts off) = .cmd (0x2A#8 ++ off ++ 0#48))
  ∧ ∀ (s : State) (off : Byte), s.status.busy = false → s.cfg.wf = true →
    let b := fun i => pktByte s (s.poff + off.toNat + i)
    let digits := fun i => ((b i).extractLsb' 4 4).toNat ≤ 9 ∧ ((b i).extractLsb' 0 4).toNat ≤ 9
    let part := fun c =>
      let i := s.cfg.tsOrder.idxOf c
      10 * ((b i).extractLsb' 4 4).toNat + ((b i).extractLsb' 0 4).toNat
    let dim := if part .month = 2 then (if part .year % 4 = 0 then 29 else 28)
      else if part .month ∈ [4, 6, 9, 11] then 30 else 31
    let valid := 1 ≤ part .month ∧ part .month ≤ 12 ∧ 1 ≤ part .day ∧ part .day ≤ dim ∧ part .hour ≤ 23
      ∧ part .minute ≤ 59 ∧ part .second ≤ 59
    (s.pn < off.toNat + 6 → exec (.gts off) s = .next { ended .ok s with res := ⟨.absent, .none, 0, 0⟩ })
    ∧ (off.toNat + 6 ≤ s.pn → (¬ ∀ i, i < 6 → digits i) →
        exec (.gts off) s = .next { ended .ok s with res := ⟨.corrupt, .none, 0, 0⟩ })
    ∧ (off.toNat + 6 ≤ s.pn → (∀ i, i < 6 → digits i) → ¬ valid →
        exec (.gts off) s = .next { ended .ok s with res := ⟨.corrupt, .none, 0, 0⟩ })
    ∧ (off.toNat + 6 ≤ s.pn → (∀ i, i < 6 → digits i) → valid →
        exec (.gts off) s = .next { ended .ok s with res := ⟨.ts, .none, 0,
          (part .year * 2 ^ 40 + part .month * 2 ^ 32 + part .day * 2 ^ 24 + part .hour * 2 ^ 16
            + part .minute * 2 ^ 8 + part .second : Nat)⟩ })

/-- A field read leaves `ABSENT`, all zero, exactly when its bytes are not all inside the window, and ends with `OK` all the
same (R213). -/
def Obligations.AbsentExactlyOutsideWindow : Prop :=
  ∀ (i : Instr) (s : State) (off width : Nat), fieldSpan i = some (off, width) → s.status.busy = false →
    ∃ t, exec i s = .next t ∧ t.status.code = .ok
      ∧ (s.pn < off + width → t.res = ⟨.absent, .none, 0, 0⟩)
      ∧ (off + width ≤ s.pn → t.res.tag ≠ .absent)

/-- The linear transform never leaves the 64-bit mantissa: its magnitude is below `2^48 + 2^15`, for every command (R14 (f)). -/
def Obligations.TransformFitsMantissa : Prop :=
  ∀ (k : FieldKind) (s : State) (off : Nat) (sent : Sent) (mul add : BitVec 16) (exp : BitVec 4) (unit : UnitCode),
    ((fieldG k s off sent mul.toNat add.toInt exp unit).mant.natAbs : Int) < 2 ^ 48 + 2 ^ 15
    ∧ (fieldG k s off sent mul.toNat add.toInt exp unit).fits

/-! ## The decode programs -/

/-- `DVOLT`: the count, one entry per cell with its voltage or `ABSENT` (`FF FF` reading as 0), and the difference of the
largest and the smallest present cell, `ABSENT` when no cell is present (R252, R253, R254, R256). -/
def Obligations.DvoltDecodesVoltageStatus : Prop :=
  (∀ p, encode p .dvolt = .cmd 0x3000000000000000)
  ∧ ∀ s : State, s.status.busy = false →
    let n := if 0 < s.pn then (pktByte s s.poff).toNat else 0
    ∃ t out', exec .dvolt s = .next t
      ∧ t = { ended .ok s with out := out', outn := n + 2 }
      ∧ outAt t.out 0 = (if 0 < s.pn then ⟨0x01, 0, ⟨.num, .none, 0, n⟩⟩ else ⟨0x01, 0, ⟨.absent, .none, 0, 0⟩⟩)
      ∧ (∀ i, 1 ≤ i → i ≤ n → outAt t.out i =
          match cellMant s i with
          | some m => ⟨0x02, BitVec.ofNat 8 i, ⟨.num, .v, -3, m⟩⟩
          | none => ⟨0x02, BitVec.ofNat 8 i, ⟨.absent, .none, 0, 0⟩⟩)
      ∧ ((∀ i, 1 ≤ i → i ≤ n → cellMant s i = none) → outAt t.out (n + 1) = ⟨0x03, 0, ⟨.absent, .none, 0, 0⟩⟩)
      ∧ (∀ hi lo, (∃ i, 1 ≤ i ∧ i ≤ n ∧ cellMant s i = some hi) → (∃ i, 1 ≤ i ∧ i ≤ n ∧ cellMant s i = some lo) →
          (∀ i m, 1 ≤ i → i ≤ n → cellMant s i = some m → lo ≤ m ∧ m ≤ hi) →
          outAt t.out (n + 1) = ⟨0x03, 0, ⟨.num, .v, -3, hi - lo⟩⟩)
      ∧ ∀ k, n + 2 ≤ k → outAt t.out k = outAt s.out k

/-- The flag set of CurrentStatus (R263, R264): `ABSENT` unless window bytes 3 to 6 are there. Otherwise raw flag `k` is bit
`FPOS[k].bit` of window byte `FPOS[k].offset`, and bit `b` of the set is 1 exactly for an unrelated raw flag 5 to 9, and for
`10 + 2d + (q - 3)` when domain flag `d` and qualifier flag `q` are both set; raw flags 0 to 4 never. -/
def Obligations.CompoundFlagsDerived : Prop :=
  ∀ s : State, s.cfg.wf = true →
    let raw := fun k : Nat =>
      let p := s.cfg.csl.fpos.getD k ⟨0, 0⟩
      (pktByte s (s.poff + p.off)).getLsbD p.bit
    (s.pn < 7 → flagsValue s = ⟨.absent, .none, 0, 0⟩)
    ∧ (7 ≤ s.pn → ∃ m : Nat, flagsValue s = ⟨.flags, .none, 0, m⟩
        ∧ ∀ b, m.testBit b = true ↔
            (5 ≤ b ∧ b ≤ 9 ∧ raw b = true)
            ∨ ∃ d q, d < 3 ∧ (q = 3 ∨ q = 4) ∧ raw d = true ∧ raw q = true ∧ b = 10 + 2 * d + (q - 3))

/-- `current()` (R262): `ABSENT` unless the word and the discharging byte are inside the window; with the discharging bit set
the magnitude made negative; else the word's own sign; `FF FF` is 0 either way. -/
def Obligations.CurrentSignRule : Prop :=
  ∀ s : State,
    let hi := pktByte s (s.poff + 1)
    let lo := pktByte s (s.poff + 2)
    let c : Int := if hi = 0xFF ∧ lo = 0xFF then 0 else (hi ++ lo).toInt
    ((s.pn < 3 ∨ s.pn ≤ s.cfg.csl.dsgByte) → currentValue s = ⟨.absent, .none, 0, 0⟩)
    ∧ (3 ≤ s.pn → s.cfg.csl.dsgByte < s.pn →
        currentValue s = ⟨.num, .a, -2,
          if (pktByte s (s.poff + s.cfg.csl.dsgByte)).getLsbD s.cfg.csl.dsgBit then -(c.natAbs : Int) else c⟩)

/-- `DCURR` (R261, R266, R267, R269): its `11 + NT` entries, in order: probe flags, current, flags, the cell temperatures,
the optional MOS and ambient bytes (which take room only when they exist), shunt, balancing, firmware, MOSFET-on and failure
flags. `o` is where the shunt starts. -/
def Obligations.DcurrDecodesCurrentStatus : Prop :=
  (∀ p, encode p .dcurr = .cmd 0x3100000000000000)
  ∧ ∀ s : State, s.status.busy = false →
    let csl := s.cfg.csl
    let mp := decide (0 < s.pn) && (pktByte s s.poff).getLsbD csl.mospBit
    let ap := decide (0 < s.pn) && (pktByte s s.poff).getLsbD csl.ambpBit
    let oAmb := 7 + csl.nt + (if mp then 1 else 0)
    let o := oAmb + (if ap then 1 else 0)
    let bit := fun b : Bool =>
      if 0 < s.pn then (⟨.bool, .none, 0, if b then 1 else 0⟩ : Value) else ⟨.absent, .none, 0, 0⟩
    let temp := fun q : Nat =>
      if q < s.pn then (⟨.num, .degc, 0, (pktByte s (s.poff + q)).toNat + csl.tAdd⟩ : Value) else ⟨.absent, .none, 0, 0⟩
    let bits := fun q : Nat =>
      if q < s.pn then (⟨.flags, .none, 0, (pktByte s (s.poff + q)).toNat⟩ : Value) else ⟨.absent, .none, 0, 0⟩
    ∃ t out', exec .dcurr s = .next t
      ∧ t = { ended .ok s with out := out', outn := 11 + csl.nt }
      ∧ outAt t.out 0 = ⟨0x10, 0, bit mp⟩ ∧ outAt t.out 1 = ⟨0x11, 0, bit ap⟩
      ∧ outAt t.out 2 = ⟨0x12, 0, currentValue s⟩ ∧ outAt t.out 3 = ⟨0x13, 0, flagsValue s⟩
      ∧ (∀ j, 1 ≤ j → j ≤ csl.nt → outAt t.out (3 + j) = ⟨0x14, BitVec.ofNat 8 j, temp (6 + j)⟩)
      ∧ outAt t.out (4 + csl.nt) = ⟨0x15, 0, if mp then temp (7 + csl.nt) else ⟨.absent, .none, 0, 0⟩⟩
      ∧ outAt t.out (5 + csl.nt) = ⟨0x16, 0, if ap then temp oAmb else ⟨.absent, .none, 0, 0⟩⟩
      ∧ outAt t.out (6 + csl.nt) = ⟨0x17, 0, fieldG .u16 s o .z 1 0 (-2) .ohm⟩
      ∧ outAt t.out (7 + csl.nt) = ⟨0x18, 0,
          if o + 5 ≤ s.pn then ⟨.flags, .none, 0, ((pktByte s (s.poff + o + 2)).toNat * 2 ^ 16
            + (pktByte s (s.poff + o + 3)).toNat * 2 ^ 8 + (pktByte s (s.poff + o + 4)).toNat : Nat)⟩
          else ⟨.absent, .none, 0, 0⟩⟩
      ∧ outAt t.out (8 + csl.nt) = ⟨0x19, 0,
          if o + 5 < s.pn then ⟨.num, .none, 0, (pktByte s (s.poff + o + 5)).toNat⟩ else ⟨.absent, .none, 0, 0⟩⟩
      ∧ outAt t.out (9 + csl.nt) = ⟨0x1A, 0, bits (o + 6)⟩
      ∧ outAt t.out (10 + csl.nt) = ⟨0x1B, 0, bits (o + 7)⟩
      ∧ ∀ k, 11 + csl.nt ≤ k → outAt t.out k = outAt s.out k

/-- `DPWR` (R273 to R277): its `11 + NVC` entries, each the field read its rule names; the tail's three entries are read
exactly when the marker byte is 0x0D, else they are `ABSENT`, "TI" and `ABSENT`. R277 names the ids 0 and 1 of the front-end
table; that an id above 1, which no constraint of R6 excludes, is passed through as the table gives it is the model's choice
(log entry 21). -/
def Obligations.DpwrDecodesPowerStatus : Prop :=
  (∀ p, encode p .dpwr = .cmd 0x3200000000000000)
  ∧ ∀ s : State, s.status.busy = false →
    let l := s.cfg.psl
    let marked := decide (l.oMark < s.pn) && decide (pktByte s (s.poff + l.oMark) = 0x0D)
    ∃ t out', exec .dpwr s = .next t
      ∧ t = { ended .ok s with out := out', outn := 11 + l.nvc }
      ∧ outAt t.out 0 = ⟨0x20, 0, fieldG .u8 s l.oSoc .n 1 0 0 .pct⟩
      ∧ outAt t.out 1 = ⟨0x21, 0, fieldG .u16 s l.oCyc .n 1 0 0 .none⟩
      ∧ outAt t.out 2 = ⟨0x22, 0, fieldG .u32 s l.oDcap .n 1 0 l.capExp .none⟩
      ∧ outAt t.out 3 = ⟨0x23, 0, fieldG .u32 s l.oFcap .n 1 0 l.capExp .none⟩
      ∧ outAt t.out 4 = ⟨0x24, 0, fieldG .u32 s l.oRcap .n 1 0 l.capExp .none⟩
      ∧ outAt t.out 5 = ⟨0x25, 0, fieldG .u16 s l.oDmin .m 1 0 0 .min⟩
      ∧ outAt t.out 6 = ⟨0x26, 0, fieldG .u16 s l.oCmin .m 1 0 0 .min⟩
      ∧ outAt t.out 7 = ⟨0x27, 0, fieldG .u16 s l.oVbat .n 1 0 l.vbatExp .v⟩
      ∧ (∀ j, 1 ≤ j → j ≤ l.nvc → outAt t.out (7 + j)
          = ⟨0x28, BitVec.ofNat 8 j, fieldG .u16 s (l.oVcell + 2 * (j - 1)) .n 1 0 l.vcellExp .v⟩)
      ∧ (marked = true →
          outAt t.out (8 + l.nvc) = ⟨0x29, 0, fieldG .u8 s l.oHw .n 1 0 0 .none⟩
          ∧ (s.pn ≤ l.oFe → outAt t.out (9 + l.nvc) = ⟨0x2A, 0, ⟨.absent, .none, 0, 0⟩⟩)
          ∧ (l.oFe < s.pn →
              let v := (pktByte s (s.poff + l.oFe)).toNat / 16
              (∀ id, codeOf s.cfg 0xFF (BitVec.ofNat 8 v) = some id →
                outAt t.out (9 + l.nvc) = ⟨0x2A, 0, ⟨.code, .none, 0, 0xFF00 + id.toNat⟩⟩)
              ∧ (codeOf s.cfg 0xFF (BitVec.ofNat 8 v) = none →
                outAt t.out (9 + l.nvc) = ⟨0x2A, 0, ⟨.rawhex, .none, 0, v⟩⟩))
          ∧ outAt t.out (10 + l.nvc) = ⟨0x2B, 0, fieldG .nl s l.oFe .n 1 0 0 .none⟩)
      ∧ (marked = false →
          outAt t.out (8 + l.nvc) = ⟨0x29, 0, ⟨.absent, .none, 0, 0⟩⟩
          ∧ outAt t.out (9 + l.nvc) = ⟨0x2A, 0, ⟨.code, .none, 0, 0xFF00⟩⟩
          ∧ outAt t.out (10 + l.nvc) = ⟨0x2B, 0, ⟨.absent, .none, 0, 0⟩⟩)
      ∧ ∀ k, 11 + l.nvc ≤ k → outAt t.out k = outAt s.out k

/-- Purity: what a field read or a decode program leaves depends on the window and the instance alone, not on `RES`, earlier
`OUT`, the reassembly state, where the window lies in `PKT` or what lies outside it (R251, R279). -/
def Obligations.DecodersDependOnWindowOnly : Prop :=
  ∀ (s1 s2 t1 t2 : State) (i : Instr), s1.status.busy = false → s2.status.busy = false → s1.cfg = s2.cfg →
    (∀ o, winByte s1 o = winByte s2 o) → exec i s1 = .next t1 → exec i s2 = .next t2 →
    (fieldSpan i ≠ none → t1.res = t2.res)
    ∧ ((i = .dvolt ∨ i = .dcurr ∨ i = .dpwr) →
        t1.outn = t2.outn ∧ ∀ k, k < t1.outn → outAt t1.out k = outAt t2.out k)

/-! ## The host's accesses -/

/-- Host writes to the buffer. To `PLEN` (R34): above 264 ignored; any other value while idle stores it and clears the window.
To `PKT[i]` (R35): while idle the byte is stored and the window cleared. Either, while busy, is dropped with `OVR` set
(R44). That this holds of a `PLEN` above 264 while busy too, where R34 says "ignored" and R44 says `OVR`, is the model's
choice (log entry 18). -/
def Obligations.HostWritesBuffer : Prop :=
  ∀ (s : State) (v : BitVec 128) (rest : List Event),
    (s.inbox = .hostWrite 0x00C 32 v :: rest →
      (s.status.busy = true → step s = .next { s with inbox := rest, status := { s.status with ovr := true } })
      ∧ (s.status.busy = false → 264 < (v.setWidth 32).toNat → step s = .next { s with inbox := rest })
      ∧ (s.status.busy = false → (v.setWidth 32).toNat ≤ 264 → step s = .next { s with
          inbox := rest, plen := (v.setWidth 32).toNat, poff := 0, pn := 0, vaddr := 0, vlen := 0 }))
    ∧ ∀ i, i < 264 → s.inbox = .hostWrite (0x100 + i) 8 v :: rest →
      (s.status.busy = true → step s = .next { s with inbox := rest, status := { s.status with ovr := true } })
      ∧ (s.status.busy = false → ∃ t pkt', step s = .next t
          ∧ t = { s with inbox := rest, pkt := pkt', poff := 0, pn := 0, vaddr := 0, vlen := 0 }
          ∧ ∀ j, pktByte t j = if j = i then v.setWidth 8 else pktByte s j)

/-- A host write to `STATUS` changes only `OVR`, which a 1 in bit 2 clears (R33); one to a read-only register is dropped
without effect (R44). That a `STATUS` write works while the block is busy too is the model's choice (log entry 18). -/
def Obligations.HostWritesStatusAndReadOnly : Prop :=
  ∀ (s : State) (v : BitVec 128) (rest : List Event),
    (s.inbox = .hostWrite 0x008 32 v :: rest →
      step s = .next { s with
        inbox := rest, status := { s.status with ovr := if v.getLsbD 2 then false else s.status.ovr } })
    ∧ (∀ off width, s.inbox = .hostWrite off width v :: rest →
        ((width = 32 ∧ off ∈ [0x010, 0x014, 0x018, 0x01C, 0x030, 0x034]) ∨ (width = 128 ∧ off = 0x020)
          ∨ (width = 128 ∧ ∃ k, k < 512 ∧ off = 0x2000 + 16 * k)) →
        step s = .next { s with inbox := rest })

/-- Host reads return the current value of the register and change nothing: every register of the map, at its offset and
width (R31, R44). What is returned goes to the model's own record (log entry 7). -/
def Obligations.HostReadsReturnRegisters : Prop :=
  ∀ (s : State) (off width : Nat) (rest : List Event), s.inbox = .hostRead off width :: rest →
    let answers := fun (r : HostReg) (x : BitVec 128) =>
      step s = .next { s with inbox := rest, reads := s.reads ++ [(r, x)] }
    (width = 32 → off = 0x008 → answers .status ((statusWord s.status).setWidth 128))
    ∧ (width = 32 → off = 0x00C → answers .plen (BitVec.ofNat 128 s.plen))
    ∧ (width = 32 → off = 0x010 → answers .vaddr (s.vaddr.setWidth 128))
    ∧ (width = 32 → off = 0x014 → answers .vlen (s.vlen.setWidth 128))
    ∧ (width = 32 → off = 0x018 → answers .poff (BitVec.ofNat 128 s.poff))
    ∧ (width = 32 → off = 0x01C → answers .pn (BitVec.ofNat 128 s.pn))
    ∧ (width = 128 → off = 0x020 → answers .res (recordBits 0 0 s.res))
    ∧ (width = 32 → off = 0x030 → answers .outn (BitVec.ofNat 128 s.outn))
    ∧ (width = 32 → off = 0x034 → s.bud < 2 ^ 32 → answers .bud (BitVec.ofNat 128 s.bud))
    ∧ (∀ i, i < 264 → width = 8 → off = 0x100 + i → answers (.pkt i) ((pktByte s i).setWidth 128))
    ∧ (∀ k, k < 512 → width = 128 → off = 0x2000 + 16 * k →
        answers (.out k) (recordBits (outAt s.out k).key (outAt s.out k).idx (outAt s.out k).val))

/-- The window never survives a change of the buffer: a step that changes `PLEN` or any byte of `PKT` leaves the window
cleared (R47, R361). -/
def Obligations.BufferChangeClearsWindow : Prop :=
  ∀ s t : State, step s = .next t → (t.plen ≠ s.plen ∨ ∃ i, pktByte t i ≠ pktByte s i) →
    t.poff = 0 ∧ t.pn = 0 ∧ t.vaddr = 0 ∧ t.vlen = 0
end

