-- ==== Sys2Proof/Laws/Memory.lean ====
section
/-! SUPPORT. The laws of the sparse memories: what a read sees after a write, and that every memory operation keeps the
canonical form. -/

namespace Sys2Proof.Machine

variable {α : Type}

theorem cellAt_append (m n : List (Nat × α)) (a : Nat) : cellAt (m ++ n) a = (cellAt m a).or (cellAt n a) := by
  induction m with
  | nil => simp [cellAt]
  | cons c m ih => simp only [List.cons_append, cellAt]; split <;> simp_all

theorem cellAt_filter_index (p : Nat → Bool) (m : List (Nat × α)) (a : Nat) :
    cellAt (m.filter (fun c => p c.1)) a = if p a then cellAt m a else none := by
  induction m with
  | nil => simp [cellAt]
  | cons c m ih =>
    by_cases hc : p c.1 <;> by_cases ha : c.1 = a <;> simp_all [cellAt]

theorem cellAt_cellsFrom (vs : List α) (base a : Nat) :
    cellAt (cellsFrom base vs) a = if base ≤ a then vs[a - base]? else none := by
  induction vs generalizing base with
  | nil => simp [cellsFrom, cellAt]
  | cons v vs ih =>
    simp only [cellsFrom, cellAt, ih]
    by_cases h : base = a
    · subst h; simp
    · by_cases h1 : base ≤ a
      · have h2 : base + 1 ≤ a := by omega
        have h3 : a - base = (a - (base + 1)) + 1 := by omega
        simp [h, h1, h2, h3]
      · have h2 : ¬ base + 1 ≤ a := by omega
        simp [h, h1, h2]

/-- What a read sees after consecutive cells are written: the new cells inside the range, the old ones elsewhere. -/
theorem cellAt_blit (base : Nat) (vs : List α) (m : List (Nat × α)) (a : Nat) :
    cellAt (blit base vs m) a
      = if base ≤ a ∧ a < base + vs.length then vs[a - base]? else cellAt m a := by
  have f1 := cellAt_filter_index (fun i => decide (i < base)) m a
  have f2 := cellAt_filter_index (fun i => decide (base + vs.length ≤ i)) m a
  simp only [blit, cellAt_append, cellAt_cellsFrom, f1, f2]
  by_cases h1 : a < base
  · have h2 : ¬ base ≤ a := by omega
    have h3 : ¬ base + vs.length ≤ a := by omega
    simp [h1, h2, h3]
  · have h2 : base ≤ a := by omega
    by_cases h3 : base + vs.length ≤ a
    · have h4 : ¬ a < base + vs.length := by omega
      have h5 : vs[a - base]? = none := by simp; omega
      simp [h1, h2, h3, h4, h5]
    · have h4 : a < base + vs.length := by omega
      simp [h1, h2, h3, h4]

/-- The index range of a canonical list can be widened. -/
theorem cellsWf_mono {lo lo' hi hi' : Nat} (hl : lo' ≤ lo) (hh : hi ≤ hi') (m : List (Nat × α))
    (h : cellsWf lo hi m = true) : cellsWf lo' hi' m = true := by
  induction m generalizing lo lo' with
  | nil => rfl
  | cons c m ih =>
    obtain ⟨a, v⟩ := c
    simp only [cellsWf, Bool.and_eq_true, decide_eq_true_eq] at h ⊢
    exact ⟨⟨by omega, by omega⟩, ih (Nat.le_refl _) h.2⟩

/-- Two canonical lists, one below the other, join to one. -/
theorem cellsWf_append {lo mid hi : Nat} (hm : lo ≤ mid) (hh : mid ≤ hi) (m n : List (Nat × α))
    (h1 : cellsWf lo mid m = true) (h2 : cellsWf mid hi n = true) : cellsWf lo hi (m ++ n) = true := by
  induction m generalizing lo with
  | nil => exact cellsWf_mono hm (Nat.le_refl _) n h2
  | cons c m ih =>
    obtain ⟨a, v⟩ := c
    simp only [List.cons_append, cellsWf, Bool.and_eq_true, decide_eq_true_eq] at h1 ⊢
    exact ⟨⟨h1.1.1, by omega⟩, ih (by omega) h1.2⟩

/-- Leaving out cells keeps the canonical form. -/
theorem cellsWf_filter {lo hi : Nat} (q : Nat × α → Bool) (m : List (Nat × α)) (h : cellsWf lo hi m = true) :
    cellsWf lo hi (m.filter q) = true := by
  induction m generalizing lo with
  | nil => rfl
  | cons c m ih =>
    obtain ⟨a, v⟩ := c
    simp only [cellsWf, Bool.and_eq_true, decide_eq_true_eq] at h
    rw [List.filter_cons]
    split
    · simp only [cellsWf, Bool.and_eq_true, decide_eq_true_eq]; exact ⟨h.1, ih h.2⟩
    · exact ih (cellsWf_mono (by omega) (Nat.le_refl _) m h.2)

theorem cellsWf_filter_below {lo hi : Nat} (base : Nat) (m : List (Nat × α)) (h : cellsWf lo hi m = true) :
    cellsWf lo base (m.filter (fun c => decide (c.1 < base))) = true := by
  induction m generalizing lo with
  | nil => rfl
  | cons c m ih =>
    obtain ⟨a, v⟩ := c
    simp only [cellsWf, Bool.and_eq_true, decide_eq_true_eq] at h
    rw [List.filter_cons]
    split
    · simp only [cellsWf, Bool.and_eq_true, decide_eq_true_eq]
      exact ⟨⟨h.1.1, by simp_all⟩, ih h.2⟩
    · exact cellsWf_mono (by omega) (Nat.le_refl _) _ (ih h.2)

theorem cellsWf_filter_from {lo hi : Nat} (base : Nat) (m : List (Nat × α)) (h : cellsWf lo hi m = true) :
    cellsWf base hi (m.filter (fun c => decide (base ≤ c.1))) = true := by
  induction m generalizing lo with
  | nil => rfl
  | cons c m ih =>
    obtain ⟨a, v⟩ := c
    simp only [cellsWf, Bool.and_eq_true, decide_eq_true_eq] at h
    rw [List.filter_cons]
    split
    · rename_i hb
      simp only [decide_eq_true_eq] at hb
      simp only [cellsWf, Bool.and_eq_true, decide_eq_true_eq]
      exact ⟨⟨hb, h.1.2⟩, cellsWf_filter _ m h.2⟩
    · exact ih h.2

theorem cellsWf_cellsFrom (vs : List α) (base : Nat) :
    cellsWf base (base + vs.length) (cellsFrom base vs) = true := by
  induction vs generalizing base with
  | nil => rfl
  | cons v vs ih =>
    simp only [cellsFrom, cellsWf, List.length_cons, Bool.and_eq_true, decide_eq_true_eq]
    have := ih (base + 1)
    rw [show base + (vs.length + 1) = base + 1 + vs.length by omega]
    exact ⟨⟨Nat.le_refl _, by omega⟩, this⟩

/-- Writing consecutive cells below the capacity keeps the canonical form. -/
theorem blit_wf {hi : Nat} (base : Nat) (vs : List α) (m : List (Nat × α)) (hb : base + vs.length ≤ hi)
    (h : cellsWf 0 hi m = true) : cellsWf 0 hi (blit base vs m) = true := by
  unfold blit
  refine cellsWf_append (mid := base + vs.length) (by omega) hb _ _ ?_ (cellsWf_filter_from _ m h)
  exact cellsWf_append (mid := base) (by omega) (by omega) _ _ (cellsWf_filter_below _ m h) (cellsWf_cellsFrom vs base)

/-- A write to a byte buffer inside its capacity keeps its canonical form. -/
theorem memory_blit_wf {cap : Nat} (base : Nat) (bs : List Byte) (m : Memory) (hb : base + bs.length ≤ cap)
    (h : Memory.wf cap m = true) : Memory.wf cap (blit base bs m) = true := blit_wf base bs m hb h

/-- Below its range a canonical list has no cell. -/
theorem cellAt_below {lo hi a : Nat} (m : List (Nat × α)) (h : cellsWf lo hi m = true) (ha : a < lo) :
    cellAt m a = none := by
  induction m generalizing lo with
  | nil => rfl
  | cons c m ih =>
    obtain ⟨e, w⟩ := c
    simp only [cellsWf, Bool.and_eq_true, decide_eq_true_eq] at h
    have : e ≠ a := by omega
    simp only [cellAt, this, if_false]
    exact ih h.2 (by omega)

theorem cellAt_filter_value (q : α → Bool) (lo hi : Nat) (m : List (Nat × α)) (h : cellsWf lo hi m = true) (a : Nat) :
    cellAt (m.filter (fun c => q c.2)) a = (cellAt m a).filter q := by
  induction m generalizing lo with
  | nil => simp [cellAt]
  | cons c m ih =>
    obtain ⟨b, v⟩ := c
    simp only [cellsWf, Bool.and_eq_true, decide_eq_true_eq] at h
    have ih' := ih (b + 1) h.2
    rw [List.filter_cons]
    by_cases hb : b = a
    · subst hb
      by_cases hq : q v
      · simp [hq, cellAt, Option.filter]
      · have hn : cellAt m b = none := cellAt_below m h.2 (by omega)
        simp [hq, cellAt, Option.filter, ih', hn]
    · by_cases hq : q v <;> simp [hq, cellAt, hb, ih']

/-- What the output memory reads as after a program wrote its entries (R39). -/
theorem outAt_outWrite (es : List Entry) (m : OutMemory) (k : Nat) :
    outAt (outWrite es m) k = if k < es.length then es.getD k Entry.zero else outAt m k := by
  have hv := cellAt_filter_value (fun e => decide (e ≠ Entry.zero)) 0 (0 + es.length) (cellsFrom 0 es)
    (cellsWf_cellsFrom es 0) k
  have hi := cellAt_filter_index (fun i => decide (es.length ≤ i)) m k
  simp only [outAt, outWrite, cellAt_append, hv, hi, cellAt_cellsFrom]
  by_cases h : k < es.length
  · have h' : ¬ es.length ≤ k := by omega
    simp only [h, h', decide_false, if_true, Nat.zero_le, Nat.sub_zero, Bool.false_eq_true, if_false, Option.or_none,
      List.getD_eq_getElem?_getD]
    cases hk : es[k]? with
    | none => simp
    | some e => by_cases he : e = Entry.zero <;> simp [Option.filter, he]
  · have h' : es.length ≤ k := by omega
    simp [h, h']

/-- A program that writes at most 512 entries keeps the canonical form of `OUT`. -/
theorem outWrite_wf (es : List Entry) (m : OutMemory) (hn : es.length ≤ outCap) (h : OutMemory.wf m = true) :
    OutMemory.wf (outWrite es m) = true := by
  simp only [OutMemory.wf, Bool.and_eq_true] at h ⊢
  constructor
  · unfold outWrite
    refine cellsWf_append (mid := es.length) (by omega) hn _ _ ?_ (cellsWf_filter_from _ m h.1)
    have := cellsWf_cellsFrom es 0
    simp only [Nat.zero_add] at this
    exact cellsWf_filter _ _ this
  · simp only [outWrite, List.all_append, Bool.and_eq_true, List.all_eq_true, List.mem_filter]
    have h2 := h.2
    simp only [List.all_eq_true] at h2
    exact ⟨fun c hc => hc.2, fun c hc => h2 c hc.1⟩

/-- The memories of the reset state have the canonical form. -/
theorem reset_memories_wf (p : Params) :
    Memory.wf pktCap (State.resetOf p).pkt = true ∧ Memory.wf rbCap (State.resetOf p).rb = true
    ∧ Memory.wf abCap (State.resetOf p).ab = true ∧ OutMemory.wf (State.resetOf p).out = true :=
  ⟨rfl, rfl, rfl, rfl⟩

/-- Two canonical lists that read alike everywhere are equal: equal memories are equal data. -/
theorem cells_ext {lo hi : Nat} (m n : List (Nat × α)) (hm : cellsWf lo hi m = true) (hn : cellsWf lo hi n = true)
    (h : ∀ a, cellAt m a = cellAt n a) : m = n := by
  induction m generalizing lo n with
  | nil =>
    cases n with
    | nil => rfl
    | cons d n => have := h d.1; simp [cellAt] at this
  | cons c m ih =>
    obtain ⟨b, v⟩ := c
    cases n with
    | nil => have := h b; simp [cellAt] at this
    | cons d n =>
      obtain ⟨e, w⟩ := d
      simp only [cellsWf, Bool.and_eq_true, decide_eq_true_eq] at hm hn
      have hbe : b = e := by
        rcases Nat.lt_trichotomy b e with hlt | heq | hgt
        · have hx := h b
          have : cellAt n b = none := cellAt_below n hn.2 (by omega)
          have hne : e ≠ b := by omega
          simp [cellAt, this, hne] at hx
        · exact heq
        · have hx := h e
          have : cellAt m e = none := cellAt_below m hm.2 (by omega)
          have hne : b ≠ e := by omega
          simp [cellAt, this, hne] at hx
      subst hbe
      have hvw : v = w := by have hx := h b; simpa [cellAt] using hx
      subst hvw
      rw [ih n hm.2 hn.2]
      intro a
      by_cases hab : b = a
      · subst hab
        rw [cellAt_below m hm.2 (by omega), cellAt_below n hn.2 (by omega)]
      · have hx := h a
        simpa [cellAt, hab] using hx

end Sys2Proof.Machine
end

