-- ==== Sys2Proof/Laws/State.lean ====
section
/-! SUPPORT. One lemma per field per named update of the state, each true by rfl, so that no proof unfolds a record update. -/

namespace Sys2Proof.Machine

@[simp] theorem clearWindow_cfg (s : State) : (clearWindow s).cfg = s.cfg := rfl
@[simp] theorem clearWindow_status (s : State) : (clearWindow s).status = s.status := rfl
@[simp] theorem clearWindow_plen (s : State) : (clearWindow s).plen = s.plen := rfl
@[simp] theorem clearWindow_vaddr (s : State) : (clearWindow s).vaddr = 0 := rfl
@[simp] theorem clearWindow_vlen (s : State) : (clearWindow s).vlen = 0 := rfl
@[simp] theorem clearWindow_poff (s : State) : (clearWindow s).poff = 0 := rfl
@[simp] theorem clearWindow_pn (s : State) : (clearWindow s).pn = 0 := rfl
@[simp] theorem clearWindow_res (s : State) : (clearWindow s).res = s.res := rfl
@[simp] theorem clearWindow_outn (s : State) : (clearWindow s).outn = s.outn := rfl
@[simp] theorem clearWindow_bud (s : State) : (clearWindow s).bud = s.bud := rfl
@[simp] theorem clearWindow_pkt (s : State) : (clearWindow s).pkt = s.pkt := rfl
@[simp] theorem clearWindow_out (s : State) : (clearWindow s).out = s.out := rfl
@[simp] theorem clearWindow_opr (s : State) : (clearWindow s).opr = s.opr := rfl
@[simp] theorem clearWindow_knode (s : State) : (clearWindow s).knode = s.knode := rfl
@[simp] theorem clearWindow_sph (s : State) : (clearWindow s).sph = s.sph := rfl
@[simp] theorem clearWindow_rn (s : State) : (clearWindow s).rn = s.rn := rfl
@[simp] theorem clearWindow_rb (s : State) : (clearWindow s).rb = s.rb := rfl
@[simp] theorem clearWindow_aOpen (s : State) : (clearWindow s).aOpen = s.aOpen := rfl
@[simp] theorem clearWindow_aNode (s : State) : (clearWindow s).aNode = s.aNode := rfl
@[simp] theorem clearWindow_aNext (s : State) : (clearWindow s).aNext = s.aNext := rfl
@[simp] theorem clearWindow_aT (s : State) : (clearWindow s).aT = s.aT := rfl
@[simp] theorem clearWindow_aN (s : State) : (clearWindow s).aN = s.aN := rfl
@[simp] theorem clearWindow_ab (s : State) : (clearWindow s).ab = s.ab := rfl
@[simp] theorem clearWindow_tx (s : State) : (clearWindow s).tx = s.tx := rfl
@[simp] theorem clearWindow_inbox (s : State) : (clearWindow s).inbox = s.inbox := rfl
@[simp] theorem clearWindow_reads (s : State) : (clearWindow s).reads = s.reads := rfl
@[simp] theorem clearWindow_resets (s : State) : (clearWindow s).resets = s.resets := rfl

@[simp] theorem finish_cfg (c : Code) (s : State) : (finish c s).cfg = s.cfg := rfl
@[simp] theorem finish_status (c : Code) (s : State) : (finish c s).status = statusFinished c s.status := rfl
@[simp] theorem finish_plen (c : Code) (s : State) : (finish c s).plen = s.plen := rfl
@[simp] theorem finish_vaddr (c : Code) (s : State) : (finish c s).vaddr = s.vaddr := rfl
@[simp] theorem finish_vlen (c : Code) (s : State) : (finish c s).vlen = s.vlen := rfl
@[simp] theorem finish_poff (c : Code) (s : State) : (finish c s).poff = s.poff := rfl
@[simp] theorem finish_pn (c : Code) (s : State) : (finish c s).pn = s.pn := rfl
@[simp] theorem finish_res (c : Code) (s : State) : (finish c s).res = s.res := rfl
@[simp] theorem finish_outn (c : Code) (s : State) : (finish c s).outn = s.outn := rfl
@[simp] theorem finish_bud (c : Code) (s : State) : (finish c s).bud = s.bud := rfl
@[simp] theorem finish_pkt (c : Code) (s : State) : (finish c s).pkt = s.pkt := rfl
@[simp] theorem finish_out (c : Code) (s : State) : (finish c s).out = s.out := rfl
@[simp] theorem finish_opr (c : Code) (s : State) : (finish c s).opr = .none := rfl
@[simp] theorem finish_knode (c : Code) (s : State) : (finish c s).knode = s.knode := rfl
@[simp] theorem finish_sph (c : Code) (s : State) : (finish c s).sph = s.sph := rfl
@[simp] theorem finish_rn (c : Code) (s : State) : (finish c s).rn = s.rn := rfl
@[simp] theorem finish_rb (c : Code) (s : State) : (finish c s).rb = s.rb := rfl
@[simp] theorem finish_aOpen (c : Code) (s : State) : (finish c s).aOpen = s.aOpen := rfl
@[simp] theorem finish_aNode (c : Code) (s : State) : (finish c s).aNode = s.aNode := rfl
@[simp] theorem finish_aNext (c : Code) (s : State) : (finish c s).aNext = s.aNext := rfl
@[simp] theorem finish_aT (c : Code) (s : State) : (finish c s).aT = s.aT := rfl
@[simp] theorem finish_aN (c : Code) (s : State) : (finish c s).aN = s.aN := rfl
@[simp] theorem finish_ab (c : Code) (s : State) : (finish c s).ab = s.ab := rfl
@[simp] theorem finish_tx (c : Code) (s : State) : (finish c s).tx = s.tx := rfl
@[simp] theorem finish_inbox (c : Code) (s : State) : (finish c s).inbox = s.inbox := rfl
@[simp] theorem finish_reads (c : Code) (s : State) : (finish c s).reads = s.reads := rfl
@[simp] theorem finish_resets (c : Code) (s : State) : (finish c s).resets = s.resets := rfl

@[simp] theorem accept_cfg (s : State) : (accept s).cfg = s.cfg := rfl
@[simp] theorem accept_status (s : State) : (accept s).status = statusAccepted s.status := rfl
@[simp] theorem accept_plen (s : State) : (accept s).plen = s.plen := rfl
@[simp] theorem accept_vaddr (s : State) : (accept s).vaddr = s.vaddr := rfl
@[simp] theorem accept_vlen (s : State) : (accept s).vlen = s.vlen := rfl
@[simp] theorem accept_poff (s : State) : (accept s).poff = s.poff := rfl
@[simp] theorem accept_pn (s : State) : (accept s).pn = s.pn := rfl
@[simp] theorem accept_res (s : State) : (accept s).res = s.res := rfl
@[simp] theorem accept_outn (s : State) : (accept s).outn = s.outn := rfl
@[simp] theorem accept_bud (s : State) : (accept s).bud = s.bud := rfl
@[simp] theorem accept_pkt (s : State) : (accept s).pkt = s.pkt := rfl
@[simp] theorem accept_out (s : State) : (accept s).out = s.out := rfl
@[simp] theorem accept_opr (s : State) : (accept s).opr = s.opr := rfl
@[simp] theorem accept_knode (s : State) : (accept s).knode = s.knode := rfl
@[simp] theorem accept_sph (s : State) : (accept s).sph = s.sph := rfl
@[simp] theorem accept_rn (s : State) : (accept s).rn = s.rn := rfl
@[simp] theorem accept_rb (s : State) : (accept s).rb = s.rb := rfl
@[simp] theorem accept_aOpen (s : State) : (accept s).aOpen = s.aOpen := rfl
@[simp] theorem accept_aNode (s : State) : (accept s).aNode = s.aNode := rfl
@[simp] theorem accept_aNext (s : State) : (accept s).aNext = s.aNext := rfl
@[simp] theorem accept_aT (s : State) : (accept s).aT = s.aT := rfl
@[simp] theorem accept_aN (s : State) : (accept s).aN = s.aN := rfl
@[simp] theorem accept_ab (s : State) : (accept s).ab = s.ab := rfl
@[simp] theorem accept_tx (s : State) : (accept s).tx = s.tx := rfl
@[simp] theorem accept_inbox (s : State) : (accept s).inbox = s.inbox := rfl
@[simp] theorem accept_reads (s : State) : (accept s).reads = s.reads := rfl
@[simp] theorem accept_resets (s : State) : (accept s).resets = s.resets := rfl

@[simp] theorem overrun_cfg (s : State) : (overrun s).cfg = s.cfg := rfl
@[simp] theorem overrun_status (s : State) : (overrun s).status = statusOverrun s.status := rfl
@[simp] theorem overrun_plen (s : State) : (overrun s).plen = s.plen := rfl
@[simp] theorem overrun_vaddr (s : State) : (overrun s).vaddr = s.vaddr := rfl
@[simp] theorem overrun_vlen (s : State) : (overrun s).vlen = s.vlen := rfl
@[simp] theorem overrun_poff (s : State) : (overrun s).poff = s.poff := rfl
@[simp] theorem overrun_pn (s : State) : (overrun s).pn = s.pn := rfl
@[simp] theorem overrun_res (s : State) : (overrun s).res = s.res := rfl
@[simp] theorem overrun_outn (s : State) : (overrun s).outn = s.outn := rfl
@[simp] theorem overrun_bud (s : State) : (overrun s).bud = s.bud := rfl
@[simp] theorem overrun_pkt (s : State) : (overrun s).pkt = s.pkt := rfl
@[simp] theorem overrun_out (s : State) : (overrun s).out = s.out := rfl
@[simp] theorem overrun_opr (s : State) : (overrun s).opr = s.opr := rfl
@[simp] theorem overrun_knode (s : State) : (overrun s).knode = s.knode := rfl
@[simp] theorem overrun_sph (s : State) : (overrun s).sph = s.sph := rfl
@[simp] theorem overrun_rn (s : State) : (overrun s).rn = s.rn := rfl
@[simp] theorem overrun_rb (s : State) : (overrun s).rb = s.rb := rfl
@[simp] theorem overrun_aOpen (s : State) : (overrun s).aOpen = s.aOpen := rfl
@[simp] theorem overrun_aNode (s : State) : (overrun s).aNode = s.aNode := rfl
@[simp] theorem overrun_aNext (s : State) : (overrun s).aNext = s.aNext := rfl
@[simp] theorem overrun_aT (s : State) : (overrun s).aT = s.aT := rfl
@[simp] theorem overrun_aN (s : State) : (overrun s).aN = s.aN := rfl
@[simp] theorem overrun_ab (s : State) : (overrun s).ab = s.ab := rfl
@[simp] theorem overrun_tx (s : State) : (overrun s).tx = s.tx := rfl
@[simp] theorem overrun_inbox (s : State) : (overrun s).inbox = s.inbox := rfl
@[simp] theorem overrun_reads (s : State) : (overrun s).reads = s.reads := rfl
@[simp] theorem overrun_resets (s : State) : (overrun s).resets = s.resets := rfl

@[simp] theorem writePkt_cfg (base : Nat) (bs : List Byte) (s : State) : (writePkt base bs s).cfg = s.cfg := rfl
@[simp] theorem writePkt_status (base : Nat) (bs : List Byte) (s : State) : (writePkt base bs s).status = s.status := rfl
@[simp] theorem writePkt_plen (base : Nat) (bs : List Byte) (s : State) : (writePkt base bs s).plen = s.plen := rfl
@[simp] theorem writePkt_vaddr (base : Nat) (bs : List Byte) (s : State) : (writePkt base bs s).vaddr = s.vaddr := rfl
@[simp] theorem writePkt_vlen (base : Nat) (bs : List Byte) (s : State) : (writePkt base bs s).vlen = s.vlen := rfl
@[simp] theorem writePkt_poff (base : Nat) (bs : List Byte) (s : State) : (writePkt base bs s).poff = s.poff := rfl
@[simp] theorem writePkt_pn (base : Nat) (bs : List Byte) (s : State) : (writePkt base bs s).pn = s.pn := rfl
@[simp] theorem writePkt_res (base : Nat) (bs : List Byte) (s : State) : (writePkt base bs s).res = s.res := rfl
@[simp] theorem writePkt_outn (base : Nat) (bs : List Byte) (s : State) : (writePkt base bs s).outn = s.outn := rfl
@[simp] theorem writePkt_bud (base : Nat) (bs : List Byte) (s : State) : (writePkt base bs s).bud = s.bud := rfl
@[simp] theorem writePkt_pkt (base : Nat) (bs : List Byte) (s : State) : (writePkt base bs s).pkt = blit base bs s.pkt := rfl
@[simp] theorem writePkt_out (base : Nat) (bs : List Byte) (s : State) : (writePkt base bs s).out = s.out := rfl
@[simp] theorem writePkt_opr (base : Nat) (bs : List Byte) (s : State) : (writePkt base bs s).opr = s.opr := rfl
@[simp] theorem writePkt_knode (base : Nat) (bs : List Byte) (s : State) : (writePkt base bs s).knode = s.knode := rfl
@[simp] theorem writePkt_sph (base : Nat) (bs : List Byte) (s : State) : (writePkt base bs s).sph = s.sph := rfl
@[simp] theorem writePkt_rn (base : Nat) (bs : List Byte) (s : State) : (writePkt base bs s).rn = s.rn := rfl
@[simp] theorem writePkt_rb (base : Nat) (bs : List Byte) (s : State) : (writePkt base bs s).rb = s.rb := rfl
@[simp] theorem writePkt_aOpen (base : Nat) (bs : List Byte) (s : State) : (writePkt base bs s).aOpen = s.aOpen := rfl
@[simp] theorem writePkt_aNode (base : Nat) (bs : List Byte) (s : State) : (writePkt base bs s).aNode = s.aNode := rfl
@[simp] theorem writePkt_aNext (base : Nat) (bs : List Byte) (s : State) : (writePkt base bs s).aNext = s.aNext := rfl
@[simp] theorem writePkt_aT (base : Nat) (bs : List Byte) (s : State) : (writePkt base bs s).aT = s.aT := rfl
@[simp] theorem writePkt_aN (base : Nat) (bs : List Byte) (s : State) : (writePkt base bs s).aN = s.aN := rfl
@[simp] theorem writePkt_ab (base : Nat) (bs : List Byte) (s : State) : (writePkt base bs s).ab = s.ab := rfl
@[simp] theorem writePkt_tx (base : Nat) (bs : List Byte) (s : State) : (writePkt base bs s).tx = s.tx := rfl
@[simp] theorem writePkt_inbox (base : Nat) (bs : List Byte) (s : State) : (writePkt base bs s).inbox = s.inbox := rfl
@[simp] theorem writePkt_reads (base : Nat) (bs : List Byte) (s : State) : (writePkt base bs s).reads = s.reads := rfl
@[simp] theorem writePkt_resets (base : Nat) (bs : List Byte) (s : State) : (writePkt base bs s).resets = s.resets := rfl

@[simp] theorem setBuffer_cfg (bs : List Byte) (s : State) : (setBuffer bs s).cfg = s.cfg := rfl
@[simp] theorem setBuffer_status (bs : List Byte) (s : State) : (setBuffer bs s).status = s.status := rfl
@[simp] theorem setBuffer_plen (bs : List Byte) (s : State) : (setBuffer bs s).plen = bs.length := rfl
@[simp] theorem setBuffer_vaddr (bs : List Byte) (s : State) : (setBuffer bs s).vaddr = 0 := rfl
@[simp] theorem setBuffer_vlen (bs : List Byte) (s : State) : (setBuffer bs s).vlen = 0 := rfl
@[simp] theorem setBuffer_poff (bs : List Byte) (s : State) : (setBuffer bs s).poff = 0 := rfl
@[simp] theorem setBuffer_pn (bs : List Byte) (s : State) : (setBuffer bs s).pn = 0 := rfl
@[simp] theorem setBuffer_res (bs : List Byte) (s : State) : (setBuffer bs s).res = s.res := rfl
@[simp] theorem setBuffer_outn (bs : List Byte) (s : State) : (setBuffer bs s).outn = s.outn := rfl
@[simp] theorem setBuffer_bud (bs : List Byte) (s : State) : (setBuffer bs s).bud = s.bud := rfl
@[simp] theorem setBuffer_pkt (bs : List Byte) (s : State) : (setBuffer bs s).pkt = blit 0 bs s.pkt := rfl
@[simp] theorem setBuffer_out (bs : List Byte) (s : State) : (setBuffer bs s).out = s.out := rfl
@[simp] theorem setBuffer_opr (bs : List Byte) (s : State) : (setBuffer bs s).opr = s.opr := rfl
@[simp] theorem setBuffer_knode (bs : List Byte) (s : State) : (setBuffer bs s).knode = s.knode := rfl
@[simp] theorem setBuffer_sph (bs : List Byte) (s : State) : (setBuffer bs s).sph = s.sph := rfl
@[simp] theorem setBuffer_rn (bs : List Byte) (s : State) : (setBuffer bs s).rn = s.rn := rfl
@[simp] theorem setBuffer_rb (bs : List Byte) (s : State) : (setBuffer bs s).rb = s.rb := rfl
@[simp] theorem setBuffer_aOpen (bs : List Byte) (s : State) : (setBuffer bs s).aOpen = s.aOpen := rfl
@[simp] theorem setBuffer_aNode (bs : List Byte) (s : State) : (setBuffer bs s).aNode = s.aNode := rfl
@[simp] theorem setBuffer_aNext (bs : List Byte) (s : State) : (setBuffer bs s).aNext = s.aNext := rfl
@[simp] theorem setBuffer_aT (bs : List Byte) (s : State) : (setBuffer bs s).aT = s.aT := rfl
@[simp] theorem setBuffer_aN (bs : List Byte) (s : State) : (setBuffer bs s).aN = s.aN := rfl
@[simp] theorem setBuffer_ab (bs : List Byte) (s : State) : (setBuffer bs s).ab = s.ab := rfl
@[simp] theorem setBuffer_tx (bs : List Byte) (s : State) : (setBuffer bs s).tx = s.tx := rfl
@[simp] theorem setBuffer_inbox (bs : List Byte) (s : State) : (setBuffer bs s).inbox = s.inbox := rfl
@[simp] theorem setBuffer_reads (bs : List Byte) (s : State) : (setBuffer bs s).reads = s.reads := rfl
@[simp] theorem setBuffer_resets (bs : List Byte) (s : State) : (setBuffer bs s).resets = s.resets := rfl

@[simp] theorem sendAll_cfg (fs : List Frame) (s : State) : (sendAll fs s).cfg = s.cfg := rfl
@[simp] theorem sendAll_status (fs : List Frame) (s : State) : (sendAll fs s).status = s.status := rfl
@[simp] theorem sendAll_plen (fs : List Frame) (s : State) : (sendAll fs s).plen = s.plen := rfl
@[simp] theorem sendAll_vaddr (fs : List Frame) (s : State) : (sendAll fs s).vaddr = s.vaddr := rfl
@[simp] theorem sendAll_vlen (fs : List Frame) (s : State) : (sendAll fs s).vlen = s.vlen := rfl
@[simp] theorem sendAll_poff (fs : List Frame) (s : State) : (sendAll fs s).poff = s.poff := rfl
@[simp] theorem sendAll_pn (fs : List Frame) (s : State) : (sendAll fs s).pn = s.pn := rfl
@[simp] theorem sendAll_res (fs : List Frame) (s : State) : (sendAll fs s).res = s.res := rfl
@[simp] theorem sendAll_outn (fs : List Frame) (s : State) : (sendAll fs s).outn = s.outn := rfl
@[simp] theorem sendAll_bud (fs : List Frame) (s : State) : (sendAll fs s).bud = s.bud := rfl
@[simp] theorem sendAll_pkt (fs : List Frame) (s : State) : (sendAll fs s).pkt = s.pkt := rfl
@[simp] theorem sendAll_out (fs : List Frame) (s : State) : (sendAll fs s).out = s.out := rfl
@[simp] theorem sendAll_opr (fs : List Frame) (s : State) : (sendAll fs s).opr = s.opr := rfl
@[simp] theorem sendAll_knode (fs : List Frame) (s : State) : (sendAll fs s).knode = s.knode := rfl
@[simp] theorem sendAll_sph (fs : List Frame) (s : State) : (sendAll fs s).sph = s.sph := rfl
@[simp] theorem sendAll_rn (fs : List Frame) (s : State) : (sendAll fs s).rn = s.rn := rfl
@[simp] theorem sendAll_rb (fs : List Frame) (s : State) : (sendAll fs s).rb = s.rb := rfl
@[simp] theorem sendAll_aOpen (fs : List Frame) (s : State) : (sendAll fs s).aOpen = s.aOpen := rfl
@[simp] theorem sendAll_aNode (fs : List Frame) (s : State) : (sendAll fs s).aNode = s.aNode := rfl
@[simp] theorem sendAll_aNext (fs : List Frame) (s : State) : (sendAll fs s).aNext = s.aNext := rfl
@[simp] theorem sendAll_aT (fs : List Frame) (s : State) : (sendAll fs s).aT = s.aT := rfl
@[simp] theorem sendAll_aN (fs : List Frame) (s : State) : (sendAll fs s).aN = s.aN := rfl
@[simp] theorem sendAll_ab (fs : List Frame) (s : State) : (sendAll fs s).ab = s.ab := rfl
@[simp] theorem sendAll_tx (fs : List Frame) (s : State) : (sendAll fs s).tx = s.tx ++ fs := rfl
@[simp] theorem sendAll_inbox (fs : List Frame) (s : State) : (sendAll fs s).inbox = s.inbox := rfl
@[simp] theorem sendAll_reads (fs : List Frame) (s : State) : (sendAll fs s).reads = s.reads := rfl
@[simp] theorem sendAll_resets (fs : List Frame) (s : State) : (sendAll fs s).resets = s.resets := rfl

@[simp] theorem startReassembly_cfg (o : Opr) (s : State) : (startReassembly o s).cfg = s.cfg := rfl
@[simp] theorem startReassembly_status (o : Opr) (s : State) : (startReassembly o s).status = statusRunning s.status := rfl
@[simp] theorem startReassembly_plen (o : Opr) (s : State) : (startReassembly o s).plen = s.plen := rfl
@[simp] theorem startReassembly_vaddr (o : Opr) (s : State) : (startReassembly o s).vaddr = s.vaddr := rfl
@[simp] theorem startReassembly_vlen (o : Opr) (s : State) : (startReassembly o s).vlen = s.vlen := rfl
@[simp] theorem startReassembly_poff (o : Opr) (s : State) : (startReassembly o s).poff = s.poff := rfl
@[simp] theorem startReassembly_pn (o : Opr) (s : State) : (startReassembly o s).pn = s.pn := rfl
@[simp] theorem startReassembly_res (o : Opr) (s : State) : (startReassembly o s).res = s.res := rfl
@[simp] theorem startReassembly_outn (o : Opr) (s : State) : (startReassembly o s).outn = s.outn := rfl
@[simp] theorem startReassembly_bud (o : Opr) (s : State) : (startReassembly o s).bud = s.cfg.rxBudget := rfl
@[simp] theorem startReassembly_pkt (o : Opr) (s : State) : (startReassembly o s).pkt = s.pkt := rfl
@[simp] theorem startReassembly_out (o : Opr) (s : State) : (startReassembly o s).out = s.out := rfl
@[simp] theorem startReassembly_opr (o : Opr) (s : State) : (startReassembly o s).opr = o := rfl
@[simp] theorem startReassembly_knode (o : Opr) (s : State) : (startReassembly o s).knode = s.knode := rfl
@[simp] theorem startReassembly_sph (o : Opr) (s : State) : (startReassembly o s).sph = s.sph := rfl
@[simp] theorem startReassembly_rn (o : Opr) (s : State) : (startReassembly o s).rn = s.rn := rfl
@[simp] theorem startReassembly_rb (o : Opr) (s : State) : (startReassembly o s).rb = s.rb := rfl
@[simp] theorem startReassembly_aOpen (o : Opr) (s : State) : (startReassembly o s).aOpen = s.aOpen := rfl
@[simp] theorem startReassembly_aNode (o : Opr) (s : State) : (startReassembly o s).aNode = s.aNode := rfl
@[simp] theorem startReassembly_aNext (o : Opr) (s : State) : (startReassembly o s).aNext = s.aNext := rfl
@[simp] theorem startReassembly_aT (o : Opr) (s : State) : (startReassembly o s).aT = s.aT := rfl
@[simp] theorem startReassembly_aN (o : Opr) (s : State) : (startReassembly o s).aN = s.aN := rfl
@[simp] theorem startReassembly_ab (o : Opr) (s : State) : (startReassembly o s).ab = s.ab := rfl
@[simp] theorem startReassembly_tx (o : Opr) (s : State) : (startReassembly o s).tx = s.tx := rfl
@[simp] theorem startReassembly_inbox (o : Opr) (s : State) : (startReassembly o s).inbox = s.inbox := rfl
@[simp] theorem startReassembly_reads (o : Opr) (s : State) : (startReassembly o s).reads = s.reads := rfl
@[simp] theorem startReassembly_resets (o : Opr) (s : State) : (startReassembly o s).resets = s.resets := rfl

@[simp] theorem softReset_cfg (s : State) : (softReset s).cfg = s.cfg := rfl
@[simp] theorem softReset_status (s : State) : (softReset s).status = { s.status with ovr := false } := rfl
@[simp] theorem softReset_plen (s : State) : (softReset s).plen = s.plen := rfl
@[simp] theorem softReset_vaddr (s : State) : (softReset s).vaddr = 0 := rfl
@[simp] theorem softReset_vlen (s : State) : (softReset s).vlen = 0 := rfl
@[simp] theorem softReset_poff (s : State) : (softReset s).poff = 0 := rfl
@[simp] theorem softReset_pn (s : State) : (softReset s).pn = 0 := rfl
@[simp] theorem softReset_res (s : State) : (softReset s).res = Value.absent := rfl
@[simp] theorem softReset_outn (s : State) : (softReset s).outn = 0 := rfl
@[simp] theorem softReset_bud (s : State) : (softReset s).bud = 0 := rfl
@[simp] theorem softReset_pkt (s : State) : (softReset s).pkt = s.pkt := rfl
@[simp] theorem softReset_out (s : State) : (softReset s).out = s.out := rfl
@[simp] theorem softReset_opr (s : State) : (softReset s).opr = s.opr := rfl
@[simp] theorem softReset_knode (s : State) : (softReset s).knode = s.knode := rfl
@[simp] theorem softReset_sph (s : State) : (softReset s).sph = .idle := rfl
@[simp] theorem softReset_rn (s : State) : (softReset s).rn = 0 := rfl
@[simp] theorem softReset_rb (s : State) : (softReset s).rb = s.rb := rfl
@[simp] theorem softReset_aOpen (s : State) : (softReset s).aOpen = false := rfl
@[simp] theorem softReset_aNode (s : State) : (softReset s).aNode = 0 := rfl
@[simp] theorem softReset_aNext (s : State) : (softReset s).aNext = 1 := rfl
@[simp] theorem softReset_aT (s : State) : (softReset s).aT = 0 := rfl
@[simp] theorem softReset_aN (s : State) : (softReset s).aN = 0 := rfl
@[simp] theorem softReset_ab (s : State) : (softReset s).ab = s.ab := rfl
@[simp] theorem softReset_tx (s : State) : (softReset s).tx = s.tx := rfl
@[simp] theorem softReset_inbox (s : State) : (softReset s).inbox = s.inbox := rfl
@[simp] theorem softReset_reads (s : State) : (softReset s).reads = s.reads := rfl
@[simp] theorem softReset_resets (s : State) : (softReset s).resets = s.resets := rfl

@[simp] theorem onSentinelStart_cfg (s : State) : (onSentinelStart s).cfg = s.cfg := rfl
@[simp] theorem onSentinelStart_status (s : State) : (onSentinelStart s).status = s.status := rfl
@[simp] theorem onSentinelStart_plen (s : State) : (onSentinelStart s).plen = s.plen := rfl
@[simp] theorem onSentinelStart_vaddr (s : State) : (onSentinelStart s).vaddr = s.vaddr := rfl
@[simp] theorem onSentinelStart_vlen (s : State) : (onSentinelStart s).vlen = s.vlen := rfl
@[simp] theorem onSentinelStart_poff (s : State) : (onSentinelStart s).poff = s.poff := rfl
@[simp] theorem onSentinelStart_pn (s : State) : (onSentinelStart s).pn = s.pn := rfl
@[simp] theorem onSentinelStart_res (s : State) : (onSentinelStart s).res = s.res := rfl
@[simp] theorem onSentinelStart_outn (s : State) : (onSentinelStart s).outn = s.outn := rfl
@[simp] theorem onSentinelStart_bud (s : State) : (onSentinelStart s).bud = s.bud := rfl
@[simp] theorem onSentinelStart_pkt (s : State) : (onSentinelStart s).pkt = s.pkt := rfl
@[simp] theorem onSentinelStart_out (s : State) : (onSentinelStart s).out = s.out := rfl
@[simp] theorem onSentinelStart_opr (s : State) : (onSentinelStart s).opr = s.opr := rfl
@[simp] theorem onSentinelStart_knode (s : State) : (onSentinelStart s).knode = s.knode := rfl
@[simp] theorem onSentinelStart_sph (s : State) : (onSentinelStart s).sph = .start := rfl
@[simp] theorem onSentinelStart_rn (s : State) : (onSentinelStart s).rn = 0 := rfl
@[simp] theorem onSentinelStart_rb (s : State) : (onSentinelStart s).rb = s.rb := rfl
@[simp] theorem onSentinelStart_aOpen (s : State) : (onSentinelStart s).aOpen = s.aOpen := rfl
@[simp] theorem onSentinelStart_aNode (s : State) : (onSentinelStart s).aNode = s.aNode := rfl
@[simp] theorem onSentinelStart_aNext (s : State) : (onSentinelStart s).aNext = s.aNext := rfl
@[simp] theorem onSentinelStart_aT (s : State) : (onSentinelStart s).aT = s.aT := rfl
@[simp] theorem onSentinelStart_aN (s : State) : (onSentinelStart s).aN = s.aN := rfl
@[simp] theorem onSentinelStart_ab (s : State) : (onSentinelStart s).ab = s.ab := rfl
@[simp] theorem onSentinelStart_tx (s : State) : (onSentinelStart s).tx = s.tx := rfl
@[simp] theorem onSentinelStart_inbox (s : State) : (onSentinelStart s).inbox = s.inbox := rfl
@[simp] theorem onSentinelStart_reads (s : State) : (onSentinelStart s).reads = s.reads := rfl
@[simp] theorem onSentinelStart_resets (s : State) : (onSentinelStart s).resets = s.resets := rfl

@[simp] theorem abandon_cfg (s : State) : (abandon s).cfg = s.cfg := rfl
@[simp] theorem abandon_status (s : State) : (abandon s).status = s.status := rfl
@[simp] theorem abandon_plen (s : State) : (abandon s).plen = s.plen := rfl
@[simp] theorem abandon_vaddr (s : State) : (abandon s).vaddr = s.vaddr := rfl
@[simp] theorem abandon_vlen (s : State) : (abandon s).vlen = s.vlen := rfl
@[simp] theorem abandon_poff (s : State) : (abandon s).poff = s.poff := rfl
@[simp] theorem abandon_pn (s : State) : (abandon s).pn = s.pn := rfl
@[simp] theorem abandon_res (s : State) : (abandon s).res = s.res := rfl
@[simp] theorem abandon_outn (s : State) : (abandon s).outn = s.outn := rfl
@[simp] theorem abandon_bud (s : State) : (abandon s).bud = s.bud := rfl
@[simp] theorem abandon_pkt (s : State) : (abandon s).pkt = s.pkt := rfl
@[simp] theorem abandon_out (s : State) : (abandon s).out = s.out := rfl
@[simp] theorem abandon_opr (s : State) : (abandon s).opr = s.opr := rfl
@[simp] theorem abandon_knode (s : State) : (abandon s).knode = s.knode := rfl
@[simp] theorem abandon_sph (s : State) : (abandon s).sph = .idle := rfl
@[simp] theorem abandon_rn (s : State) : (abandon s).rn = 0 := rfl
@[simp] theorem abandon_rb (s : State) : (abandon s).rb = s.rb := rfl
@[simp] theorem abandon_aOpen (s : State) : (abandon s).aOpen = s.aOpen := rfl
@[simp] theorem abandon_aNode (s : State) : (abandon s).aNode = s.aNode := rfl
@[simp] theorem abandon_aNext (s : State) : (abandon s).aNext = s.aNext := rfl
@[simp] theorem abandon_aT (s : State) : (abandon s).aT = s.aT := rfl
@[simp] theorem abandon_aN (s : State) : (abandon s).aN = s.aN := rfl
@[simp] theorem abandon_ab (s : State) : (abandon s).ab = s.ab := rfl
@[simp] theorem abandon_tx (s : State) : (abandon s).tx = s.tx := rfl
@[simp] theorem abandon_inbox (s : State) : (abandon s).inbox = s.inbox := rfl
@[simp] theorem abandon_reads (s : State) : (abandon s).reads = s.reads := rfl
@[simp] theorem abandon_resets (s : State) : (abandon s).resets = s.resets := rfl

@[simp] theorem packetAccepted_cfg (s : State) : (packetAccepted s).cfg = s.cfg := rfl
@[simp] theorem packetAccepted_status (s : State) : (packetAccepted s).status = s.status := rfl
@[simp] theorem packetAccepted_plen (s : State) : (packetAccepted s).plen = s.plen := rfl
@[simp] theorem packetAccepted_vaddr (s : State) : (packetAccepted s).vaddr = pktByte s 2 := rfl
@[simp] theorem packetAccepted_vlen (s : State) : (packetAccepted s).vlen = pktByte s 3 := rfl
@[simp] theorem packetAccepted_poff (s : State) : (packetAccepted s).poff = 4 + min 2 ((pktByte s 3).toNat - 2) := rfl
@[simp] theorem packetAccepted_pn (s : State) : (packetAccepted s).pn = ((pktByte s 3).toNat - 2) - min 2 ((pktByte s 3).toNat - 2) := rfl
@[simp] theorem packetAccepted_res (s : State) : (packetAccepted s).res = s.res := rfl
@[simp] theorem packetAccepted_outn (s : State) : (packetAccepted s).outn = s.outn := rfl
@[simp] theorem packetAccepted_bud (s : State) : (packetAccepted s).bud = s.bud := rfl
@[simp] theorem packetAccepted_pkt (s : State) : (packetAccepted s).pkt = s.pkt := rfl
@[simp] theorem packetAccepted_out (s : State) : (packetAccepted s).out = s.out := rfl
@[simp] theorem packetAccepted_opr (s : State) : (packetAccepted s).opr = s.opr := rfl
@[simp] theorem packetAccepted_knode (s : State) : (packetAccepted s).knode = s.knode := rfl
@[simp] theorem packetAccepted_sph (s : State) : (packetAccepted s).sph = s.sph := rfl
@[simp] theorem packetAccepted_rn (s : State) : (packetAccepted s).rn = s.rn := rfl
@[simp] theorem packetAccepted_rb (s : State) : (packetAccepted s).rb = s.rb := rfl
@[simp] theorem packetAccepted_aOpen (s : State) : (packetAccepted s).aOpen = s.aOpen := rfl
@[simp] theorem packetAccepted_aNode (s : State) : (packetAccepted s).aNode = s.aNode := rfl
@[simp] theorem packetAccepted_aNext (s : State) : (packetAccepted s).aNext = s.aNext := rfl
@[simp] theorem packetAccepted_aT (s : State) : (packetAccepted s).aT = s.aT := rfl
@[simp] theorem packetAccepted_aN (s : State) : (packetAccepted s).aN = s.aN := rfl
@[simp] theorem packetAccepted_ab (s : State) : (packetAccepted s).ab = s.ab := rfl
@[simp] theorem packetAccepted_tx (s : State) : (packetAccepted s).tx = s.tx := rfl
@[simp] theorem packetAccepted_inbox (s : State) : (packetAccepted s).inbox = s.inbox := rfl
@[simp] theorem packetAccepted_reads (s : State) : (packetAccepted s).reads = s.reads := rfl
@[simp] theorem packetAccepted_resets (s : State) : (packetAccepted s).resets = s.resets := rfl

@[simp] theorem completeAddressed_cfg (s : State) : (completeAddressed s).cfg = s.cfg := rfl
@[simp] theorem completeAddressed_status (s : State) : (completeAddressed s).status = statusFinished .ok s.status := rfl
@[simp] theorem completeAddressed_plen (s : State) : (completeAddressed s).plen = (abBytes s s.aT).length := rfl
@[simp] theorem completeAddressed_vaddr (s : State) : (completeAddressed s).vaddr = 0 := rfl
@[simp] theorem completeAddressed_vlen (s : State) : (completeAddressed s).vlen = 0 := rfl
@[simp] theorem completeAddressed_poff (s : State) : (completeAddressed s).poff = 0 := rfl
@[simp] theorem completeAddressed_pn (s : State) : (completeAddressed s).pn = 0 := rfl
@[simp] theorem completeAddressed_res (s : State) : (completeAddressed s).res = s.res := rfl
@[simp] theorem completeAddressed_outn (s : State) : (completeAddressed s).outn = s.outn := rfl
@[simp] theorem completeAddressed_bud (s : State) : (completeAddressed s).bud = s.bud := rfl
@[simp] theorem completeAddressed_pkt (s : State) : (completeAddressed s).pkt = blit 0 (abBytes s s.aT) s.pkt := rfl
@[simp] theorem completeAddressed_out (s : State) : (completeAddressed s).out = s.out := rfl
@[simp] theorem completeAddressed_opr (s : State) : (completeAddressed s).opr = .none := rfl
@[simp] theorem completeAddressed_knode (s : State) : (completeAddressed s).knode = s.knode := rfl
@[simp] theorem completeAddressed_sph (s : State) : (completeAddressed s).sph = s.sph := rfl
@[simp] theorem completeAddressed_rn (s : State) : (completeAddressed s).rn = s.rn := rfl
@[simp] theorem completeAddressed_rb (s : State) : (completeAddressed s).rb = s.rb := rfl
@[simp] theorem completeAddressed_aOpen (s : State) : (completeAddressed s).aOpen = false := rfl
@[simp] theorem completeAddressed_aNode (s : State) : (completeAddressed s).aNode = s.aNode := rfl
@[simp] theorem completeAddressed_aNext (s : State) : (completeAddressed s).aNext = 1 := rfl
@[simp] theorem completeAddressed_aT (s : State) : (completeAddressed s).aT = s.aT := rfl
@[simp] theorem completeAddressed_aN (s : State) : (completeAddressed s).aN = 0 := rfl
@[simp] theorem completeAddressed_ab (s : State) : (completeAddressed s).ab = s.ab := rfl
@[simp] theorem completeAddressed_tx (s : State) : (completeAddressed s).tx = s.tx := rfl
@[simp] theorem completeAddressed_inbox (s : State) : (completeAddressed s).inbox = s.inbox := rfl
@[simp] theorem completeAddressed_reads (s : State) : (completeAddressed s).reads = s.reads := rfl
@[simp] theorem completeAddressed_resets (s : State) : (completeAddressed s).resets = s.resets := rfl

@[simp] theorem applyReset_cfg (s : State) : (applyReset s).cfg = s.cfg := rfl
@[simp] theorem applyReset_status (s : State) : (applyReset s).status = { busy := false, done := false, ovr := false, code := .ok } := rfl
@[simp] theorem applyReset_plen (s : State) : (applyReset s).plen = 0 := rfl
@[simp] theorem applyReset_vaddr (s : State) : (applyReset s).vaddr = 0 := rfl
@[simp] theorem applyReset_vlen (s : State) : (applyReset s).vlen = 0 := rfl
@[simp] theorem applyReset_poff (s : State) : (applyReset s).poff = 0 := rfl
@[simp] theorem applyReset_pn (s : State) : (applyReset s).pn = 0 := rfl
@[simp] theorem applyReset_res (s : State) : (applyReset s).res = Value.absent := rfl
@[simp] theorem applyReset_outn (s : State) : (applyReset s).outn = 0 := rfl
@[simp] theorem applyReset_bud (s : State) : (applyReset s).bud = 0 := rfl
@[simp] theorem applyReset_pkt (s : State) : (applyReset s).pkt = [] := rfl
@[simp] theorem applyReset_out (s : State) : (applyReset s).out = [] := rfl
@[simp] theorem applyReset_opr (s : State) : (applyReset s).opr = .none := rfl
@[simp] theorem applyReset_knode (s : State) : (applyReset s).knode = 0 := rfl
@[simp] theorem applyReset_sph (s : State) : (applyReset s).sph = .idle := rfl
@[simp] theorem applyReset_rn (s : State) : (applyReset s).rn = 0 := rfl
@[simp] theorem applyReset_rb (s : State) : (applyReset s).rb = [] := rfl
@[simp] theorem applyReset_aOpen (s : State) : (applyReset s).aOpen = false := rfl
@[simp] theorem applyReset_aNode (s : State) : (applyReset s).aNode = 0 := rfl
@[simp] theorem applyReset_aNext (s : State) : (applyReset s).aNext = 1 := rfl
@[simp] theorem applyReset_aT (s : State) : (applyReset s).aT = 0 := rfl
@[simp] theorem applyReset_aN (s : State) : (applyReset s).aN = 0 := rfl
@[simp] theorem applyReset_ab (s : State) : (applyReset s).ab = [] := rfl
@[simp] theorem applyReset_tx (s : State) : (applyReset s).tx = [] := rfl
@[simp] theorem applyReset_inbox (s : State) : (applyReset s).inbox = s.inbox := rfl
@[simp] theorem applyReset_reads (s : State) : (applyReset s).reads = s.reads := rfl
@[simp] theorem applyReset_resets (s : State) : (applyReset s).resets = s.resets + 1 := rfl

@[simp] theorem pktByte_clearWindow (s : State) (i : Nat) : pktByte (clearWindow s) i = pktByte s i := rfl
@[simp] theorem rbByte_clearWindow (s : State) (i : Nat) : rbByte (clearWindow s) i = rbByte s i := rfl
@[simp] theorem abByte_clearWindow (s : State) (i : Nat) : abByte (clearWindow s) i = abByte s i := rfl
@[simp] theorem pktByte_accept (s : State) (i : Nat) : pktByte (accept s) i = pktByte s i := rfl
@[simp] theorem rbByte_accept (s : State) (i : Nat) : rbByte (accept s) i = rbByte s i := rfl
@[simp] theorem abByte_accept (s : State) (i : Nat) : abByte (accept s) i = abByte s i := rfl
@[simp] theorem winByte_accept (s : State) (i : Nat) : winByte (accept s) i = winByte s i := rfl
@[simp] theorem pktByte_overrun (s : State) (i : Nat) : pktByte (overrun s) i = pktByte s i := rfl
@[simp] theorem rbByte_overrun (s : State) (i : Nat) : rbByte (overrun s) i = rbByte s i := rfl
@[simp] theorem abByte_overrun (s : State) (i : Nat) : abByte (overrun s) i = abByte s i := rfl
@[simp] theorem winByte_overrun (s : State) (i : Nat) : winByte (overrun s) i = winByte s i := rfl
@[simp] theorem pktByte_onSentinelStart (s : State) (i : Nat) : pktByte (onSentinelStart s) i = pktByte s i := rfl
@[simp] theorem rbByte_onSentinelStart (s : State) (i : Nat) : rbByte (onSentinelStart s) i = rbByte s i := rfl
@[simp] theorem abByte_onSentinelStart (s : State) (i : Nat) : abByte (onSentinelStart s) i = abByte s i := rfl
@[simp] theorem winByte_onSentinelStart (s : State) (i : Nat) : winByte (onSentinelStart s) i = winByte s i := rfl
@[simp] theorem pktByte_abandon (s : State) (i : Nat) : pktByte (abandon s) i = pktByte s i := rfl
@[simp] theorem rbByte_abandon (s : State) (i : Nat) : rbByte (abandon s) i = rbByte s i := rfl
@[simp] theorem abByte_abandon (s : State) (i : Nat) : abByte (abandon s) i = abByte s i := rfl
@[simp] theorem winByte_abandon (s : State) (i : Nat) : winByte (abandon s) i = winByte s i := rfl
@[simp] theorem pktByte_softReset (s : State) (i : Nat) : pktByte (softReset s) i = pktByte s i := rfl
@[simp] theorem rbByte_softReset (s : State) (i : Nat) : rbByte (softReset s) i = rbByte s i := rfl
@[simp] theorem abByte_softReset (s : State) (i : Nat) : abByte (softReset s) i = abByte s i := rfl
@[simp] theorem pktByte_packetAccepted (s : State) (i : Nat) : pktByte (packetAccepted s) i = pktByte s i := rfl
@[simp] theorem rbByte_packetAccepted (s : State) (i : Nat) : rbByte (packetAccepted s) i = rbByte s i := rfl
@[simp] theorem abByte_packetAccepted (s : State) (i : Nat) : abByte (packetAccepted s) i = abByte s i := rfl
@[simp] theorem pktByte_finish (c : Code) (s : State) (i : Nat) : pktByte (finish c s) i = pktByte s i := rfl
@[simp] theorem pktByte_sendAll (fs : List Frame) (s : State) (i : Nat) : pktByte (sendAll fs s) i = pktByte s i := rfl
@[simp] theorem pktByte_startReassembly (o : Opr) (s : State) (i : Nat) : pktByte (startReassembly o s) i = pktByte s i := rfl
@[simp] theorem rbByte_finish (c : Code) (s : State) (i : Nat) : rbByte (finish c s) i = rbByte s i := rfl
@[simp] theorem rbByte_sendAll (fs : List Frame) (s : State) (i : Nat) : rbByte (sendAll fs s) i = rbByte s i := rfl
@[simp] theorem rbByte_startReassembly (o : Opr) (s : State) (i : Nat) : rbByte (startReassembly o s) i = rbByte s i := rfl
@[simp] theorem abByte_finish (c : Code) (s : State) (i : Nat) : abByte (finish c s) i = abByte s i := rfl
@[simp] theorem abByte_sendAll (fs : List Frame) (s : State) (i : Nat) : abByte (sendAll fs s) i = abByte s i := rfl
@[simp] theorem abByte_startReassembly (o : Opr) (s : State) (i : Nat) : abByte (startReassembly o s) i = abByte s i := rfl
@[simp] theorem winByte_finish (c : Code) (s : State) (i : Nat) : winByte (finish c s) i = winByte s i := rfl
@[simp] theorem winByte_sendAll (fs : List Frame) (s : State) (i : Nat) : winByte (sendAll fs s) i = winByte s i := rfl
@[simp] theorem winByte_startReassembly (o : Opr) (s : State) (i : Nat) : winByte (startReassembly o s) i = winByte s i := rfl

@[simp] theorem pktBytes_accept (s : State) (b n : Nat) : pktBytes (accept s) b n = pktBytes s b n := rfl
@[simp] theorem memRead_accept (s : State) (o n : Nat) : memRead (accept s) o n = memRead s o n := rfl
@[simp] theorem fieldG_accept (k : FieldKind) (s : State) (off : Nat) (sent : Sent) (mul : Nat) (add : Int) (exp : BitVec 4)
    (unit : UnitCode) : fieldG k (accept s) off sent mul add exp unit = fieldG k s off sent mul add exp unit := rfl
@[simp] theorem fieldBit_accept (s : State) (off bit : Nat) : fieldBit (accept s) off bit = fieldBit s off bit := rfl
@[simp] theorem fieldCode_accept (s : State) (off : Nat) (t : Byte) : fieldCode (accept s) off t = fieldCode s off t := rfl
@[simp] theorem fieldTime_accept (s : State) (off : Nat) : fieldTime (accept s) off = fieldTime s off := rfl
@[simp] theorem voltageEntries_accept (s : State) : voltageEntries (accept s) = voltageEntries s := rfl
@[simp] theorem currentEntries_accept (s : State) : currentEntries (accept s) = currentEntries s := rfl
@[simp] theorem powerEntries_accept (s : State) : powerEntries (accept s) = powerEntries s := rfl
@[simp] theorem depadTo_accept (s : State) : depadTo (accept s) = depadTo s := rfl
@[simp] theorem firstFailure_accept (e : Byte) (s : State) : firstFailure e (accept s) = firstFailure e s := rfl

@[simp] theorem statusFinished_busy (c : Code) (st : Status) : (statusFinished c st).busy = false := rfl
@[simp] theorem statusFinished_done (c : Code) (st : Status) : (statusFinished c st).done = true := rfl
@[simp] theorem statusFinished_ovr (c : Code) (st : Status) : (statusFinished c st).ovr = st.ovr := rfl
@[simp] theorem statusFinished_code (c : Code) (st : Status) : (statusFinished c st).code = c := rfl
@[simp] theorem statusAccepted_busy (st : Status) : (statusAccepted st).busy = st.busy := rfl
@[simp] theorem statusAccepted_done (st : Status) : (statusAccepted st).done = false := rfl
@[simp] theorem statusAccepted_ovr (st : Status) : (statusAccepted st).ovr = st.ovr := rfl
@[simp] theorem statusAccepted_code (st : Status) : (statusAccepted st).code = .ok := rfl
@[simp] theorem statusRunning_busy (st : Status) : (statusRunning st).busy = true := rfl
@[simp] theorem statusRunning_done (st : Status) : (statusRunning st).done = false := rfl
@[simp] theorem statusRunning_ovr (st : Status) : (statusRunning st).ovr = st.ovr := rfl
@[simp] theorem statusRunning_code (st : Status) : (statusRunning st).code = .ok := rfl
@[simp] theorem statusOverrun_busy (st : Status) : (statusOverrun st).busy = st.busy := rfl
@[simp] theorem statusOverrun_done (st : Status) : (statusOverrun st).done = st.done := rfl
@[simp] theorem statusOverrun_ovr (st : Status) : (statusOverrun st).ovr = true := rfl
@[simp] theorem statusOverrun_code (st : Status) : (statusOverrun st).code = st.code := rfl

end Sys2Proof.Machine
end

