-- ==== Sys2Proof/Laws/Ops.lean ====
section
/-! SUPPORT. What each shared operation can do, said once: accepting and ending a command, a receive attempt, reads after
writes of the byte buffers, the window, the host's accesses. -/

namespace Sys2Proof.Machine

/-! ## Commands -/

/-- An idle block accepts and runs the command. -/
theorem hostCommand_idle {run : State → State} {s : State} (h : s.status.busy = false) :
    hostCommand run s = .next (run (accept s)) := by
  simp [hostCommand, h]

/-- A busy block drops it and sets `OVR` (R32). -/
theorem hostCommand_busy {run : State → State} {s : State} (h : s.status.busy = true) :
    hostCommand run s = .next (overrun s) := by
  simp [hostCommand, h]

/-- A presented command always has a next state: the drop, or the command's run from the accepted state. -/
theorem hostCommand_cases (run : State → State) (s t : State) (h : hostCommand run s = .next t) :
    (s.status.busy = true ∧ t = overrun s) ∨ (s.status.busy = false ∧ t = run (accept s)) := by
  cases hb : s.status.busy <;> simp_all [hostCommand]

/-- Accepting and ending with `c` is `ended c`. -/
theorem finish_accept (c : Code) (s : State) : finish c (accept s) = ended c s := rfl

/-- A field read of an idle block: the value of its window in `RES`, and `OK`. -/
theorem readField_idle (value : State → Value) (s : State) (h : s.status.busy = false) :
    readField value s = .next { ended .ok s with res := value (accept s) } := by
  simp [readField, hostCommand_idle h]; rfl

/-- A decode program of an idle block: its entries in `OUT`, their number in `OUTN`, and `OK`. -/
theorem decodeProgram_idle (entries : State → List Entry) (s : State) (h : s.status.busy = false) :
    decodeProgram entries s = .next { ended .ok s with
      out := outWrite (entries (accept s)) s.out, outn := (entries (accept s)).length } := by
  simp [decodeProgram, hostCommand_idle h]; rfl

/-! ## Receive attempts -/

/-- One receive attempt: the frame rule, then completion, exhaustion, or neither (R151). -/
theorem attempt_cases (rule : State → State) (s : State) :
    (attempt rule s = rule { s with bud := s.bud - 1 } ∧ (rule { s with bud := s.bud - 1 }).opr = .none)
    ∨ (attempt rule s = finish .timeout (rule { s with bud := s.bud - 1 })
        ∧ (rule { s with bud := s.bud - 1 }).opr ≠ .none ∧ (rule { s with bud := s.bud - 1 }).bud = 0)
    ∨ (attempt rule s = rule { s with bud := s.bud - 1 }
        ∧ (rule { s with bud := s.bud - 1 }).opr ≠ .none ∧ (rule { s with bud := s.bud - 1 }).bud ≠ 0) := by
  by_cases h1 : (rule { s with bud := s.bud - 1 }).opr = .none
  · simp [attempt, h1]
  · by_cases h2 : (rule { s with bud := s.bud - 1 }).bud = 0 <;> simp [attempt, h1, h2]

/-- A frame rule that does not end the command, in a block whose command runs. -/
theorem attempt_running (rule : State → State) (s : State)
    (h : (rule { s with bud := s.bud - 1 }).opr ≠ .none) :
    attempt rule s = timeoutAtZero (rule { s with bud := s.bud - 1 }) := by
  simp only [attempt, h, if_false, timeoutAtZero]; rfl

/-- A frame of a class the running command receives is one attempt. -/
theorem receive_running {o : Opr} {rule : State → State} {s : State} (h : s.opr = o) :
    receive o rule s = .next (attempt rule s) := by
  simp [receive, h]

/-- A frame of a class the running command does not receive is no event (R150). -/
theorem receive_refused {o : Opr} {rule : State → State} {s : State} (h : s.opr ≠ o) :
    receive o rule s = .refused .rxNotEnabled := by
  simp [receive, h]

theorem receive_next {o : Opr} {rule : State → State} {s t : State} (h : receive o rule s = .next t) :
    s.opr = o ∧ t = attempt rule s := by
  unfold receive at h
  split at h
  · exact ⟨‹_›, by simpa using h.symm⟩
  · cases h

/-! ## Byte buffers -/

@[simp] theorem pktBytes_length (s : State) (base n : Nat) : (pktBytes s base n).length = n := by simp [pktBytes]

@[simp] theorem rbBytes_length (s : State) (n : Nat) : (rbBytes s n).length = n := by simp [rbBytes]

@[simp] theorem abBytes_length (s : State) (n : Nat) : (abBytes s n).length = n := by simp [abBytes]

theorem pktBytes_getElem? (s : State) (base n i : Nat) (h : i < n) :
    (pktBytes s base n)[i]? = some (pktByte s (base + i)) := by
  simp [pktBytes, h]

theorem rbBytes_getElem? (s : State) (n i : Nat) (h : i < n) : (rbBytes s n)[i]? = some (rbByte s i) := by
  simp [rbBytes, h]

theorem abBytes_getElem? (s : State) (n i : Nat) (h : i < n) : (abBytes s n)[i]? = some (abByte s i) := by
  simp [abBytes, h]

theorem blit_read (base : Nat) (bs : List Byte) (m : Memory) (a : Nat) (d : Byte) :
    (cellAt (blit base bs m) a).getD d
      = if base ≤ a ∧ a < base + bs.length then bs.getD (a - base) 0 else (cellAt m a).getD d := by
  rw [cellAt_blit]
  split
  · rename_i h
    have hlt : a - base < bs.length := by omega
    simp [List.getD_eq_getElem?_getD, List.getElem?_eq_getElem hlt]
  · rfl

/-- `PKT` after bytes are written: the new bytes in their range, the old ones elsewhere. -/
theorem pktByte_writePkt (base : Nat) (bs : List Byte) (s : State) (i : Nat) :
    pktByte (writePkt base bs s) i
      = if base ≤ i ∧ i < base + bs.length then bs.getD (i - base) 0 else pktByte s i :=
  blit_read base bs s.pkt i _

/-- `PKT` after the buffer is replaced: the new bytes, and the old ones beyond them. -/
theorem pktByte_setBuffer (bs : List Byte) (s : State) (i : Nat) :
    pktByte (setBuffer bs s) i = if i < bs.length then bs.getD i 0 else pktByte s i := by
  have h := blit_read 0 bs s.pkt i (Config.unwritten .pkt s.resets i)
  simp only [Nat.zero_le, true_and, Nat.zero_add, Nat.sub_zero] at h
  exact h

/-- `RB` after bytes are written. -/
theorem rbByte_blit (base : Nat) (bs : List Byte) (s : State) (i : Nat) :
    rbByte { s with rb := blit base bs s.rb } i
      = if base ≤ i ∧ i < base + bs.length then bs.getD (i - base) 0 else rbByte s i :=
  blit_read base bs s.rb i _

/-- `AB` after bytes are written. -/
theorem abByte_blit (base : Nat) (bs : List Byte) (s : State) (i : Nat) :
    abByte { s with ab := blit base bs s.ab } i
      = if base ≤ i ∧ i < base + bs.length then bs.getD (i - base) 0 else abByte s i :=
  blit_read base bs s.ab i _

/-! ## The window -/

/-- A window byte is there exactly below `PN` (R211). -/
theorem winByte_isSome (s : State) (o : Nat) : (winByte s o).isSome = decide (o < s.pn) := by
  unfold winByte; split <;> simp_all

/-- A multi-byte read answers exactly inside the window (R211). -/
theorem memRead_isSome (s : State) (o n : Nat) : (memRead s o n).isSome = decide (o + n ≤ s.pn) := by
  unfold memRead; split <;> simp_all

/-- A byte of a multi-byte read is the window byte at its offset. -/
theorem memRead_getElem? (s : State) (o n i : Nat) (bs : List Byte) (h : memRead s o n = some bs) (hi : i < n) :
    bs[i]? = winByte s (o + i) := by
  unfold memRead at h
  split at h
  · rename_i hp
    cases h
    rw [pktBytes_getElem? _ _ _ _ hi]
    have : o + i < s.pn := by omega
    simp [winByte, this, Nat.add_assoc]
  · cases h

/-- A one-byte read. -/
theorem memRead_one (s : State) (o : Nat) : memRead s o 1 = (winByte s o).map (fun b => [b]) := by
  unfold memRead winByte
  by_cases h : o < s.pn
  · have h1 : o + 1 ≤ s.pn := by omega
    simp [h, h1, pktBytes]
  · have h1 : ¬ o + 1 ≤ s.pn := by omega
    simp [h, h1]

/-- A two-byte read. -/
theorem memRead_two (s : State) (o : Nat) :
    memRead s o 2 = if o + 2 ≤ s.pn then some [pktByte s (s.poff + o), pktByte s (s.poff + o + 1)] else none := by
  unfold memRead; split <;> simp [pktBytes, List.range_succ]

/-- A four-byte read. -/
theorem memRead_four (s : State) (o : Nat) :
    memRead s o 4 = if o + 4 ≤ s.pn then some [pktByte s (s.poff + o), pktByte s (s.poff + o + 1),
      pktByte s (s.poff + o + 2), pktByte s (s.poff + o + 3)] else none := by
  unfold memRead; split <;> simp [pktBytes, List.range_succ]

/-- A six-byte read. -/
theorem memRead_six (s : State) (o : Nat) :
    memRead s o 6 = if o + 6 ≤ s.pn then some [pktByte s (s.poff + o), pktByte s (s.poff + o + 1),
      pktByte s (s.poff + o + 2), pktByte s (s.poff + o + 3), pktByte s (s.poff + o + 4), pktByte s (s.poff + o + 5)]
      else none := by
  unfold memRead; split <;> simp [pktBytes, List.range_succ]

/-- Every value a format G field read can leave (R216). -/
theorem fieldG_cases (k : FieldKind) (s : State) (off : Nat) (sent : Sent) (mul : Nat) (add : Int) (exp : BitVec 4)
    (unit : UnitCode) :
    (memRead s off (kindWidth k) = none ∧ fieldG k s off sent mul add exp unit = Value.absent)
    ∨ ∃ bs, memRead s off (kindWidth k) = some bs
        ∧ ((rawOf k bs = none ∧ fieldG k s off sent mul add exp unit = Value.corrupt)
          ∨ ∃ raw, rawOf k bs = some raw
            ∧ ((∃ m, sentinelResult sent = some m ∧ bs = [0xFF, 0xFF]
                  ∧ fieldG k s off sent mul add exp unit = Value.num unit exp m)
              ∨ ((sentinelResult sent = none ∨ bs ≠ [0xFF, 0xFF])
                  ∧ fieldG k s off sent mul add exp unit = Value.num unit exp (raw * mul + add)))) := by
  unfold fieldG
  cases hm : memRead s off (kindWidth k) with
  | none => exact .inl ⟨rfl, rfl⟩
  | some bs =>
    refine .inr ⟨bs, rfl, ?_⟩
    cases hr : rawOf k bs with
    | none => exact .inl ⟨rfl, by simp [hr]⟩
    | some raw =>
      refine .inr ⟨raw, rfl, ?_⟩
      cases hs : sentinelResult sent with
      | none => exact .inr ⟨.inl rfl, by simp [hr]⟩
      | some m =>
        by_cases hb : bs = [0xFF, 0xFF]
        · exact .inl ⟨m, rfl, hb, by simp only [hr, if_pos hb]⟩
        · exact .inr ⟨.inr hb, by simp only [hr, if_neg hb]⟩

/-! ## The step -/

/-- A step with nothing to take changes nothing. -/
theorem step_nil (s : State) (h : s.inbox = []) : step s = .next s := by simp [step, h]

/-- A step takes the oldest event. -/
theorem step_cons (s : State) (e : Event) (rest : List Event) (h : s.inbox = e :: rest) :
    step s = stepEvent e { s with inbox := rest } := by simp [step, h]

/-- A step with an event does what the event does. -/
theorem step_cases (s t : State) (h : step s = .next t) :
    (s.inbox = [] ∧ t = s) ∨ ∃ e rest, s.inbox = e :: rest ∧ stepEvent e { s with inbox := rest } = .next t := by
  cases hi : s.inbox with
  | nil => rw [step_nil s hi] at h; simp at h; exact .inl ⟨rfl, h.symm⟩
  | cons e rest => rw [step_cons s e rest hi] at h; exact .inr ⟨e, rest, rfl, h⟩

/-- What a host write of a buffer length does: dropped while busy, ignored above the capacity, else stored with the window
cleared (R34, R44, R47). -/
theorem writePlen_cases (v : Nat) (s : State) :
    (s.status.busy = true ∧ writePlen v s = overrun s)
    ∨ (s.status.busy = false ∧ pktCap < v ∧ writePlen v s = s)
    ∨ (s.status.busy = false ∧ v ≤ pktCap ∧ writePlen v s = clearWindow { s with plen := v }) := by
  unfold writePlen
  cases hb : s.status.busy
  · by_cases hv : pktCap < v
    · simp [hv]
    · simp [hv]; omega
  · simp

/-- What a host write of a buffer byte does (R35, R44, R47). -/
theorem writePktByte_cases (i : Nat) (b : Byte) (s : State) :
    (s.status.busy = true ∧ writePktByte i b s = overrun s)
    ∨ (s.status.busy = false ∧ writePktByte i b s = clearWindow (writePkt i [b] s)) := by
  unfold writePktByte
  cases hb : s.status.busy <;> simp

end Sys2Proof.Machine
end

