-- ==== Sys2Proof/Laws/Buffers.lean ====
section
/-! SUPPORT. What the packet bytes, the checks over them and the host's buffer writes are, once each. -/

namespace Sys2Proof.Machine

/-- A byte of `PKT[0..n)`. -/
theorem pktBytes_getElem (s : State) (n i : Nat) (h : i < (pktBytes s 0 n).length) :
    (pktBytes s 0 n)[i] = pktByte s i := by simp [pktBytes]

/-- A byte of `PKT[0..n)`, 0 beyond it (R73). -/
theorem pktBytes_getD (s : State) (n i : Nat) : (pktBytes s 0 n).getD i 0 = if i < n then pktByte s i else 0 := by
  by_cases h : i < n
  · simp [List.getD_eq_getElem?_getD, h, pktBytes_getElem]
  · simp [List.getD_eq_getElem?_getD, h]

/-- An SP packet has six bytes beside its body (R191). -/
theorem packetBytes_length (a : Byte) (body : List Byte) : (packetBytes a body).length = body.length + 6 :=
    by simp [packetBytes]

/-- Each byte of an SP packet (R190). -/
theorem packetBytes_getD (a : Byte) (body : List Byte) (i : Nat) : (packetBytes a body).getD i 0 =
   if i = 0 then 0xEA else if i = 1 then 0xD1 else if i = 2 then a
            else if i = 3 then BitVec.ofNat 8 (body.length + 2)
            else if i < 4 + body.length then body.getD (i - 4) 0
            else if i = 4 + body.length then xor8 (BitVec.ofNat 8 (body.length + 2) :: body)
            else if i = 5 + body.length then 0xF5 else 0 := by
  match i with
  | 0 => simp [packetBytes]
  | 1 => simp [packetBytes]
  | 2 => simp [packetBytes]
  | 3 => simp [packetBytes]
  | j + 4 =>
    have e : packetBytes a body = 0xEA :: 0xD1 :: a :: BitVec.ofNat 8 (body.length + 2) :: (body ++ [xor8
        (BitVec.ofNat 8 (body.length + 2) :: body), 0xF5]) := by simp [packetBytes]
    rw [e]
    simp only [List.getD_cons_succ]
    rw [if_neg (by omega), if_neg (by omega), if_neg (by omega), if_neg (by omega)]
    have e4 : j + 4 - 4 = j := by omega
    rw [e4, List.getD_eq_getElem?_getD, List.getElem?_append]
    by_cases h : j < body.length
    · rw [if_pos h, if_pos (by omega), List.getD_eq_getElem?_getD]
    · rw [if_neg h, if_neg (by omega)]
      by_cases h2 : j = body.length
      · subst h2; simp; omega
      · rw [if_neg (by omega)]
        by_cases h3 : j = body.length + 1
        · subst h3; simp; omega
        · rw [if_neg (by omega)]
          have : 2 ≤ j - body.length := by omega
          rw [List.getElem?_eq_none (by simpa using this)]; rfl

/-- The XOR fold with a start value. -/
theorem foldl_xor (bs : List Byte) (a : Byte) : bs.foldl (· ^^^ ·) a = a ^^^ xor8 bs := by
  induction bs generalizing a with
  | nil => simp [xor8]
  | cons b bs ih => 
    simp only [List.foldl_cons, xor8]; rw [ih, ih (0 ^^^ b)]; simp [BitVec.xor_assoc]

/-- The XOR of an append (R14 (a)). -/
theorem xor8_append (l m : List Byte) : xor8 (l ++ m) = xor8 l ^^^ xor8 m := by
  unfold xor8; rw [List.foldl_append, foldl_xor]; rfl

/-- What `DEPAD` shortens to, and when (R175). -/
theorem depadTo_eq_some_iff (s : State) (n : Nat) : depadTo s = some n ↔ (n = (pktByte s 3).toNat + 4
    ∧ 4 ≤ s.plen ∧ (pktByte s 3).toNat + 4 < s.plen ∧ s.plen - ((pktByte s 3).toNat + 4) ≤ 7
        ∧ ∀ i, (pktByte s 3).toNat + 4 ≤ i → i < s.plen → pktByte s i = 0) := by
  have key : (pktBytes s ((pktByte s 3).toNat + 4) (s.plen - ((pktByte s 3).toNat + 4))).all (fun b => b == 0) =
      true ↔ ∀ i, (pktByte s 3).toNat + 4 ≤ i → i < s.plen → pktByte s i = 0 := by
    simp only [pktBytes, List.all_map, List.all_eq_true, List.mem_range, Function.comp, beq_iff_eq]
    constructor
    · intro h i h1 h2
      have := h (i - ((pktByte s 3).toNat + 4)) (by omega)
      rwa [Nat.add_sub_cancel' h1] at this
    · intro h i hi; exact h _ (by omega) (by omega)
  unfold depadTo
  split
  · simp only [key]
    split
    · rename_i a b; simp only [Option.some.injEq]; constructor
      · rintro rfl; exact ⟨rfl, a, b⟩
      · rintro ⟨rfl, _⟩; rfl
    · rename_i a b; constructor
      · intro h; cases h
      · rintro ⟨_, _, c⟩; exact absurd c b
  · rename_i a; constructor
    · intro h; cases h
    · rintro ⟨_, c, _⟩; exact absurd c a

/-- A `VAL` byte check fails when the byte is missing or another (R196). -/
theorem bufferByte_ne_iff (s : State) (i : Nat) (b : Byte) : bufferByte s i ≠ some b ↔ (s.plen < i + 1
    ∨ pktByte s i ≠ b) := by
  unfold bufferByte; split
  · simp; omega
  · simp; omega

/-- When the length check fails (R197). -/
theorem lengthOk_false_iff (s : State) : lengthOk s = false ↔ (s.plen < 4 ∨ (pktByte s 3).toNat < 2
    ∨ (pktByte s 3).toNat + 4 ≠ s.plen) := by
  unfold lengthOk bufferByte
  by_cases c : 3 < s.plen
  · simp only [c, if_true, decide_eq_false_iff_not]; omega
  · simp [c]; omega

/-- Byte writes to a busy block are dropped (R44). -/
theorem writePktBytes_busy (i : Nat) (bs : List Byte) (s : State) (hb : s.status.busy = true) :
    bs ≠ [] → writePktBytes i bs s = overrun s := by
  induction bs generalizing i s with
  | nil => intro h; exact absurd rfl h
  | cons b bs ih =>
    intro _
    simp only [writePktBytes, writePktByte, hb, if_true]
    by_cases h : bs = []
    · subst h; rfl
    · rw [ih (i+1) (overrun s) hb h]; rfl

/-- A hand-over to a busy block is dropped (R44). -/
theorem loadBuffer_busy (bs : List Byte) (s : State) (hb : s.status.busy = true) : loadBuffer bs s = overrun s := by
  unfold loadBuffer
  by_cases h : bs = []
  · subst h; simp [writePktBytes, writePlen, hb]
  · rw [writePktBytes_busy 0 bs s hb h]
    simp [writePlen, overrun, hb, statusOverrun]

/-- Byte writes to an idle block: the buffer they leave (R35). -/
theorem writePktBytes_idle (i : Nat) (bs : List Byte) (s : State) (hb : s.status.busy = false) (hne : bs ≠ []) :
   ∃ pkt', writePktBytes i bs s = clearWindow { s with pkt := pkt' } ∧ (∀ a, cellAt pkt' a = if i ≤ a
       ∧ a < i + bs.length then bs[a - i]? else cellAt s.pkt a) ∧ (∀ cap, i + bs.length ≤ cap →
       Memory.wf cap s.pkt = true → Memory.wf cap pkt' = true) := by
  induction bs generalizing i s with
  | nil => exact absurd rfl hne
  | cons b bs ih =>
    simp only [writePktBytes, writePktByte, hb]
    by_cases h : bs = []
    · subst h
      refine ⟨_, rfl, ?_, ?_⟩
      · intro a; exact cellAt_blit i [b] s.pkt a
      · intro cap hc hw; exact memory_blit_wf i [b] s.pkt hc hw
    · obtain ⟨pkt', h1, h2, h3⟩ := ih (i + 1) (clearWindow (writePkt i [b] s)) hb h
      refine ⟨pkt', h1, ?_, ?_⟩
      · intro a
        rw [h2 a]
        have : (clearWindow (writePkt i [b] s)).pkt = blit i [b] s.pkt := rfl
        rw [this, cellAt_blit]
        simp only [List.length_cons, List.length_nil]
        by_cases c1 : i + 1 ≤ a ∧ a < i + 1 + bs.length
        · rw [if_pos c1, if_pos (by omega)]
          have : a - i = (a - (i+1)) + 1 := by omega
          rw [this]; simp
        · rw [if_neg c1]
          by_cases c2 : i ≤ a ∧ a < i + (0 + 1)
          · rw [if_pos c2, if_pos (by omega)]
            have : a - i = 0 := by omega
            simp [this]
          · rw [if_neg c2, if_neg (by omega)]
      · intro cap hc hw
        simp only [List.length_cons] at hc
        exact h3 cap (by omega) (memory_blit_wf i [b] s.pkt (by simp; omega) hw)

/-- A hand-over to an idle block: the buffer it leaves (R34, R35). -/
theorem loadBuffer_idle (bs : List Byte) (s : State) (hb : s.status.busy = false) (hl : bs.length ≤ 264) :
   ∃ pkt', loadBuffer bs s = clearWindow { s with pkt := pkt', plen := bs.length }
       ∧ (∀ a, cellAt pkt' a = if a < bs.length then bs[a]? else cellAt s.pkt a)
       ∧ (Memory.wf pktCap s.pkt = true → Memory.wf pktCap pkt' = true) := by
  unfold loadBuffer
  by_cases h : bs = []
  · subst h
    exact ⟨s.pkt, by simp [writePktBytes, writePlen, hb, pktCap], by simp, id⟩
  · obtain ⟨pkt', h1, h2, h3⟩ := writePktBytes_idle 0 bs s hb h
    refine ⟨pkt', ?_, ?_, ?_⟩
    · rw [h1]
      have : ¬ pktCap < bs.length := by unfold pktCap; omega
      simp only [writePlen, clearWindow, hb, this, if_false]; rfl
    · intro a; rw [h2 a]; simp
    · exact h3 pktCap (by unfold pktCap; omega)

end Sys2Proof.Machine
end

