-- ==== Sys2Proof/Laws/PerInstr.lean ====
section
/-! SUPPORT. A per-instruction family: the wire form of every well-formed instruction is one the spec admits: a command word
carries the operation code of its row (R104), a frame has at most 8 data bytes (R110), a packet at most 259 bytes (R191). -/

namespace Sys2Proof.Laws

/-- The operation code of a command's row (R104); none for the illegal word, the frames and the packet. -/
def rowOpcode : Instr → Option Byte
  | .nop => some 0x00
  | .srst => some 0x01
  | .frs => some 0x10
  | .fra _ => some 0x11
  | .ufs => some 0x12
  | .ufa _ => some 0x13
  | .depad => some 0x14
  | .bld _ => some 0x18
  | .val _ => some 0x19
  | .setw _ _ => some 0x20
  | .gu8 _ _ _ _ _ => some 0x21
  | .gu16 _ _ _ _ _ _ => some 0x22
  | .gs16 _ _ _ _ _ _ => some 0x23
  | .gu32 _ _ _ _ _ => some 0x24
  | .gnh _ _ _ _ _ => some 0x25
  | .gnl _ _ _ _ _ => some 0x26
  | .gbcd _ _ _ _ _ => some 0x27
  | .gbit _ _ => some 0x28
  | .gcode _ _ => some 0x29
  | .gts _ => some 0x2A
  | .dvolt => some 0x30
  | .dcurr => some 0x31
  | .dpwr => some 0x32
  | .illegal _ | .frameSentinelStart | .frameSentinelData _ | .frameSentinelEnd | .frameSentinelOther _
  | .frameAddressedHeader _ _ | .frameAddressedChunk1 _ _ | .frameAddressedChunk2 _ _ | .frameAddressedChunk3 _ _
  | .frameAddressedChunk4 _ _ | .frameAddressedChunk5 _ _ | .frameAddressedChunk6 _ _ | .frameAddressedIgnored _
  | .packetSp _ _ => none

/-- What the spec admits on the wire. -/
def wireAdmitted (i : Instr) : Wire → Prop
  | .cmd w => ∀ opc, rowOpcode i = some opc → opcOf w = opc
  | .sentinel f => f.len ≤ 8
  | .addressed f => f.len ≤ 8
  | .packet bs => bs.length ≤ 259

theorem opcOf_wordOf (opc a b : Byte) (exp unit : BitVec 4) (m d : BitVec 16) :
    opcOf (wordOf opc a b exp unit m d) = opc := by
  unfold opcOf wordOf
  apply BitVec.eq_of_getLsbD_eq
  intro i hi
  have h1 : ¬ 56 + i < 16 := by omega
  have h2 : ¬ 56 + i - 16 < 16 := by omega
  have h3 : ¬ 56 + i - 16 - 16 < 4 := by omega
  have h4 : ¬ 56 + i - 16 - 16 - 4 < 4 := by omega
  have h5 : ¬ 56 + i - 16 - 16 - 4 - 4 < 8 := by omega
  have h6 : ¬ 56 + i - 16 - 16 - 4 - 4 - 8 < 8 := by omega
  have h7 : 56 + i - 16 - 16 - 4 - 4 - 8 - 8 = i := by omega
  rw [BitVec.getLsbD_extractLsb']
  simp only [BitVec.getLsbD_append, h1, h2, h3, h4, h5, h6, h7, if_false, hi, decide_true, Bool.true_and]

theorem addressedData_length (node marker : Byte) (c : List Byte) (h : c.length ≤ 6) :
    (addressedData node marker c).length = 8 := by
  simp [addressedData]; omega

theorem packetBytes_length (addr : Byte) (body : List Byte) : (packetBytes addr body).length = body.length + 6 := by
  simp [packetBytes]

/-- The family: the wire form of a well-formed instruction is admitted. -/
def WireForm.Statement (i : Instr) : Prop := ∀ p, i.wf = true → wireAdmitted i (encode p i)

theorem WireForm.nop : WireForm.Statement (.nop) := by
  intro p _ opc h; cases h; exact opcOf_wordOf _ _ _ _ _ _ _

theorem WireForm.srst : WireForm.Statement (.srst) := by
  intro p _ opc h; cases h; exact opcOf_wordOf _ _ _ _ _ _ _

theorem WireForm.frs : WireForm.Statement (.frs) := by
  intro p _ opc h; cases h; exact opcOf_wordOf _ _ _ _ _ _ _

theorem WireForm.fra (a : Byte) : WireForm.Statement (.fra a) := by
  intro p _ opc h; cases h; exact opcOf_wordOf _ _ _ _ _ _ _

theorem WireForm.ufs : WireForm.Statement (.ufs) := by
  intro p _ opc h; cases h; exact opcOf_wordOf _ _ _ _ _ _ _

theorem WireForm.ufa (a : Byte) : WireForm.Statement (.ufa a) := by
  intro p _ opc h; cases h; exact opcOf_wordOf _ _ _ _ _ _ _

theorem WireForm.depad : WireForm.Statement (.depad) := by
  intro p _ opc h; cases h; exact opcOf_wordOf _ _ _ _ _ _ _

theorem WireForm.bld (a : Byte) : WireForm.Statement (.bld a) := by
  intro p _ opc h; cases h; exact opcOf_wordOf _ _ _ _ _ _ _

theorem WireForm.val (a : Byte) : WireForm.Statement (.val a) := by
  intro p _ opc h; cases h; exact opcOf_wordOf _ _ _ _ _ _ _

theorem WireForm.setw (a : BitVec 16) (b : BitVec 16) : WireForm.Statement (.setw a b) := by
  intro p _ opc h; cases h; exact opcOf_wordOf _ _ _ _ _ _ _

theorem WireForm.gu8 (a : Byte) (b : BitVec 16) (c : BitVec 16) (d : BitVec 4) (e : UnitCode) : WireForm.Statement (.gu8 a b c d e) := by
  intro p _ opc h; cases h; exact opcOf_wordOf _ _ _ _ _ _ _

theorem WireForm.gu16 (a : Byte) (b : Sent) (c : BitVec 16) (d : BitVec 16) (e : BitVec 4) (f : UnitCode) : WireForm.Statement (.gu16 a b c d e f) := by
  intro p _ opc h; cases h; exact opcOf_wordOf _ _ _ _ _ _ _

theorem WireForm.gs16 (a : Byte) (b : Sent) (c : BitVec 16) (d : BitVec 16) (e : BitVec 4) (f : UnitCode) : WireForm.Statement (.gs16 a b c d e f) := by
  intro p _ opc h; cases h; exact opcOf_wordOf _ _ _ _ _ _ _

theorem WireForm.gu32 (a : Byte) (b : BitVec 16) (c : BitVec 16) (d : BitVec 4) (e : UnitCode) : WireForm.Statement (.gu32 a b c d e) := by
  intro p _ opc h; cases h; exact opcOf_wordOf _ _ _ _ _ _ _

theorem WireForm.gnh (a : Byte) (b : BitVec 16) (c : BitVec 16) (d : BitVec 4) (e : UnitCode) : WireForm.Statement (.gnh a b c d e) := by
  intro p _ opc h; cases h; exact opcOf_wordOf _ _ _ _ _ _ _

theorem WireForm.gnl (a : Byte) (b : BitVec 16) (c : BitVec 16) (d : BitVec 4) (e : UnitCode) : WireForm.Statement (.gnl a b c d e) := by
  intro p _ opc h; cases h; exact opcOf_wordOf _ _ _ _ _ _ _

theorem WireForm.gbcd (a : Byte) (b : BitVec 16) (c : BitVec 16) (d : BitVec 4) (e : UnitCode) : WireForm.Statement (.gbcd a b c d e) := by
  intro p _ opc h; cases h; exact opcOf_wordOf _ _ _ _ _ _ _

theorem WireForm.gbit (a : Byte) (b : BitVec 3) : WireForm.Statement (.gbit a b) := by
  intro p _ opc h; cases h; exact opcOf_wordOf _ _ _ _ _ _ _

theorem WireForm.gcode (a : Byte) (b : Byte) : WireForm.Statement (.gcode a b) := by
  intro p _ opc h; cases h; exact opcOf_wordOf _ _ _ _ _ _ _

theorem WireForm.gts (a : Byte) : WireForm.Statement (.gts a) := by
  intro p _ opc h; cases h; exact opcOf_wordOf _ _ _ _ _ _ _

theorem WireForm.dvolt : WireForm.Statement (.dvolt) := by
  intro p _ opc h; cases h; exact opcOf_wordOf _ _ _ _ _ _ _

theorem WireForm.dcurr : WireForm.Statement (.dcurr) := by
  intro p _ opc h; cases h; exact opcOf_wordOf _ _ _ _ _ _ _

theorem WireForm.dpwr : WireForm.Statement (.dpwr) := by
  intro p _ opc h; cases h; exact opcOf_wordOf _ _ _ _ _ _ _

theorem WireForm.illegal (a : CmdWord) : WireForm.Statement (.illegal a) := by
  intro p _ opc h; simp [rowOpcode] at h

theorem WireForm.frameSentinelStart : WireForm.Statement (.frameSentinelStart) := by
  intro p _; simp [encode, wireAdmitted, Frame.len, zeroData]

theorem WireForm.frameSentinelData (a : List Byte) : WireForm.Statement (.frameSentinelData a) := by
  intro p h; simp [Instr.wf] at h; simp [encode, wireAdmitted, Frame.len, h]

theorem WireForm.frameSentinelEnd : WireForm.Statement (.frameSentinelEnd) := by
  intro p _; simp [encode, wireAdmitted, Frame.len, zeroData]

theorem WireForm.frameSentinelOther (a : FrameId) : WireForm.Statement (.frameSentinelOther a) := by
  intro p _; simp [encode, wireAdmitted, Frame.len, zeroData]

theorem WireForm.frameAddressedHeader (a : Byte) (b : Byte) : WireForm.Statement (.frameAddressedHeader a b) := by
  intro p _; simp [encode, wireAdmitted, Frame.len, addressedData]

theorem WireForm.frameAddressedChunk1 (a : Byte) (b : List Byte) : WireForm.Statement (.frameAddressedChunk1 a b) := by
  intro p h; simp [Instr.wf] at h; simp [encode, wireAdmitted, Frame.len, addressedData_length, h]

theorem WireForm.frameAddressedChunk2 (a : Byte) (b : List Byte) : WireForm.Statement (.frameAddressedChunk2 a b) := by
  intro p h; simp [Instr.wf] at h; simp [encode, wireAdmitted, Frame.len, addressedData_length, h]

theorem WireForm.frameAddressedChunk3 (a : Byte) (b : List Byte) : WireForm.Statement (.frameAddressedChunk3 a b) := by
  intro p h; simp [Instr.wf] at h; simp [encode, wireAdmitted, Frame.len, addressedData_length, h]

theorem WireForm.frameAddressedChunk4 (a : Byte) (b : List Byte) : WireForm.Statement (.frameAddressedChunk4 a b) := by
  intro p h; simp [Instr.wf] at h; simp [encode, wireAdmitted, Frame.len, addressedData_length, h]

theorem WireForm.frameAddressedChunk5 (a : Byte) (b : List Byte) : WireForm.Statement (.frameAddressedChunk5 a b) := by
  intro p h; simp [Instr.wf] at h; simp [encode, wireAdmitted, Frame.len, addressedData_length, h]

theorem WireForm.frameAddressedChunk6 (a : Byte) (b : List Byte) : WireForm.Statement (.frameAddressedChunk6 a b) := by
  intro p h; simp [Instr.wf] at h; simp [encode, wireAdmitted, Frame.len, addressedData_length, h]

theorem WireForm.frameAddressedIgnored (a : Frame) : WireForm.Statement (.frameAddressedIgnored a) := by
  intro p h; simpa [Instr.wf, Frame.wf, encode, wireAdmitted] using h

theorem WireForm.packetSp (a : Byte) (b : List Byte) : WireForm.Statement (.packetSp a b) := by
  intro p h; simp [Instr.wf] at h; simp [encode, wireAdmitted, packetBytes_length]; omega

end Sys2Proof.Laws
end

