-- ==== Sys2Proof/Laws/Encoding.lean ====
section
/-! SUPPORT. The fields of a command word and the decoder, one lemma per field and one per operation code,
    so that no proof
unfolds `wordOf` or the decoder's match. -/

namespace Sys2Proof.Laws

/-- A field of the upper part of an append. -/
theorem extract_append_hi {n m k s : Nat} (x : BitVec n) (y : BitVec m) (h : m ≤ s) :
    (x ++ y).extractLsb' s k = x.extractLsb' (s - m) k := by
  apply BitVec.eq_of_getLsbD_eq; intro i hi
  simp only [BitVec.getLsbD_extractLsb', BitVec.getLsbD_append]
  have : ¬ s + i < m := by omega
  have e : s + i - m = s - m + i := by omega
  simp [this, e]

/-- A field of the lower part of an append. -/
theorem extract_append_lo {n m k s : Nat} (x : BitVec n) (y : BitVec m) (h : s + k ≤ m) :
    (x ++ y).extractLsb' s k = y.extractLsb' s k := by
  apply BitVec.eq_of_getLsbD_eq; intro i hi
  simp only [BitVec.getLsbD_extractLsb', BitVec.getLsbD_append]
  have : s + i < m := by omega
  simp [this]

/-- Field `A` of a word written from its fields (R100). -/
theorem fieldA_wordOf (opc a b : Byte) (exp unit : BitVec 4) (m d : BitVec 16) :
    fieldA (wordOf opc a b exp unit m d) = a := by
  unfold fieldA wordOf; apply BitVec.eq_of_getLsbD_eq; intro i hi
  rw [BitVec.getLsbD_extractLsb']
  have h1 : ¬ 48 + i < 16 := by omega
  have h2 : ¬ 48 + i - 16 < 16 := by omega
  have h3 : ¬ 48 + i - 16 - 16 < 4 := by omega
  have h4 : ¬ 48 + i - 16 - 16 - 4 < 4 := by omega
  have h5 : ¬ 48 + i - 16 - 16 - 4 - 4 < 8 := by omega
  have h6 : 48 + i - 16 - 16 - 4 - 4 - 8 < 8 := by omega
  have h7 : 48 + i - 16 - 16 - 4 - 4 - 8 = i := by omega
  simp only [BitVec.getLsbD_append, h1, h2, h3, h4, h5, h7, if_false, if_true, hi, decide_true, Bool.true_and]

/-- Field `B`. -/
theorem fieldB_wordOf (opc a b : Byte) (exp unit : BitVec 4) (m d : BitVec 16) :
    fieldB (wordOf opc a b exp unit m d) = b := by
  unfold fieldB wordOf
  rw [extract_append_hi _ _ (by omega)]
  rw [extract_append_hi _ _ (by omega)]
  rw [extract_append_hi _ _ (by omega)]
  rw [extract_append_hi _ _ (by omega)]
  rw [extract_append_lo _ _ (by omega)]; simp

/-- Field `EXP`. -/
theorem fieldExp_wordOf (opc a b : Byte) (exp unit : BitVec 4) (m d : BitVec 16) :
    fieldExp (wordOf opc a b exp unit m d) = exp := by
  unfold fieldExp wordOf
  rw [extract_append_hi _ _ (by omega)]
  rw [extract_append_hi _ _ (by omega)]
  rw [extract_append_hi _ _ (by omega)]
  rw [extract_append_lo _ _ (by omega)]; simp

/-- Field `UNIT`. -/
theorem fieldUnit_wordOf (opc a b : Byte) (exp unit : BitVec 4) (m d : BitVec 16) :
    fieldUnit (wordOf opc a b exp unit m d) = unit := by
  unfold fieldUnit wordOf
  rw [extract_append_hi _ _ (by omega)]
  rw [extract_append_hi _ _ (by omega)]
  rw [extract_append_lo _ _ (by omega)]; simp

/-- Field `M`. -/
theorem fieldM_wordOf (opc a b : Byte) (exp unit : BitVec 4) (m d : BitVec 16) :
    fieldM (wordOf opc a b exp unit m d) = m := by
  unfold fieldM wordOf
  rw [extract_append_hi _ _ (by omega)]
  rw [extract_append_lo _ _ (by omega)]; simp

/-- Field `D`. -/
theorem fieldD_wordOf (opc a b : Byte) (exp unit : BitVec 4) (m d : BitVec 16) :
    fieldD (wordOf opc a b exp unit m d) = d := by
  unfold fieldD wordOf
  rw [extract_append_lo _ _ (by omega)]; simp

/-- A part of field `B`. -/
theorem extract_in_fieldB_wordOf (opc a b : Byte) (exp unit : BitVec 4) (m d : BitVec 16) (s k : Nat) (h1 :
    40 ≤ s) (h2 : s + k ≤ 48) : (wordOf opc a b exp unit m d).extractLsb' s k = b.extractLsb' (s-40) k := by
  unfold wordOf
  have e : s - 16 - 16 - 4 - 4 = s - 40 := by omega
  rw [extract_append_hi _ _ (by omega),extract_append_hi _ _ (by omega),extract_append_hi _ _
      (by omega),extract_append_hi _ _ (by omega), extract_append_lo _ _ (by omega), e]

/-- The operation code of a format G word. -/
theorem opcOf_wordG (opc off : Byte) (sent : BitVec 2) (mul add : BitVec 16) (exp : BitVec 4) (unit : UnitCode) :
    opcOf (wordG opc off sent mul add exp unit) = opc := opcOf_wordOf _ _ _ _ _ _ _

/-- Format Z words have no bit below `OPC`. -/
theorem formatZ_low_zero (opc : Byte) : (wordOf opc 0 0 0 0 0 0).extractLsb' 0 56 = 0 := by
  unfold wordOf
  apply BitVec.eq_of_getLsbD_eq; intro i hi
  rw [BitVec.getLsbD_extractLsb']
  simp only [BitVec.getLsbD_append]
  split_ifs <;> first | (exfalso; omega) | simp

/-- Format N and O words have no bit below `A`. -/
theorem formatN_low_zero (opc a : Byte) : (wordOf opc a 0 0 0 0 0).extractLsb' 0 48 = 0 := by
  unfold wordOf
  apply BitVec.eq_of_getLsbD_eq; intro i hi
  rw [BitVec.getLsbD_extractLsb']
  simp only [BitVec.getLsbD_append]
  split_ifs <;> first | (exfalso; omega) | simp

/-- Format B and K words have no bit below `B`. -/
theorem formatBK_low_zero (opc a b : Byte) : (wordOf opc a b 0 0 0 0).extractLsb' 0 40 = 0 := by
  unfold wordOf
  apply BitVec.eq_of_getLsbD_eq; intro i hi
  rw [BitVec.getLsbD_extractLsb']
  simp only [BitVec.getLsbD_append]
  split_ifs <;> first | (exfalso; omega) | simp

/-- Format W words have no bit between `OPC` and `M`. -/
theorem formatW_gap_zero (opc : Byte) (m d) : (wordOf opc 0 0 0 0 m d).extractLsb' 32 24 = 0 := by
  unfold wordOf
  apply BitVec.eq_of_getLsbD_eq; intro i hi
  rw [BitVec.getLsbD_extractLsb']
  simp only [BitVec.getLsbD_append]
  split_ifs <;> first | (exfalso; omega) | simp

/-- Unit codes decode to their unit (R43). -/
theorem unitOfCode_codeOfUnit (u : UnitCode) : unitOfCode (codeOfUnit u) = some u := by cases u <;> decide

/-- Sentinel codes decode to their policy (R102). -/
theorem sentOfCode_codeOfSent (u : Sent) : sentOfCode (codeOfSent u) = some u := by cases u <;> decide

/-- The reserved unit codes (R43). -/
theorem unitOfCode_none_iff (c : BitVec 4) : unitOfCode c = none ↔ 7 ≤ c.toNat := by revert c; decide

/-- The reserved sentinel code (R102). -/
theorem sentOfCode_none_iff (c : BitVec 2) : sentOfCode c = none ↔ c = 3 := by revert c; decide

/-- Masking a run of bits to zero is that run being zero. -/
theorem and_mask_zero_iff (w M : CmdWord) (s n : Nat) (h : ∀ i, i < 64 → M.getLsbD i = decide (s ≤ i
    ∧ i < s + n)) (hn : s + n ≤ 64) :
    (w &&& M = 0) ↔ w.extractLsb' s n = 0 := by
  constructor
  · intro e; apply BitVec.eq_of_getLsbD_eq; intro i hi
    have := congrArg (fun x => x.getLsbD (s + i)) e
    simp only [BitVec.getLsbD_and, h (s+i) (by omega)] at this
    rw [BitVec.getLsbD_extractLsb']
    simpa [hi] using this
  · intro e; apply BitVec.eq_of_getLsbD_eq; intro i hi
    rw [BitVec.getLsbD_and, h i hi]
    by_cases c : s ≤ i ∧ i < s + n
    · have := congrArg (fun x => x.getLsbD (i - s)) e
      simp only [BitVec.getLsbD_extractLsb'] at this
      have e2 : s + (i - s) = i := by omega
      have e3 : i - s < n := by omega
      simpa [e2, e3, c] using this
    · simp [c]

/-- One equation per operation code: the word goes to the format of its row (R101, R104). -/
theorem decodeCmd_nop (w : CmdWord) (h : opcOf w = 0x00) : decodeCmd w = formatZ w .nop := by
  simp [decodeCmd, h]

theorem decodeCmd_srst (w : CmdWord) (h : opcOf w = 0x01) : decodeCmd w = formatZ w .srst := by
  simp [decodeCmd, h]

theorem decodeCmd_frs (w : CmdWord) (h : opcOf w = 0x10) : decodeCmd w = formatZ w .frs := by
  simp [decodeCmd, h]

theorem decodeCmd_fra (w : CmdWord) (h : opcOf w = 0x11) : decodeCmd w = formatN w .fra := by
  simp [decodeCmd, h]

theorem decodeCmd_ufs (w : CmdWord) (h : opcOf w = 0x12) : decodeCmd w = formatZ w .ufs := by
  simp [decodeCmd, h]

theorem decodeCmd_ufa (w : CmdWord) (h : opcOf w = 0x13) : decodeCmd w = formatN w .ufa := by
  simp [decodeCmd, h]

theorem decodeCmd_depad (w : CmdWord) (h : opcOf w = 0x14) : decodeCmd w = formatZ w .depad := by
  simp [decodeCmd, h]

theorem decodeCmd_bld (w : CmdWord) (h : opcOf w = 0x18) : decodeCmd w = formatN w .bld := by
  simp [decodeCmd, h]

theorem decodeCmd_val (w : CmdWord) (h : opcOf w = 0x19) : decodeCmd w = formatN w .val := by
  simp [decodeCmd, h]

theorem decodeCmd_setw (w : CmdWord) (h : opcOf w = 0x20) : decodeCmd w = formatW w .setw := by
  simp [decodeCmd, h]

theorem decodeCmd_gu8 (w : CmdWord) (h : opcOf w = 0x21) : decodeCmd w = formatG w .gu8 := by
  simp [decodeCmd, h]

theorem decodeCmd_gu16 (w : CmdWord) (h : opcOf w = 0x22) : decodeCmd w = formatGSent w .gu16 := by
  simp [decodeCmd, h]

theorem decodeCmd_gs16 (w : CmdWord) (h : opcOf w = 0x23) : decodeCmd w = formatGSent w .gs16 := by
  simp [decodeCmd, h]

theorem decodeCmd_gu32 (w : CmdWord) (h : opcOf w = 0x24) : decodeCmd w = formatG w .gu32 := by
  simp [decodeCmd, h]

theorem decodeCmd_gnh (w : CmdWord) (h : opcOf w = 0x25) : decodeCmd w = formatG w .gnh := by
  simp [decodeCmd, h]

theorem decodeCmd_gnl (w : CmdWord) (h : opcOf w = 0x26) : decodeCmd w = formatG w .gnl := by
  simp [decodeCmd, h]

theorem decodeCmd_gbcd (w : CmdWord) (h : opcOf w = 0x27) : decodeCmd w = formatG w .gbcd := by
  simp [decodeCmd, h]

theorem decodeCmd_gbit (w : CmdWord) (h : opcOf w = 0x28) : decodeCmd w = formatB w .gbit := by
  simp [decodeCmd, h]

theorem decodeCmd_gcode (w : CmdWord) (h : opcOf w = 0x29) : decodeCmd w = formatK w .gcode := by
  simp [decodeCmd, h]

theorem decodeCmd_gts (w : CmdWord) (h : opcOf w = 0x2A) : decodeCmd w = formatN w .gts := by
  simp [decodeCmd, h]

theorem decodeCmd_dvolt (w : CmdWord) (h : opcOf w = 0x30) : decodeCmd w = formatZ w .dvolt := by
  simp [decodeCmd, h]

theorem decodeCmd_dcurr (w : CmdWord) (h : opcOf w = 0x31) : decodeCmd w = formatZ w .dcurr := by
  simp [decodeCmd, h]

theorem decodeCmd_dpwr (w : CmdWord) (h : opcOf w = 0x32) : decodeCmd w = formatZ w .dpwr := by
  simp [decodeCmd, h]

/-- A word with no operation code of R104 is illegal (R105). -/
theorem decodeCmd_no_opcode (w : CmdWord) (h : unusedBits (opcOf w) = none) : decodeCmd w = .illegal w := by
  generalize hc : opcOf w = c at h
  have key : ∀ c : Byte, unusedBits c = none →
      c.toNat ∉ [0x00,0x01,0x10,0x11,0x12,0x13,0x14,0x18,0x19,0x20,0x21,0x22,0x23,0x24,0x25,0x26,0x27,0x28,0x29,0x2A,0x30,0x31,0x32] := by decide
  have := key c h
  unfold decodeCmd; rw [hc]
  generalize c.toNat = n at this
  split <;> first | rfl | (exfalso; revert this; decide)

/-- The operation codes of R104. -/
theorem opcode_listed : ∀ c : Byte, unusedBits c ≠ none → c ∈
    ([0x00,0x01,0x10,0x11,0x12,0x13,0x14,0x18,0x19,0x20,0x21,0x22,0x23,0x24,0x25,0x26,0x27,0x28,0x29,0x2A,0x30,0x31,0x32] : List Byte) := by decide

/-- A word is the append of its fields (R100). -/
theorem wordOf_fields (w : CmdWord) : wordOf (opcOf w) (fieldA w) (fieldB w) (fieldExp w) (fieldUnit w) (fieldM w)
    (fieldD w) = w := by
  apply BitVec.eq_of_getLsbD_eq; intro i hi
  unfold wordOf opcOf fieldA fieldB fieldExp fieldUnit fieldM fieldD
  simp only [BitVec.getLsbD_append, BitVec.getLsbD_extractLsb']
  split_ifs
  all_goals (rw [decide_eq_true (by omega), Bool.true_and]; congr 1; omega)

/-- A part of a zero run is zero. -/
theorem extract_sub_zero (w : CmdWord) (s n s' n' : Nat) (h : w.extractLsb' s n = 0) (h1 : s ≤ s') (h2 :
    s' + n' ≤ s + n) : w.extractLsb' s' n' = 0 := by
  apply BitVec.eq_of_getLsbD_eq; intro i hi
  have := congrArg (fun x => x.getLsbD (s' + i - s)) h
  simp only [BitVec.getLsbD_extractLsb'] at this ⊢
  have e : s + (s' + i - s) = s' + i := by omega
  have e2 : s' + i - s < n := by omega
  simpa [e, e2, hi] using this

end Sys2Proof.Laws
end

