-- ==== Sys2Proof/Laws/Events.lean ====
section
/-! SUPPORT. What a received answer does, once: every one is an attempt of a frame rule. -/

namespace Sys2Proof.Machine

/-- An attempt whose rule leaves the command running: `TIMEOUT` at budget 0 and nothing else (R151). -/
theorem attempt_of_running (rule : State → State) (s t : State) (h : rule { s with bud := s.bud - 1 } = t) (h2 :
    t.opr ≠ .none) : attempt rule s = timeoutAtZero t := by
  rw [attempt_running rule s (by rw [h]; exact h2), h]

/-- An attempt whose rule ends the command is what the rule leaves (R171). -/
theorem attempt_of_ended (rule : State → State) (s t : State) (h : rule { s with bud := s.bud - 1 } = t) (h2 :
    t.opr = .none) : attempt rule s = t := by
  simp only [attempt, h, h2, if_true]

/-- A chunk instruction is the chunk rule under its marker (R166). -/
theorem exec_chunkInstr (s : State) (m : Nat) (node : Byte) (c : List Byte) (hm : 1 ≤ m) (h6 : m ≤ 6) :
    exec (chunkInstr m node c) s = receive .ufa (onAddressedChunk m node c) s := by
  have : m = 1 ∨ m = 2 ∨ m = 3 ∨ m = 4 ∨ m = 5 ∨ m = 6 := by omega
  rcases this with rfl|rfl|rfl|rfl|rfl|rfl <;> rfl

/-- A frame of a running command is an attempt of one frame rule (R150, R151). -/
theorem classify_is_attempt (p : Params) (o : Opr) (k : Byte) (f : Frame) (i : Instr) (h : classify p o k f = some i) :
   ∃ rule, (∀ s, s.opr = o → exec i s = .next (attempt rule s)) ∧ (o = .ufs → ((rule = onSentinelStart)
       ∨ (rule = onSentinelData ((List.range 8).map f.byte)) ∨ (rule = onSentinelEnd) ∨ (rule = abandon))) ∧
     (o = .ufa → (rule = id ∨ (rule = onAddressedHeader (f.byte 0) (f.byte 1)) ∨ ∃ m, 1 ≤ m ∧ m ≤ 6
         ∧ rule = onAddressedChunk m (f.byte 0) (f.chunk (chunkCap m)))) := by
  cases o with
  | none => simp [classify] at h
  | ufs =>
    simp only [classify, Option.some.injEq] at h
    subst h
    unfold classifySentinel
    split
    · exact ⟨onSentinelStart, fun s hs => receive_running hs, fun _ => .inl rfl, by simp⟩
    split
    · exact ⟨_, fun s hs => receive_running hs, fun _ => .inr (.inl rfl), by simp⟩
    split
    · exact ⟨_, fun s hs => receive_running hs, fun _ => .inr (.inr (.inl rfl)), by simp⟩
    · exact ⟨_, fun s hs => receive_running hs, fun _ => .inr (.inr (.inr rfl)), by simp⟩
  | ufa =>
    simp only [classify, Option.some.injEq] at h
    subst h
    unfold classifyAddressed
    split
    · exact ⟨id, fun s hs => receive_running hs, by simp, fun _ => .inl rfl⟩
    split
    · exact ⟨id, fun s hs => receive_running hs, by simp, fun _ => .inl rfl⟩
    split
    · exact ⟨_, fun s hs => receive_running hs, by simp, fun _ => .inr (.inl rfl)⟩
    · exact ⟨_, fun s hs => receive_running hs, by simp, fun _ => .inr (.inr ⟨1, by omega, by omega, rfl⟩)⟩
    · exact ⟨_, fun s hs => receive_running hs, by simp, fun _ => .inr (.inr ⟨2, by omega, by omega, rfl⟩)⟩
    · exact ⟨_, fun s hs => receive_running hs, by simp, fun _ => .inr (.inr ⟨3, by omega, by omega, rfl⟩)⟩
    · exact ⟨_, fun s hs => receive_running hs, by simp, fun _ => .inr (.inr ⟨4, by omega, by omega, rfl⟩)⟩
    · exact ⟨_, fun s hs => receive_running hs, by simp, fun _ => .inr (.inr ⟨5, by omega, by omega, rfl⟩)⟩
    · exact ⟨_, fun s hs => receive_running hs, by simp, fun _ => .inr (.inr ⟨6, by omega, by omega, rfl⟩)⟩
    · exact ⟨id, fun s hs => receive_running hs, by simp, fun _ => .inl rfl⟩

/-- An answer the block takes is an attempt of one frame rule, or of none for `Empty` (R10, R151, R161). -/
theorem answer_is_attempt (s : State) (a : Answer) (t : State) (h : stepEvent (.rxAnswer a) s = .next t) :
   ∃ rule, t = attempt rule s ∧ s.opr ≠ .none ∧ (rule = id ∨ (s.opr = .ufs ∧ ((rule = onSentinelStart) ∨ (∃ d :
       List Byte, d.length = 8 ∧ rule = onSentinelData d) ∨ (rule = onSentinelEnd) ∨ (rule = abandon))) ∨ 
     (s.opr = .ufa ∧ (rule = id ∨ (∃ n t, rule = onAddressedHeader n t) ∨ ∃ m n c, c.length = chunkCap m ∧ 1 ≤ m
         ∧ m ≤ 6 ∧ rule = onAddressedChunk m n c))) := by
  cases a with
  | empty =>
    simp only [stepEvent, receiveEmpty] at h
    split at h
    · cases h
    · rename_i ho; injection h with h; exact ⟨id, h.symm, ho, .inl rfl⟩
  | frame f =>
    simp only [stepEvent, presentFrame] at h
    split at h
    · split at h
      · cases h
      · rename_i i hc
        obtain ⟨rule, h1, h2, h3⟩ := classify_is_attempt _ _ _ f i hc
        rw [h1 s rfl] at h
        injection h with h
        refine ⟨rule, h.symm, ?_, ?_⟩
        · intro e; rw [e] at hc; cases hc
        · cases ho : s.opr with
          | none => rw [ho] at hc; cases hc
          | ufs =>
            right; left
            refine ⟨rfl, ?_⟩
            rcases h2 ho with e | e | e | e
            · exact .inl e
            · exact .inr (.inl ⟨_, by simp, e⟩)
            · exact .inr (.inr (.inl e))
            · exact .inr (.inr (.inr e))
          | ufa =>
            right; right
            refine ⟨rfl, ?_⟩
            rcases h3 ho with e | e | ⟨m, a, b, e⟩
            · exact .inl e
            · exact .inr (.inl ⟨_, _, e⟩)
            · exact .inr (.inr ⟨m, _, _, by simp [Frame.chunk], a, b, e⟩)
    · cases h

/-- The marker table adds up to 32 (R116). -/
theorem chunkBase_add_chunkCap (m : Nat) (h1 : 1 ≤ m) (h6 : m ≤ 6) : chunkBase m + chunkCap m ≤ 32
    ∧ (m < 6 → chunkBase (m+1) = chunkBase m + chunkCap m) ∧ (m = 6 → chunkBase m + chunkCap m = 32) := by
  have : m = 1 ∨ m = 2 ∨ m = 3 ∨ m = 4 ∨ m = 5 ∨ m = 6 := by omega
  rcases this with rfl|rfl|rfl|rfl|rfl|rfl <;> decide

end Sys2Proof.Machine
end

