-- ==== Sys2Proof/Laws/Fields.lean ====
section
/-! SUPPORT. What a field read answers, by width, and the raw values it reads. -/

namespace Sys2Proof.Machine

/-- The high nibble (R214). -/
theorem extract_hi_nibble (b : Byte) : (b.extractLsb' 4 4).toNat = hiNibble b := by revert b; decide

/-- The low nibble (R214). -/
theorem extract_lo_nibble (b : Byte) : (b.extractLsb' 0 4).toNat = loNibble b := by revert b; decide

/-- Two bytes big-endian (R72). -/
theorem be_two (a b : Byte) : be [a, b] = (a ++ b).toNat := by
  have := b.isLt
  rw [BitVec.toNat_append, Nat.shiftLeft_eq, Nat.mul_comm, ← Nat.two_pow_add_eq_or_of_lt (i := 8) (by omega)]
  simp [be]; omega

/-- Two bytes big-endian, two's complement (R214). -/
theorem sext16_be_two (a b : Byte) : sext16 (be [a, b]) = (a ++ b).toInt := by
  rw [be_two, BitVec.toInt_eq_toNat_cond]
  unfold sext16
  have : 2 * (a ++ b).toNat < 2^(8+8) ↔ (a++b).toNat < 32768 := by omega
  simp only [this]
  split <;> simp

/-- Four bytes big-endian (R72). -/
theorem be_four (a b c d : Byte) : be [a, b, c, d] = (a ++ b ++ c ++ d).toNat := by
  have h1 := b.isLt
  have h2 := c.isLt
  have h3 := d.isLt
  have key : ∀ {n} (x : BitVec n) (y : Byte), (x ++ y).toNat = x.toNat * 256 + y.toNat := by
    intro n x y
    have := y.isLt
    rw [BitVec.toNat_append, Nat.shiftLeft_eq, Nat.mul_comm, ← Nat.two_pow_add_eq_or_of_lt (i := 8) (by omega),
        Nat.mul_comm]
  rw [key, key, key]
  simp [be]

/-- A one-byte field: `ABSENT`, `CORRUPT`, or the transform of its raw value (R213, R216). -/
theorem fieldG_one_byte (k : FieldKind) (hk : kindWidth k = 1) (s : State) (off mul : Nat) (add : Int)
    (exp : BitVec 4) (unit : UnitCode) :
    fieldG k s off .n mul add exp unit =
      if off < s.pn then
        (match rawOf k [pktByte s (s.poff + off)] with
          | none => Value.corrupt
          | some r => Value.num unit exp (r * mul + add))
      else Value.absent := by
  unfold fieldG
  rw [hk, memRead_one]
  unfold winByte
  split
  · rename_i h; split at h
    · simp at h
    · rename_i h2; simp [h2]
  · rename_i bs h; split at h
    · rename_i h2
      simp only [Option.map_some, Option.some.injEq] at h
      subst h
      rw [if_pos h2]
      rfl
    · simp at h

/-- A two-byte field, with its sentinel pattern (R213, R215). -/
theorem fieldG_two_bytes (k : FieldKind) (hk : kindWidth k = 2) (s : State) (off : Nat) (sent : Sent) (mul :
    Nat) (add : Int) (exp) (unit) (r : Byte → Byte → Int) (hr : ∀ a b, rawOf k [a,b] = some (r a b)) :
   fieldG k s off sent mul add exp unit = if off + 2 ≤ s.pn then Value.num unit exp (
            if pktByte s (s.poff + off) = 0xFF ∧ pktByte s (s.poff + off + 1) = 0xFF ∧ sent = .z then 0
            else if pktByte s (s.poff + off) = 0xFF ∧ pktByte s (s.poff + off + 1) = 0xFF ∧ sent = .m then -1
            else r (pktByte s (s.poff + off)) (pktByte s (s.poff + off + 1)) * mul + add) else Value.absent := by
  unfold fieldG
  rw [hk, memRead_two]
  split
  · rename_i h; split at h
    · simp at h
    · rename_i h2; simp [h2]
  · rename_i bs h; split at h
    · rename_i h2
      simp only [Option.some.injEq] at h
      subst h
      rw [if_pos h2, hr]
      cases sent
      · simp [sentinelResult]
      · simp only [sentinelResult, List.cons.injEq, and_true]
        simp only [reduceCtorEq, and_false, if_false]
        split <;> rfl
      · simp only [sentinelResult, List.cons.injEq, and_true]
        simp only [reduceCtorEq, and_false, if_false]
        split <;> rfl
    · simp at h

/-- A four-byte field (R213, R223). -/
theorem fieldG_four_bytes (s : State) (off : Nat) (mul : Nat) (add : Int) (exp) (unit) :
   fieldG .u32 s off .n mul add exp unit = if off + 4 ≤ s.pn then Value.num unit exp (((pktByte s
       (s.poff + off) ++ pktByte s (s.poff + off + 1) ++ pktByte s (s.poff + off + 2) ++ pktByte s
       (s.poff + off + 3)).toNat : Int) * mul + add) else Value.absent := by
  unfold fieldG
  rw [show kindWidth .u32 = 4 from rfl, memRead_four]
  split
  · rename_i h; split at h
    · simp at h
    · rename_i h2; simp [h2]
  · rename_i bs h; split at h
    · rename_i h2
      simp only [Option.some.injEq] at h
      subst h
      rw [if_pos h2]
      simp only [rawOf, sentinelResult, be_four]
    · simp at h

/-- The size of a big-endian value. -/
theorem be_lt (bs : List Byte) : be bs < 256 ^ bs.length := by
  have key : ∀ (bs : List Byte) (acc : Nat), bs.foldl (fun acc b => acc * 256 + b.toNat) acc <
      (acc + 1) * 256 ^ bs.length := by
    intro bs
    induction bs with
    | nil => intro acc; simp
    | cons b bs ih =>
      intro acc
      have := ih (acc * 256 + b.toNat)
      have hb : b.toNat < 256 := b.isLt
      simp only [List.foldl_cons, List.length_cons, Nat.pow_succ]
      refine Nat.lt_of_lt_of_le this ?_
      have : acc * 256 + b.toNat + 1 ≤ (acc + 1) * 256 := by omega
      calc _ ≤ ((acc + 1) * 256) * 256 ^ bs.length := Nat.mul_le_mul_right _ this
        _ = _ := by ring
  have := key bs 0
  unfold be; simpa using this

/-- The range of a raw value (R214). -/
theorem rawOf_range (k : FieldKind) (s : State) (off : Nat) (bs) (h : memRead s off (kindWidth k) = some bs) (r)
    (hr : rawOf k bs = some r) : -(2:Int)^15 ≤ r ∧ r < 2^32 := by
  have hl : bs.length = kindWidth k := by
    unfold memRead at h; split at h
    · injection h with h; subst h; simp
    · cases h
  have hb := be_lt bs
  have h0 : (bs.getD 0 0).toNat < 256 := (bs.getD 0 0).isLt
  cases k <;> simp only [rawOf, Option.some.injEq, kindWidth, hiNibble, loNibble] at * <;> (try rw [hl] at hb)
  case bcd =>
    unfold hexdec at hr
    split at hr
    · rename_i c; unfold hiNibble loNibble at *; simp only [Option.map_some,
        Option.some.injEq] at hr; subst hr; constructor <;> simp <;> omega
    · simp at hr
  case s16 => unfold sext16 at hr; split at hr <;> omega
  all_goals omega

/-- Six decimal bytes. -/
theorem hexdecAll_of_decimal (bs : List Byte) (hd : ∀ b ∈ bs, hiNibble b ≤ 9 ∧ loNibble b ≤ 9) :
    hexdecAll bs = some (bs.map (fun b => 10 * hiNibble b + loNibble b)) := by
  induction bs with
  | nil => rfl
  | cons b bs ih =>
    have h1 : hexdec b = some (10 * hiNibble b + loNibble b) := by unfold hexdec; rw [if_pos (hd b (by simp))]
    simp only [hexdecAll, h1, ih (fun x hx => hd x (by simp [hx])), List.map_cons]

/-- A byte that is not decimal makes the whole corrupt (R229). -/
theorem hexdecAll_of_not_decimal (bs : List Byte) (hd : ¬ ∀ b ∈ bs, hiNibble b ≤ 9 ∧ loNibble b ≤ 9) :
    hexdecAll bs = none := by
  cases e : hexdecAll bs with
  | none => rfl
  | some vs =>
    exfalso; apply hd
    induction bs generalizing vs with
    | nil => simp
    | cons b bs ih =>
      simp only [hexdecAll] at e
      split at e
      · rename_i v vs' h1 h2
        intro x hx
        rcases List.mem_cons.1 hx with rfl | hx
        · unfold hexdec at h1; split at h1
          · assumption
          · cases h1
        · exact ih (fun h => hd (fun y hy => by
            rcases List.mem_cons.1 hy with rfl | hy
            · unfold hexdec at h1; split at h1
              · assumption
              · cases h1
            · exact h y hy)) vs' h2 x hx
      · cases e

/-- The bits of a sum of distinct powers of two. -/
theorem sum_two_pow_testBit (l : List Nat) (hl : l.Nodup) (b : Nat) : ((l.map (fun k => 2 ^ k)).sum).testBit b =
    decide (b ∈ l) := by
  have key : ∀ n (l : List Nat), l.Nodup → (∀ x ∈ l, x < n) → ∀ b, ((l.map (fun k => 2 ^ k)).sum).testBit b =
      decide (b ∈ l) := by
    intro n
    induction n with
    | zero => intro l _ h b; cases l with
      | nil => simp
      | cons a l => exact absurd (h a (by simp)) (by omega)
    | succ n ih =>
      intro l hd h b
      by_cases hn : n ∈ l
      · have hp : l.Perm (n :: l.erase n) := List.perm_cons_erase hn
        have he : (l.erase n).Nodup := hd.erase n
        have hx : ∀ x ∈ l.erase n, x < n := by
          intro x hx
          have := (List.Nodup.mem_erase_iff hd).1 hx
          have := h x this.2
          omega
        have hs : (l.map (fun k => 2 ^ k)).sum = 2^n + ((l.erase n).map (fun k => 2^k)).sum := by
          rw [(hp.map _).sum_eq]; simp
        have hlt : ((l.erase n).map (fun k => 2^k)).sum < 2^n := by
          apply Nat.lt_of_testBit n
          · rw [ih _ he hx]; simp; intro hh; exact absurd (hx n hh) (by omega)
          · simp
          · intro j hj
            rw [ih _ he hx, Nat.testBit_two_pow_of_ne (by omega)]; simp; intro hh; exact absurd (hx j hh) (by omega)
        have hor := Nat.two_pow_add_eq_or_of_lt hlt 1
        rw [Nat.mul_one] at hor
        rw [hs, hor, Nat.testBit_or, ih _ he hx, Nat.testBit_two_pow]
        rw [show decide (b ∈ l) = decide (b ∈ n :: l.erase n) from by simp only [hp.mem_iff]]
        simp only [List.mem_cons]
        by_cases c : n = b
        · simp [c]
        · have : b ≠ n := fun e => c e.symm
          simp [c, this]
      · exact ih l hd (fun x hx => by have := h x hx; have : x ≠ n := fun e => hn (e ▸ hx); omega) b
  obtain ⟨n, hn⟩ : ∃ n, ∀ x ∈ l, x < n := ⟨l.sum + 1, fun x hx => Nat.lt_succ_of_le (List.le_sum_of_mem hx)⟩
  exact key n l hl hn b

end Sys2Proof.Machine
end

