-- ==== Sys2Proof/Laws/Values.lean ====
section
/-! SUPPORT. What each kind of value holds (spec/10_state.md R42), once for every operation that makes one, the raw flags in
terms of window bytes (R263), and what an addressed reassembly ignores (R163, R165, R167). -/

namespace Sys2Proof.Machine

/-! ## The shapes of values -/

/-- `ABSENT` is all zero. -/
theorem shaped_absent : Value.absent.shaped := ⟨fun _ => ⟨rfl, rfl⟩, rfl⟩

/-- `CORRUPT` is all zero. -/
theorem shaped_corrupt : Value.corrupt.shaped := ⟨fun _ => ⟨rfl, rfl⟩, rfl⟩

/-- A number is shaped when it fits `MANT`. -/
theorem shaped_num (unit : UnitCode) (exp : BitVec 4) (m : Int) (h : (Value.num unit exp m).fits) :
    (Value.num unit exp m).shaped := ⟨fun hn => absurd rfl hn, h⟩

/-- A boolean. -/
theorem shaped_bool (b : Bool) : (Value.bool b).shaped :=
  ⟨fun _ => ⟨rfl, rfl⟩, by cases b; exacts [.inl rfl, .inr rfl]⟩

/-- A raw byte. -/
theorem shaped_rawhex (n : Nat) (h : n < 256) : (Value.rawhex n).shaped :=
  ⟨fun _ => ⟨rfl, rfl⟩, BitVec.ofNat 8 n, by
    show (n : Int) = _
    rw [BitVec.toNat_ofNat, Nat.mod_eq_of_lt h]⟩

/-- A code. -/
theorem shaped_code (t id : Byte) : (Value.code t id).shaped := ⟨fun _ => ⟨rfl, rfl⟩, t, id, rfl⟩

/-- A flag set below `2^63`. -/
theorem shaped_flags (m : Nat) (h : m < 2 ^ 63) : (Value.flags m).shaped := by
  refine ⟨fun _ => ⟨rfl, rfl⟩, ?_, ?_, ?_⟩
  · exact Int.natCast_nonneg m
  · show -(2 : Int) ^ 63 ≤ (m : Int); omega
  · show (m : Int) < (2 : Int) ^ 63; omega

/-- A format G field read (R213, R215, R218): the operands a command or a decode program gives keep the mantissa inside. -/
theorem fieldG_shaped (k : FieldKind) (s : State) (off : Nat) (sent : Sent) (mul : Nat) (add : Int) (exp : BitVec 4)
    (unit : UnitCode) (hm : mul < 2 ^ 16) (ha : -(2 : Int) ^ 15 ≤ add ∧ add < (2 : Int) ^ 15) :
    (fieldG k s off sent mul add exp unit).shaped := by
  rcases fieldG_cases k s off sent mul add exp unit with ⟨_, h⟩ | ⟨bs, hb, ⟨_, h⟩ | ⟨raw, hr, ⟨m, hs, _, h⟩ | ⟨_, h⟩⟩⟩
  · rw [h]; exact shaped_absent
  · rw [h]; exact shaped_corrupt
  · rw [h]
    refine shaped_num _ _ _ ?_
    cases sent
    · cases hs
    all_goals
      injection hs with hs
      subst hs
      simp [Value.fits, Value.num]
  · rw [h]
    refine shaped_num _ _ _ ?_
    obtain ⟨h1, h2⟩ := rawOf_range k s off bs hb raw hr
    have hm0 : (0 : Int) ≤ (mul : Int) := Int.natCast_nonneg _
    have hm1 : (mul : Int) ≤ 2 ^ 16 := by exact_mod_cast hm.le
    have u1 : raw * mul ≤ 2 ^ 32 * 2 ^ 16 := by nlinarith
    have u2 : -(2 ^ 15 * 2 ^ 16) ≤ raw * mul := by nlinarith
    exact ⟨by show -(2 : Int) ^ 63 ≤ raw * mul + add; omega, by show raw * mul + add < (2 : Int) ^ 63; omega⟩

/-- A bit read (R227). -/
theorem fieldBit_shaped (s : State) (off bit : Nat) : (fieldBit s off bit).shaped := by
  unfold fieldBit; split
  exacts [shaped_absent, shaped_bool _]

/-- A coded byte (R228). -/
theorem fieldCode_shaped (s : State) (off : Nat) (t : Byte) : (fieldCode s off t).shaped := by
  unfold fieldCode; split
  · exact shaped_absent
  · split
    exacts [shaped_code _ _, shaped_rawhex _ (BitVec.isLt _)]

/-- A decimal byte is at most 99 (R230). -/
theorem hexdec_le (b : Byte) (v : Nat) (h : hexdec b = some v) : v ≤ 99 := by
  unfold hexdec at h; split at h
  · injection h with h; omega
  · cases h

/-- Six decimal bytes are each at most 99 (R229, R230). -/
theorem hexdecAll_le (bs : List Byte) (vs : List Nat) (h : hexdecAll bs = some vs) : ∀ v ∈ vs, v ≤ 99 := by
  induction bs generalizing vs with
  | nil => cases h; simp
  | cons b bs ih =>
    simp only [hexdecAll] at h
    split at h
    · rename_i v vs' h1 h2
      injection h with h; subst h
      intro x hx
      rcases List.mem_cons.1 hx with rfl | hx
      · exact hexdec_le _ _ h1
      · exact ih _ h2 x hx
    · cases h

/-- A timestamp read (R229, R231). -/
theorem fieldTime_shaped (s : State) (off : Nat) : (fieldTime s off).shaped := by
  unfold fieldTime; split
  · exact shaped_absent
  split
  · exact shaped_corrupt
  rename_i vs hv
  simp only
  split
  · rename_i hval
    simp only [validTime, Bool.and_eq_true, decide_eq_true_eq] at hval
    obtain ⟨⟨⟨⟨hmo, hdd⟩, hh⟩, hmi⟩, hss⟩ := hval
    refine ⟨fun _ => ⟨rfl, rfl⟩, _, _, _, _, _, _, ?_, hmo.1, hmo.2, hdd.1, hdd.2.trans ?_, hh, hmi, hss, rfl⟩
    · unfold tsPart
      rw [List.getD_eq_getElem?_getD]
      cases he : vs[s.cfg.tsOrder.idxOf TsPart.year]? with
      | none => simp
      | some v => exact hexdecAll_le _ _ hv v (List.mem_of_getElem? he)
    · unfold daysInMonth; split
      · split <;> omega
      · split <;> omega
  · exact shaped_corrupt

/-- A byte passed through as a flag set (R261). -/
theorem byteFlags_shaped (s : State) (o : Nat) : (byteFlags s o).shaped := by
  unfold byteFlags; split
  · exact shaped_absent
  · rename_i b _
    have := b.isLt
    exact shaped_flags _ (by omega)

/-- The balancing bytes (R267). -/
theorem balancingValue_shaped (s : State) (o : Nat) : (balancingValue s o).shaped := by
  unfold balancingValue; split
  · exact shaped_absent
  · rename_i bs h
    have hl : bs.length = 3 := by
      unfold memRead at h; split at h
      · injection h with h; subst h; simp
      · cases h
    have := be_lt bs
    rw [hl] at this
    exact shaped_flags _ (by omega)

/-- The front-end nibble (R277). -/
theorem frontEnd_shaped (p : Params) (b : Option Byte) : (frontEnd p b).shaped := by
  unfold frontEnd; split
  · exact shaped_absent
  · rename_i v
    have := v.isLt
    split
    · exact shaped_code _ _
    · exact shaped_rawhex _ (by unfold hiNibble; omega)

/-- The flag set stays below `2^63` (R264, R265). -/
theorem flagsValue_shaped (s : State) : (flagsValue s).shaped := by
  unfold flagsValue; split
  · exact shaped_absent
  · refine shaped_flags _ ?_
    have h16 : ∀ x ∈ (flagIds (rawFlag s)).map (fun k => 2 ^ k), x ≤ 2 ^ 15 := by
      intro x hx
      obtain ⟨k, hk, rfl⟩ := List.mem_map.1 hx
      refine Nat.pow_le_pow_right (by omega) ?_
      unfold flagIds at hk
      simp only [List.mem_append, List.mem_flatMap, List.mem_map, List.mem_filter, List.mem_cons, List.not_mem_nil,
        or_false] at hk
      rcases hk with ⟨d, hd, q, ⟨hq, _⟩, rfl⟩ | ⟨h, _⟩ <;> omega
    have hlen : (flagIds (rawFlag s)).length ≤ 11 := by
      have f1 : ∀ d, ((([3, 4] : List Nat).filter (fun q => rawFlag s d && rawFlag s q)).map
          (fun q => 10 + 2 * d + (q - 3))).length ≤ 2 := by
        intro d; rw [List.length_map]; exact List.length_filter_le _ _
      have f2 : (([5, 6, 7, 8, 9] : List Nat).filter (rawFlag s)).length ≤ 5 := List.length_filter_le _ _
      unfold flagIds
      rw [List.length_append]
      simp only [List.flatMap_cons, List.flatMap_nil, List.length_append, List.length_nil]
      have := f1 0; have := f1 1; have := f1 2
      omega
    have := List.sum_le_card_nsmul _ _ h16
    rw [List.length_map, smul_eq_mul] at this
    have : (flagIds (rawFlag s)).length * 2 ^ 15 ≤ 11 * 2 ^ 15 := Nat.mul_le_mul_right _ hlen
    omega

/-! ## The raw flags -/

/-- Raw flag `k` of a window that holds bytes 3 to 6 is bit `FPOS[k].bit` of window byte `FPOS[k].offset` (R263). -/
theorem rawFlag_eq_bit (s : State) (hw : s.cfg.wf = true) (h7 : 7 ≤ s.pn) (k : Nat) (hk : k < 10) :
    rawFlag s k = (pktByte s (s.poff + (s.cfg.csl.fpos.getD k ⟨0, 0⟩).off)).getLsbD
      (s.cfg.csl.fpos.getD k ⟨0, 0⟩).bit := by
  simp only [Params.wf, CurrentLayout.wf, Bool.and_eq_true, decide_eq_true_eq, List.all_eq_true] at hw
  obtain ⟨⟨⟨⟨⟨_, hl⟩, hall⟩, _⟩, _⟩, _⟩ := hw.1.2
  have hk' : k < s.cfg.csl.fpos.length := by omega
  have ho := hall _ (List.getElem_mem hk')
  unfold rawFlag
  rw [List.getD_eq_getElem?_getD, List.getElem?_eq_getElem hk']
  simp only [Option.getD_some, winByte, if_pos (show (s.cfg.csl.fpos[k]).off < s.pn by omega)]

/-! ## What an addressed reassembly ignores -/

/-- A running `UFA` that receives a frame it ignores where it stands spends its unit of budget and changes nothing else
(R163, R165, R167). -/
theorem exec_ignoredWhile (s : State) (f : Frame) (ho : s.opr = .ufa)
    (h : ignoredWhile s.knode (awaitedMarker s) f = true) :
    exec (classifyAddressed s.knode f) s = .next (attempt id s) := by
  have hrec : ∀ rule : State → State, rule { s with bud := s.bud - 1 } = { s with bud := s.bud - 1 } →
      receive .ufa rule s = .next (attempt id s) := by
    intro rule hr
    rw [receive_running ho]
    simp only [attempt, hr, id]
  unfold classifyAddressed
  split
  · exact hrec id rfl
  split
  · exact hrec id rfl
  rename_i h8 hk
  have hk : f.byte 0 = s.knode := by simpa using hk
  have hig : f.ignoredBy s.knode = true → 6 < (f.byte 7).toNat := by
    intro hi
    simp only [Frame.ignoredBy, Bool.or_eq_true, decide_eq_true_eq] at hi
    rcases hi with (hi | hi) | hi
    · exact absurd hi h8
    · exact absurd hk hi
    · exact hi
  have hchunk : ∀ m, (f.byte 7).toNat = m → 1 ≤ m → m ≤ 6 → ∀ c,
      onAddressedChunk m (f.byte 0) c { s with bud := s.bud - 1 } = { s with bud := s.bud - 1 } := by
    intro m hm h1 h6 c
    unfold onAddressedChunk
    rw [if_neg]
    intro hacc
    simp only [chunkAccepted, Bool.and_eq_true, decide_eq_true_eq] at hacc
    obtain ⟨⟨⟨_, ha⟩, hn⟩, hx⟩ := hacc
    simp only [ignoredWhile, Bool.or_eq_true, Bool.and_eq_true, decide_eq_true_eq, awaitedMarker, ha, hn, and_self,
      if_true] at h
    rcases h with (h | h) | h
    · have := hig h; omega
    · have := congrArg BitVec.toNat h.1; rw [hm] at this; simp at this; omega
    · exact h.2 (by rw [hm, hx])
  split
  case _ h0 =>
    refine hrec _ ?_
    have : 32 < (f.byte 1).toNat := by
      simp only [ignoredWhile, Bool.or_eq_true, Bool.and_eq_true, decide_eq_true_eq] at h
      rcases h with (h | h) | h
      · have := hig h; omega
      · exact h.2
      · omega
    unfold onAddressedHeader
    rw [if_neg (by simpa using hk), if_pos this]
  case _ h0 => exact hrec _ (hchunk 1 h0 (by omega) (by omega) _)
  case _ h0 => exact hrec _ (hchunk 2 h0 (by omega) (by omega) _)
  case _ h0 => exact hrec _ (hchunk 3 h0 (by omega) (by omega) _)
  case _ h0 => exact hrec _ (hchunk 4 h0 (by omega) (by omega) _)
  case _ h0 => exact hrec _ (hchunk 5 h0 (by omega) (by omega) _)
  case _ h0 => exact hrec _ (hchunk 6 h0 (by omega) (by omega) _)
  case _ => exact hrec id rfl

end Sys2Proof.Machine
end

