-- ==== Sys2Proof/Tests/Slice0.lean ====
section
/-! SUPPORT. Tests: words written out bit by bit from the spec's encodings, ill-formed terms refused, one step of each
instruction against the vectors of spec/95_test_vectors.md on its test instance `T`, and a witness for the hypotheses of
every statement that has some. Every expected result is the spec's. -/

namespace Sys2Proof.Tests

open Sys2Proof.Machine

/-! ## Helpers -/

/-- The test instance `T` after reset (spec/95_test_vectors.md 0). -/
def idle : State := State.resetOf Params.testT

/-- `T` with a buffer. -/
def buf (bs : List Byte) : State := setBuffer bs idle

/-- `T` with a buffer that is its window whole, as `SETW 0, n` leaves it. -/
def win (bs : List Byte) : State := { buf bs with pn := bs.length }

/-- `T` while a `UFS` runs. -/
def runS : State := startReassembly .ufs idle

/-- `T` while a `UFA` for node 05 runs. -/
def runA : State := startReassembly .ufa { idle with knode := 5 }

/-- A state with one event to come. -/
def given (s : State) (e : Event) : State := { s with inbox := [e] }

/-- Something of the next state; none for a fault or a refusal. -/
def after {α : Type} (r : Result) (f : State → α) : Option α :=
  match r with
  | .next t => some (f t)
  | .fault _ => none
  | .refused _ => none

/-- What one step does with a command word. -/
def cmd {α : Type} (w : CmdWord) (s : State) (f : State → α) : Option α := after (step (given s (.hostCmd w))) f

/-- What one step does with a received frame. -/
def rx {α : Type} (id : FrameId) (d : List Byte) (s : State) (f : State → α) : Option α :=
  after (step (given s (.rxAnswer (.frame ⟨id, d⟩)))) f

/-- The source's voltage-status command (spec/95_test_vectors.md 0). -/
def cmdV : List Byte := [0xEA, 0xD1, 0x01, 0x04, 0xFF, 0x02, 0xF9, 0xF5]

/-- The response packet `RSPV` (spec/95_test_vectors.md 0). -/
def rspV : List Byte := [0xEA, 0xD1, 0x01, 0x0B, 0xFF, 0x02, 0x02, 0x00, 0x00, 0x0F, 0xA0, 0x0F, 0xA5, 0xF1, 0xF5]

/-! ## Decoding: one word of every constructor, from the spec's encodings -/

-- spec/95_test_vectors.md 2.3, 2.7 and 3; spec/30_encoding.md R104, R127
theorem test_decode_nop : decodeCmd 0x0000000000000000 = .nop := by decide
theorem test_decode_srst : decodeCmd 0x0100000000000000 = .srst := by decide
theorem test_decode_frs : decodeCmd 0x1000000000000000 = .frs := by decide
theorem test_decode_fra : decodeCmd 0x1105000000000000 = .fra 5 := by decide
theorem test_decode_ufs : decodeCmd 0x1200000000000000 = .ufs := by decide
theorem test_decode_ufa : decodeCmd 0x1305000000000000 = .ufa 5 := by decide
theorem test_decode_depad : decodeCmd 0x1400000000000000 = .depad := by decide
theorem test_decode_bld : decodeCmd 0x1801000000000000 = .bld 1 := by decide
theorem test_decode_val : decodeCmd 0x1901000000000000 = .val 1 := by decide
theorem test_decode_setw : decodeCmd 0x2000000000060007 = .setw 6 7 := by decide
theorem test_decode_gu8 : decodeCmd 0x210100030001FFD8 = .gu8 1 1 (-40) 0 .degc := by decide
theorem test_decode_gu16 : decodeCmd 0x220301D100010000 = .gu16 3 .z 1 0 (-3) .v := by decide
theorem test_decode_gu16_minutes : decodeCmd 0x2200020600010000 = .gu16 0 .m 1 0 0 .min := by decide
theorem test_decode_gs16 : decodeCmd 0x230101E200010000 = .gs16 1 .z 1 0 (-2) .a := by decide
theorem test_decode_gu32 : decodeCmd 0x2400000000010000 = .gu32 0 1 0 0 .none := by decide
theorem test_decode_gnh : decodeCmd 0x2500000000010000 = .gnh 0 1 0 0 .none := by decide
theorem test_decode_gnl : decodeCmd 0x2600000000010000 = .gnl 0 1 0 0 .none := by decide
theorem test_decode_gbcd : decodeCmd 0x2700000000010000 = .gbcd 0 1 0 0 .none := by decide
theorem test_decode_gbit : decodeCmd 0x2800020000000000 = .gbit 0 2 := by decide
theorem test_decode_gcode : decodeCmd 0x2900010000000000 = .gcode 0 1 := by decide
theorem test_decode_gts : decodeCmd 0x2A00000000000000 = .gts 0 := by decide
theorem test_decode_dvolt : decodeCmd 0x3000000000000000 = .dvolt := by decide
theorem test_decode_dcurr : decodeCmd 0x3100000000000000 = .dcurr := by decide
theorem test_decode_dpwr : decodeCmd 0x3200000000000000 = .dpwr := by decide

/-- Vectors Y3 to Y10 (spec/95_test_vectors.md 2.7): each is illegal. -/
theorem test_decode_illegal :
    ([0xFF00000000000000, 0x1000000000000001, 0x2100030000010000, 0x2100010000010000, 0x2200000700010000,
      0x2800080000000000, 0x2A00000000000001, 0x0200000000000000, 0x1500000000000000, 0x3300000000000000]
      : List CmdWord).all (fun w => decodeCmd w == .illegal w) = true := by decide

-- spec/30_encoding.md R112 on the receive ids of `T`
theorem test_decode_start : classifySentinel Params.testT ⟨0x200, [1, 2]⟩ = .frameSentinelStart := by decide
theorem test_decode_data : classifySentinel Params.testT ⟨0x201, [0xAA, 0xBB, 0xCC]⟩
    = .frameSentinelData [0xAA, 0xBB, 0xCC, 0, 0, 0, 0, 0] := by decide
theorem test_decode_end : classifySentinel Params.testT ⟨0x202, []⟩ = .frameSentinelEnd := by decide
theorem test_decode_other : classifySentinel Params.testT ⟨0x101, []⟩ = .frameSentinelOther 0x101 := by decide

-- spec/95_test_vectors.md 2.1, frames of G2 and G7; spec/30_encoding.md R114 to R118
theorem test_decode_header : classifyAddressed 5 ⟨7, [0x05, 0x0F, 0, 0, 0, 0, 0, 0]⟩ = .frameAddressedHeader 5 0x0F := by
  decide
theorem test_decode_chunk1 : classifyAddressed 5 ⟨7, [0x05, 0xEA, 0xD1, 0x01, 0x0B, 0xFF, 0x00, 0x01]⟩
    = .frameAddressedChunk1 5 [0xEA, 0xD1, 0x01, 0x0B, 0xFF] := by decide
theorem test_decode_chunk2 : classifyAddressed 5 ⟨7, [0x05, 0x02, 0x02, 0x00, 0x00, 0x0F, 0xA0, 0x02]⟩
    = .frameAddressedChunk2 5 [0x02, 0x02, 0x00, 0x00, 0x0F, 0xA0] := by decide
theorem test_decode_chunk3 : classifyAddressed 5 ⟨7, [0x05, 0x0F, 0xA5, 0xF1, 0xF5, 0x00, 0x00, 0x03]⟩
    = .frameAddressedChunk3 5 [0x0F, 0xA5, 0xF1, 0xF5, 0x00, 0x00] := by decide
theorem test_decode_chunk4 : classifyAddressed 0x7F ⟨7, [0x7F, 0x12, 0x13, 0x14, 0x15, 0x16, 0x17, 0x04]⟩
    = .frameAddressedChunk4 0x7F [0x12, 0x13, 0x14, 0x15, 0x16, 0x17] := by decide
theorem test_decode_chunk5 : classifyAddressed 0x7F ⟨7, [0x7F, 0x18, 0x19, 0x1A, 0x1B, 0x1C, 0x1D, 0x05]⟩
    = .frameAddressedChunk5 0x7F [0x18, 0x19, 0x1A, 0x1B, 0x1C, 0x1D] := by decide
theorem test_decode_chunk6 : classifyAddressed 0x7F ⟨7, [0x7F, 0x1E, 0x1F, 0x20, 0x00, 0x00, 0x00, 0x06]⟩
    = .frameAddressedChunk6 0x7F [0x1E, 0x1F, 0x20] := by decide
theorem test_decode_ignored : classifyAddressed 5 ⟨7, [0x05, 9, 9, 9, 9, 9, 9, 0x07]⟩
    = .frameAddressedIgnored ⟨7, [0x05, 9, 9, 9, 9, 9, 9, 0x07]⟩ := by decide

-- spec/95_test_vectors.md E1; a bad checksum is rejected by name
theorem test_decode_packet : decodePacket cmdV = .instr (.packetSp 0x01 [0xFF, 0x02]) := by decide
theorem test_decode_packet_rejected :
    decodePacket [0xEA, 0xD1, 0x01, 0x04, 0xFF, 0x02, 0xF8, 0xF5] = .reject .badChecksum := by decide

-- how the opcode table's bits reach the decoder (log entry 12)
theorem test_table_word : decodeTableWord 64 0x1801000000000000 = some (.bld 1) := by decide
theorem test_table_marker : decodeTableWord 8 0x02 = some (.frameAddressedChunk2 0 [0, 0, 0, 0, 0, 0]) := by decide

/-! ## WellFormed: an ill-formed term for each check -/

theorem test_wf_illegal : (Instr.illegal 0x1000000000000000).wf = false := by decide
theorem test_wf_data : (Instr.frameSentinelData [1, 2, 3]).wf = false := by decide
theorem test_wf_chunk1 : (Instr.frameAddressedChunk1 5 [1, 2, 3, 4, 5, 6]).wf = false := by decide
theorem test_wf_chunk2 : (Instr.frameAddressedChunk2 5 [1, 2, 3, 4, 5]).wf = false := by decide
theorem test_wf_chunk3 : (Instr.frameAddressedChunk3 5 []).wf = false := by decide
theorem test_wf_chunk4 : (Instr.frameAddressedChunk4 5 [1]).wf = false := by decide
theorem test_wf_chunk5 : (Instr.frameAddressedChunk5 5 [1, 2, 3, 4, 5, 6, 7]).wf = false := by decide
theorem test_wf_chunk6 : (Instr.frameAddressedChunk6 5 [1, 2, 3, 4]).wf = false := by decide
theorem test_wf_ignored : (Instr.frameAddressedIgnored ⟨0, List.replicate 9 0⟩).wf = false := by decide
theorem test_wf_packet : (Instr.packetSp 1 (List.replicate 254 0)).wf = false := by
  show decide ((List.replicate 254 (0 : Byte)).length ≤ 253) = false
  rw [List.length_replicate]; decide
theorem test_wf_context_other : (Instr.frameSentinelOther 0x201).inContext Params.testT 5 = false := by decide
theorem test_wf_context_node : (Instr.frameAddressedHeader 6 1).inContext Params.testT 5 = false := by decide
theorem test_wf_context_ignored :
    (Instr.frameAddressedIgnored ⟨0, [5, 0, 0, 0, 0, 0, 0, 6]⟩).inContext Params.testT 5 = false := by decide

-- the constraints on an instance (R6, R260, R272)
theorem test_wf_params : Params.testT.wf = true := by decide
theorem test_wf_params_ids : ({ Params.testT with rxSidEnd := 0x200 }).wf = false := by decide
theorem test_wf_params_budget : ({ Params.testT with rxBudget := 0 }).wf = false := by decide
theorem test_wf_params_order :
    ({ Params.testT with tsOrder := [.year, .year, .day, .hour, .minute, .second] }).wf = false := by decide
theorem test_wf_params_csl : ({ Params.testT with csl := { Params.testT.csl with nt := 33 } }).wf = false := by decide
theorem test_wf_params_psl : ({ Params.testT with psl := { Params.testT.psl with nvc := 9 } }).wf = false := by decide

/-! ## One step of each instruction, spec/95_test_vectors.md section 2 -/

-- Y1, Y2
theorem test_nop : cmd 0x0000000000000000 { idle with status := { idle.status with code := .badChecksum } }
    (fun t => statusWord t.status) = some 0x00000002 := by decide
theorem test_srst : cmd 0x0100000000000000
    { buf rspV with sph := .data, rn := 16, aOpen := true, aNext := 3, aT := 15, aN := 11, poff := 6, pn := 7, outn := 4,
                    status := { idle.status with ovr := true } }
    (fun t => ([t.rn, t.aNext, t.aT, t.aN, t.poff, t.pn, t.outn, t.plen], t.sph, t.aOpen, statusWord t.status))
      = some ([0, 1, 0, 0, 0, 0, 0, 15], .idle, false, 0x00000002) := by decide
-- Y3, Y11
theorem test_illegal : cmd 0xFF00000000000000 idle (fun t => statusWord t.status) = some 0x00003F02 := by decide
theorem test_dropped_while_busy : cmd 0x1000000000000000 runS (fun t => (statusWord t.status, t.tx, t.bud))
    = some (0x00000005, [], 8) := by decide

-- F3, F4
theorem test_frs : cmd 0x1000000000000000 (buf [1, 2, 3, 4, 5, 6, 7, 8, 9]) (fun t => t.tx)
    = some [⟨0x100, [0, 0, 0, 0, 0, 0, 0, 0]⟩, ⟨0x101, [1, 2, 3, 4, 5, 6, 7, 8]⟩, ⟨0x101, [9, 0, 0, 0, 0, 0, 0, 0]⟩,
            ⟨0x102, [0, 0, 0, 0, 0, 0, 0, 0]⟩] := by decide
theorem test_frs_empty : cmd 0x1000000000000000 idle (fun t => (statusWord t.status, t.tx)) = some (0x00002002, []) := by
  decide
-- G2, G8
theorem test_fra : cmd 0x1105000000000000 (buf rspV) (fun t => t.tx)
    = some [⟨0x300, [0x05, 0x0F, 0, 0, 0, 0, 0, 0]⟩, ⟨0x300, [0x05, 0xEA, 0xD1, 0x01, 0x0B, 0xFF, 0x00, 0x01]⟩,
            ⟨0x300, [0x05, 0x02, 0x02, 0x00, 0x00, 0x0F, 0xA0, 0x02]⟩,
            ⟨0x300, [0x05, 0x0F, 0xA5, 0xF1, 0xF5, 0x00, 0x00, 0x03]⟩] := by decide
theorem test_fra_too_long : cmd 0x1109000000000000 { idle with plen := 33 } (fun t => (statusWord t.status, t.tx))
    = some (0x00002102, []) := by decide
-- P2 step 1, P3 step 4
theorem test_ufs : cmd 0x1200000000000000 idle (fun t => (statusWord t.status, t.bud, t.opr))
    = some (0x00000001, 8, .ufs) := by decide
theorem test_ufa : cmd 0x1305000000000000 idle (fun t => (statusWord t.status, t.bud, t.opr, t.knode))
    = some (0x00000001, 8, .ufa, 5) := by decide
-- D1, D6
theorem test_depad : cmd 0x1400000000000000 (buf (rspV ++ [0])) (fun t => t.plen) = some 15 := by decide
theorem test_depad_keeps_nonzero : cmd 0x1400000000000000 (buf (rspV ++ [1])) (fun t => t.plen) = some 16 := by decide

-- B1, B7
theorem test_bld : cmd 0x1801000000000000 (buf [0xFF, 0x02]) (fun t => pktBytes t 0 t.plen) = some cmdV := by decide
theorem test_bld_too_long : cmd 0x1801000000000000 { idle with plen := 254 } (fun t => (statusWord t.status, t.plen))
    = some (0x00002102, 254) := by decide
-- V2, V16
theorem test_val : cmd 0x1901000000000000 (buf rspV) (fun t => (statusWord t.status, t.vaddr, t.vlen, t.poff, t.pn))
    = some (0x00000002, 0x01, 0x0B, 6, 7) := by decide
theorem test_val_checksum : cmd 0x1901000000000000 { buf [0xEA, 0xD1, 0x01, 0x04, 0xFF, 0x02, 0xF8, 0xF5] with pn := 3 }
    (fun t => (statusWord t.status, t.pn)) = some (0x00001402, 0) := by decide

-- W1, W5
theorem test_setw : cmd 0x2000000000060007 (buf rspV) (fun t => (statusWord t.status, t.poff, t.pn))
    = some (0x00000002, 6, 7) := by decide
theorem test_setw_no_wrap : cmd 0x20000000FFFFFFFF (buf rspV) (fun t => (statusWord t.status, t.poff, t.pn))
    = some (0x00002202, 0, 0) := by decide
-- X1, X2
theorem test_gu8 : cmd 0x210100030001FFD8 (win [0x1E, 0x41]) (fun t => recordBits 0 0 t.res)
    = some 0x00001300000000000000000000000019 := by decide
theorem test_gu8_absent : cmd 0x210200030001FFD8 (win [0x1E, 0x41]) (fun t => recordBits 0 0 t.res) = some 0 := by decide
-- X8, X10
theorem test_gu16 : cmd 0x2200020600010000 (win [0xFF, 0xFF]) (fun t => recordBits 0 0 t.res)
    = some 0x0000160000000000FFFFFFFFFFFFFFFF := by decide
theorem test_gu16_bypass : cmd 0x2200010000030007 (win [0xFF, 0xFF]) (fun t => t.res) = some ⟨.num, .none, 0, 0⟩ := by
  decide
-- X11, X14
theorem test_gs16 : cmd 0x230101E200010000 (win [0x00, 0xFF, 0x38]) (fun t => recordBits 0 0 t.res)
    = some 0x000012E000000000FFFFFFFFFFFFFF38 := by decide
theorem test_gs16_lowest : cmd 0x230000E200010000 (win [0x80, 0x00]) (fun t => t.res)
    = some ⟨.num, .a, -2, -32768⟩ := by decide
-- X16, X17
theorem test_gu32 : cmd 0x2400000000010000 (win [0x00, 0x01, 0x86, 0xA0]) (fun t => t.res)
    = some ⟨.num, .none, 0, 100000⟩ := by decide
theorem test_gu32_largest : cmd 0x24000000FFFF8000 (win [0xFF, 0xFF, 0xFF, 0xFF]) (fun t => t.res)
    = some ⟨.num, .none, 0, 281470681645057⟩ := by decide
-- X19, X20
theorem test_gnh : cmd 0x2500000000010000 (win [0xB7]) (fun t => t.res) = some ⟨.num, .none, 0, 11⟩ := by decide
theorem test_gnl : cmd 0x2600000000010000 (win [0xB7]) (fun t => t.res) = some ⟨.num, .none, 0, 7⟩ := by decide
-- X21, X23
theorem test_gbcd : cmd 0x2700000000010000 (win [0x99]) (fun t => t.res) = some ⟨.num, .none, 0, 99⟩ := by decide
theorem test_gbcd_corrupt : cmd 0x2700000000010000 (win [0x9A]) (fun t => t.res) = some ⟨.corrupt, .none, 0, 0⟩ := by
  decide
-- X25, X26
theorem test_gbit : cmd 0x2800020000000000 (win [0x05]) (fun t => t.res) = some ⟨.bool, .none, 0, 1⟩ := by decide
theorem test_gbit_clear : cmd 0x2800010000000000 (win [0x05]) (fun t => t.res) = some ⟨.bool, .none, 0, 0⟩ := by decide
-- X28, X29
theorem test_gcode : cmd 0x2900010000000000 (win [0x01]) (fun t => t.res) = some ⟨.code, .none, 0, 257⟩ := by decide
theorem test_gcode_raw : cmd 0x2900010000000000 (win [0xFF]) (fun t => recordBits 0 0 t.res)
    = some 0x000040000000000000000000000000FF := by decide
-- X31, X34
theorem test_gts : cmd 0x2A00000000000000 (win [0x24, 0x03, 0x15, 0x10, 0x30, 0x59]) (fun t => recordBits 0 0 t.res)
    = some 0x0000600000000000000018030F0A1E3B := by decide
theorem test_gts_leap : cmd 0x2A00000000000000 (win [0x23, 0x02, 0x29, 0x00, 0x00, 0x00]) (fun t => t.res)
    = some ⟨.corrupt, .none, 0, 0⟩ := by decide

-- DV1, DV5
theorem test_dvolt : cmd 0x3000000000000000 (win [0x02, 0x00, 0x00, 0x0F, 0xA0, 0x0F, 0xA5])
    (fun t => (t.outn, (List.range 4).map (fun k => recordBits (outAt t.out k).key (outAt t.out k).idx (outAt t.out k).val)))
    = some (4, [0x01001000000000000000000000000002, 0x020111D0000000000000000000000FA0,
        0x020211D0000000000000000000000FA5, 0x030011D0000000000000000000000005]) := by decide
theorem test_dvolt_short : cmd 0x3000000000000000 (win [0x03, 0x00, 0x00, 0x0F, 0xA0, 0x0F, 0xA5, 0x10])
    (fun t => (t.outn, outAt t.out 3, outAt t.out 4))
    = some (5, ⟨0x02, 3, ⟨.absent, .none, 0, 0⟩⟩, ⟨0x03, 0, ⟨.num, .v, -3, 5⟩⟩) := by decide
-- DC1, DC2
theorem test_dcurr : cmd 0x3100000000000000 (win [0x03, 0x00, 0xC8, 0x80, 0x09, 0x02, 0x00, 0x3C, 0x3D, 0x46, 0x41, 0x00,
      0x64, 0x00, 0x00, 0x05, 0x12, 0x03, 0x00])
    (fun t => (t.outn, (List.range 13).map (fun k => (outAt t.out k).val.mant)))
    = some (13, [1, 1, -200, 1088, 20, 21, 30, 25, 100, 5, 18, 3, 0]) := by decide
theorem test_dcurr_no_probes : cmd 0x3100000000000000 (win [0x00, 0xFF, 0x38, 0x00, 0x01, 0x00, 0x00, 0x3C, 0x3D, 0x00,
      0x64, 0x80, 0x00, 0x00, 0x12, 0x03])
    (fun t => (t.outn, (List.range 13).map (fun k => ((outAt t.out k).val.tag, (outAt t.out k).val.mant))))
    = some (13, [(.bool, 0), (.bool, 0), (.num, -200), (.flags, 0), (.num, 20), (.num, 21), (.absent, 0), (.absent, 0),
        (.num, 100), (.flags, 8388608), (.num, 18), (.flags, 3), (.absent, 0)]) := by decide
-- DP1, DP3
theorem test_dpwr : cmd 0x3200000000000000 (win [0x55, 0x00, 0x2A, 0x00, 0x00, 0x27, 0x10, 0x00, 0x00, 0x26, 0xAC, 0x00,
      0x00, 0x20, 0xD0, 0x00, 0x78, 0xFF, 0xFF, 0x14, 0xD2, 0x0F, 0xA0, 0x0F, 0xA5, 0x0D, 0x07, 0x12])
    (fun t => (t.outn, (List.range 13).map (fun k => (outAt t.out k).val.mant)))
    = some (13, [85, 42, 10000, 9900, 8400, 120, -1, 5330, 4000, 4005, 7, 65281, 2]) := by decide
theorem test_dpwr_no_marker : cmd 0x3200000000000000 (win [0x55, 0x00, 0x2A, 0x00, 0x00, 0x27, 0x10, 0x00, 0x00, 0x26,
      0xAC, 0x00, 0x00, 0x20, 0xD0, 0x00, 0x78, 0xFF, 0xFF, 0x14, 0xD2, 0x0F, 0xA0, 0x0F, 0xA5])
    (fun t => (t.outn, (outAt t.out 10).val, (outAt t.out 11).val, (outAt t.out 12).val))
    = some (13, ⟨.absent, .none, 0, 0⟩, ⟨.code, .none, 0, 65280⟩, ⟨.absent, .none, 0, 0⟩) := by decide

-- S1 and S6: a start frame, also with a buffer open
theorem test_start : rx 0x200 [] runS (fun t => (t.sph, t.rn, t.bud)) = some (.start, 0, 7) := by decide
theorem test_start_restarts : rx 0x200 [] { runS with sph := .data, rn := 8 } (fun t => (t.sph, t.rn, t.bud))
    = some (.start, 0, 7) := by decide
-- S14, S3
theorem test_data : rx 0x201 [0xAA, 0xBB, 0xCC] { runS with sph := .start } (fun t => (t.sph, t.rn, t.bud, rbBytes t 8))
    = some (.data, 8, 7, [0xAA, 0xBB, 0xCC, 0, 0, 0, 0, 0]) := by decide
theorem test_data_without_start : rx 0x201 [0xAA] runS (fun t => (t.sph, t.rn, t.bud)) = some (.idle, 0, 7) := by decide
-- S7 (completion before the budget), S4
theorem test_end : rx 0x202 [] { runS with sph := .data, rn := 8, rb := cellsFrom 0 cmdV, bud := 1 }
    (fun t => (t.sph, t.rn, t.bud, statusWord t.status, pktBytes t 0 t.plen)) = some (.idle, 0, 0, 0x00000002, cmdV) := by
  decide
theorem test_end_after_start : rx 0x202 [] { runS with sph := .start } (fun t => (t.sph, t.bud, t.status.busy))
    = some (.idle, 7, true) := by decide
-- S5, S11
theorem test_other : rx 0x101 [] { runS with sph := .data, rn := 8 } (fun t => (t.sph, t.rn, t.bud))
    = some (.idle, 0, 7) := by decide
theorem test_other_last : rx 0x101 [] { runS with bud := 1 } (fun t => (t.bud, statusWord t.status))
    = some (0, 0x00000102) := by decide
-- A1, A3
theorem test_header : rx 7 [0x05, 0x0F, 0, 0, 0, 0, 0, 0] runA (fun t => (t.aOpen, t.aNext, t.aT, t.aN, t.bud))
    = some (true, 1, 15, 0, 7) := by decide
theorem test_header_empty : rx 7 [0x05, 0, 0, 0, 0, 0, 0, 0] { runA with plen := 9 }
    (fun t => (t.aOpen, t.plen, statusWord t.status)) = some (false, 0, 0x00000002) := by decide
-- A1, A6
theorem test_chunk1 : rx 7 [0x05, 0xEA, 0xD1, 0x01, 0x0B, 0xFF, 0x00, 0x01]
    { runA with aOpen := true, aNode := 5, aT := 15 } (fun t => (t.aOpen, t.aNext, t.aT, t.aN, abBytes t 5))
    = some (true, 2, 15, 5, [0xEA, 0xD1, 0x01, 0x0B, 0xFF]) := by decide
theorem test_chunk1_completes : rx 7 [0x05, 0xAA, 0xBB, 0xCC, 0xDD, 0xEE, 0x00, 0x01]
    { runA with aOpen := true, aNode := 5, aT := 3 } (fun t => (t.aOpen, t.aNext, t.aN, pktBytes t 0 t.plen))
    = some (false, 1, 0, [0xAA, 0xBB, 0xCC]) := by decide
-- A1, A2 (a chunk that is not the next one is skipped)
theorem test_chunk2 : rx 7 [0x05, 0x02, 0x02, 0x00, 0x00, 0x0F, 0xA0, 0x02]
    { runA with aOpen := true, aNode := 5, aT := 15, aN := 5, aNext := 2 } (fun t => (t.aOpen, t.aNext, t.aT, t.aN))
    = some (true, 3, 15, 11) := by decide
theorem test_chunk3_early : rx 7 [0x05, 0x0F, 0xA5, 0xF1, 0xF5, 0x00, 0x00, 0x03]
    { runA with aOpen := true, aNode := 5, aT := 15, aN := 5, aNext := 2 } (fun t => (t.aOpen, t.aNext, t.aN, t.bud))
    = some (true, 2, 5, 7) := by decide
theorem test_chunk3 : rx 7 [0x05, 0x0F, 0xA5, 0xF1, 0xF5, 0x00, 0x00, 0x03]
    { runA with aOpen := true, aNode := 5, aT := 15, aN := 11, aNext := 3, ab := cellsFrom 0 (rspV.take 11) }
    (fun t => (t.aOpen, pktBytes t 0 t.plen)) = some (false, rspV) := by decide
-- A8
theorem test_chunk4 : rx 7 [0x05, 0x12, 0x13, 0x14, 0x15, 0x16, 0x17, 0x04]
    { runA with aOpen := true, aNode := 5, aT := 32, aN := 17, aNext := 4 } (fun t => (t.aNext, t.aN)) = some (5, 23) := by
  decide
theorem test_chunk5 : rx 7 [0x05, 0x18, 0x19, 0x1A, 0x1B, 0x1C, 0x1D, 0x05]
    { runA with aOpen := true, aNode := 5, aT := 32, aN := 23, aNext := 5 } (fun t => (t.aNext, t.aN)) = some (6, 29) := by
  decide
theorem test_chunk6 : rx 7 [0x05, 0x1E, 0x1F, 0x20, 0x00, 0x00, 0x00, 0x06]
    { runA with aOpen := true, aNode := 5, aT := 32, aN := 29, aNext := 6 }
    (fun t => (t.aOpen, t.aNext, t.plen, pktBytes t 29 3)) = some (false, 1, 32, [0x1E, 0x1F, 0x20]) := by decide
-- A2 (marker 7), A7 (7 bytes)
theorem test_ignored : rx 7 [0x05, 9, 9, 9, 9, 9, 9, 0x07] runA (fun t => (t.aOpen, t.bud)) = some (false, 7) := by decide
theorem test_ignored_short : rx 7 [0x05, 0x0F, 0, 0, 0, 0, 0] runA (fun t => (t.aOpen, t.bud)) = some (false, 7) := by
  decide
-- the hand-over of E1's packet (R34, R35; log entry 10)
theorem test_packet : after (step (given idle (.hostBuffer cmdV))) (fun t => (t.plen, pktBytes t 0 8)) = some (8, cmdV) := by
  decide

-- Y13, Y14, Y15: host writes
theorem test_host_status : after (step (given { idle with status := ⟨false, true, true, .timeout⟩ }
    (.hostWrite 0x008 32 0x00000004))) (fun t => statusWord t.status) = some 0x00000102 := by decide
theorem test_host_pkt_clears_window : after (step (given { buf rspV with poff := 6, pn := 7 } (.hostWrite 0x114 8 0)))
    (fun t => (t.poff, t.pn, pktByte t 20)) = some (0, 0, 0) := by decide
theorem test_host_plen_bound : after (step (given (buf rspV) (.hostWrite 0x00C 32 265))) (fun t => t.plen) = some 15 := by
  decide
/-- The two canonical memory forms after a write that overlaps and one that leaves a gap. -/
theorem test_memory_wf : (Memory.wf pktCap (blit 2 [7, 8] (blit 0 [1, 2, 3] [])) && Memory.wf pktCap (blit 200 [1] [(3, 4)]))
    = true := by decide

/-! ## Witnesses: a state and operands that meet the hypotheses of each statement, at the ends of its clauses' ranges -/

/-- `T` while busy. -/
def busyT : State := runS

theorem test_hyp_DecodeInvertsEncode : Params.testT.wf = true
    ∧ ([.gu16 255 .m 65535 0x8000 7 .min, .illegal 0x3300000000000000, .frameSentinelData [1, 2, 3, 4, 5, 6, 7, 8],
        .frameSentinelOther 0x7FF, .frameAddressedHeader 5 0xFF, .frameAddressedChunk6 5 [1, 2, 3],
        .frameAddressedIgnored ⟨0, [5, 0, 0, 0, 0, 0, 0, 7]⟩, .packetSp 0xFF []] : List Instr).all
        (fun i => i.wf && i.inContext Params.testT 5) = true := by decide

theorem test_hyp_SentinelFramesClassifiedById : Params.testT.wf = true
    ∧ (⟨0x200, []⟩ : Frame).id = Params.testT.rxSidStart ∧ (⟨0x201, []⟩ : Frame).id = Params.testT.rxSidData
    ∧ (⟨0x202, []⟩ : Frame).id = Params.testT.rxSidEnd ∧ (⟨0x203, []⟩ : Frame).id ∉ [Params.testT.rxSidStart,
      Params.testT.rxSidData, Params.testT.rxSidEnd] := by decide

theorem test_hyp_AddressedFramesClassified :
    ((⟨0, [5, 0, 0, 0, 0, 0, 0]⟩ : Frame).len ≠ 8 ∧ [6, 0, 0, 0, 0, 0, 0, 0].getD 0 0 ≠ (5 : Byte)
      ∧ 6 < ([5, 0, 0, 0, 0, 0, 0, 7].getD 7 (0 : Byte)).toNat)
    ∧ ((⟨0, [5, 9, 0, 0, 0, 0, 0, 0]⟩ : Frame).len = 8 ∧ [5, 9, 0, 0, 0, 0, 0, 0].getD 7 (1 : Byte) = 0)
    ∧ ([5, 0, 0, 0, 0, 0, 0, 1].getD 7 (0 : Byte)).toNat = 1 ∧ ([5, 0, 0, 0, 0, 0, 0, 6].getD 7 (0 : Byte)).toNat = 6 := by
  decide

theorem test_hyp_StepRunsDecodedInstruction :
    (given idle (.hostCmd 0)).inbox = .hostCmd 0 :: [] ∧ (given idle (.hostWrite 0x000 64 0)).inbox = .hostWrite 0x000 64 0 :: []
    ∧ ((given runS (.rxAnswer (.frame ⟨0x200, zeroData⟩))).inbox = .rxAnswer (.frame ⟨0x200, zeroData⟩) :: []
      ∧ (⟨0x200, zeroData⟩ : Frame).len ≤ 8 ∧ (given runS .reset).opr = .ufs) ∧ (given runA .reset).opr = .ufa
    ∧ ((given idle (.hostBuffer cmdV)).inbox = .hostBuffer cmdV :: []
      ∧ decodePacket cmdV = .instr (.packetSp 1 [0xFF, 0x02])) ∧ idle.inbox = [] := by decide

theorem test_hyp_ResetHasInvariant : Params.testT.wf = true := by decide

/-- A state that is sound and about to take a `NOP`, and its next state. -/
theorem test_hyp_StepKeepsInvariant : Sound (given idle (.hostCmd 0))
    ∧ step (given idle (.hostCmd 0)) = .next (ended .ok { given idle (.hostCmd 0) with inbox := [] }) := by
  refine ⟨⟨by decide, by simp [statusSound, given, idle, State.resetOf],
    by simp [windowSound, given, idle, State.resetOf], by simp [sentinelSound, given, idle, State.resetOf],
    by simp [addressedSound, given, idle, State.resetOf], by unfold memoriesSound; decide,
    by simp [given, idle, State.resetOf], by unfold Value.fits; decide⟩, rfl⟩

theorem test_hyp_ResetInputGivesResetState : (given busyT .reset).inbox = .reset :: [] := by decide

theorem test_hyp_WordWhileBusyIsDropped :
    ((given idle (.hostCmd 0)).inbox = .hostCmd 0 :: [] ∧ (given idle (.hostCmd 0)).status.busy = false)
    ∧ (given busyT (.hostWrite 0x000 64 ((0 : CmdWord).setWidth 128))).inbox
        = .hostWrite 0x000 64 ((0 : CmdWord).setWidth 128) :: []
    ∧ (given busyT (.hostCmd 0)).status.busy = true := by decide

theorem test_hyp_NopAndSrst : idle.status.busy = false ∧ (given busyT (.hostCmd 0x0100000000000000)).status.busy = true
    ∧ (given busyT (.hostCmd 0x0100000000000000)).inbox = .hostCmd 0x0100000000000000 :: [] := by decide

theorem test_hyp_IllegalWordEndsIllegal : wordIllegal 0xFF00000000000000 = true
    ∧ (given idle (.hostCmd 0xFF00000000000000)).inbox = .hostCmd 0xFF00000000000000 :: []
    ∧ idle.status.busy = false ∧ busyT.status.busy = true := by decide

/-- A field read and a decode program with their next states. -/
theorem test_hyp_StatusAndValueLayouts :
    let s := win [7]
    let t : State := { ended .ok s with res := ⟨.bool, .none, 0, 1⟩ }
    s.cfg.wf = true ∧ s.status.busy = false ∧ exec (.gbit 0 0) s = .next t ∧ fieldSpan (.gbit 0 0) ≠ none
    ∧ (∃ u, exec .dvolt s = .next u ∧ 0 < u.outn) := by
  refine ⟨by decide, by decide, by rfl, by decide, _, rfl, by decide⟩

/-- `NOP` on a sound idle block, and the events each clause of the flags names. -/
theorem test_hyp_StatusFollowsCommandCycle :
    exec .nop idle = .next (ended .ok idle)
    ∧ (Sound (given idle (.hostCmd 0)) ∧ (given idle (.hostCmd 0)).inbox = .hostCmd 0 :: []
      ∧ (∀ bs, Event.hostCmd 0 ≠ .hostBuffer bs)
      ∧ step (given idle (.hostCmd 0)) = .next (ended .ok { given idle (.hostCmd 0) with inbox := [] }))
    ∧ commandOf (.hostCmd 0) ≠ none
    ∧ (refusedWhileBusy (.hostWrite 0x00C 32 264) ∧ refusedWhileBusy (.hostWrite (0x100 + 263) 8 0))
    ∧ (clearsOvr (.hostWrite 0x008 32 4) ∧ clearsOvr (.hostCmd 0x0100000000000000)) :=
  ⟨rfl, ⟨test_hyp_StepKeepsInvariant.1, rfl, fun _ => nofun, test_hyp_StepKeepsInvariant.2⟩, by decide,
    ⟨.inr (.inl ⟨264, rfl, by decide⟩), .inr (.inr ⟨263, 0, by decide, rfl⟩)⟩,
    ⟨.inl ⟨4, rfl, by decide⟩, .inr (.inl (by decide))⟩⟩

theorem test_hyp_FrsSendsSentinelFrames : idle.status.busy = false ∧ idle.plen = 0
    ∧ { idle with plen := 1 }.plen ≠ 0 ∧ { idle with plen := 264 }.plen ≠ 0 := by decide

theorem test_hyp_FraSendsAddressedFrames : idle.status.busy = false ∧ idle.plen ≤ 32 ∧ { idle with plen := 32 }.plen ≤ 32
    ∧ 32 < { idle with plen := 33 }.plen := by decide

theorem test_hyp_ReassemblyStart : idle.status.busy = false
    ∧ ((given runS (.rxAnswer .empty)).inbox = .rxAnswer .empty :: [] ∧ runS.opr ≠ .none)
    ∧ (given idle (.rxAnswer .empty)).inbox = .rxAnswer .empty :: [] ∧ (given idle (.rxAnswer .empty)).opr = .none
    ∧ ∀ f, Answer.empty = .frame f → f.len ≤ 8 := by
  refine ⟨by decide, by decide, by decide, by decide, fun f h => by cases h⟩

/-- One zero byte and seven zero bytes are dropped; eight are not (vectors D1, D5, D4). -/
theorem test_hyp_DepadDropsOnlyPadding :
    let pads := fun s : State => 4 ≤ s.plen ∧ (pktByte s 3).toNat + 4 < s.plen
      ∧ s.plen - ((pktByte s 3).toNat + 4) ≤ 7 ∧ ∀ i, i < s.plen → (pktByte s 3).toNat + 4 ≤ i → pktByte s i = 0
    pads (buf (rspV ++ [0])) ∧ pads (buf (cmdV ++ List.replicate 7 0)) ∧ ¬ pads (buf (cmdV ++ List.replicate 8 0))
    ∧ ¬ pads { idle with plen := 3 } ∧ (buf rspV).status.busy = false := by decide

theorem test_hyp_StartFrameRestartsOtherAbandons : runS.opr = .ufs ∧ { runS with bud := 1 }.opr = .ufs := by decide

theorem test_hyp_DataFrameAccumulates : runS.opr = .ufs ∧ zeroData.length = 8 ∧ runS.sph = .idle
    ∧ ({ runS with sph := .start }.sph ≠ .idle ∧ { runS with sph := .start }.rn + 8 ≤ 264)
    ∧ ({ runS with sph := .data, rn := 256 }.sph ≠ .idle ∧ { runS with sph := .data, rn := 256 }.rn + 8 ≤ 264)
    ∧ 264 < { runS with sph := .data, rn := 264 }.rn + 8 := by decide

theorem test_hyp_EndFrameCompletes : { runS with sph := .data, rn := 8 }.opr = .ufs
    ∧ { runS with sph := .data, rn := 8 }.sph = .data ∧ { runS with sph := .start }.sph ≠ .data := by decide

theorem test_hyp_EmptyAnswerOnlyCostsBudget : (given runS (.rxAnswer .empty)).inbox = .rxAnswer .empty :: []
    ∧ runS.opr ≠ .none ∧ runA.opr ≠ .none := by decide

theorem test_hyp_HeaderFrameOpens : runA.opr = .ufa ∧ (5 : Byte) = runA.knode ∧ (6 : Byte) ≠ runA.knode
    ∧ 1 ≤ (1 : Byte).toNat ∧ (32 : Byte).toNat ≤ 32 ∧ 32 < (33 : Byte).toNat := by decide

theorem test_hyp_UnexpectedFramesIgnored : runA.opr = .ufa
    ∧ ¬ ((5 : Byte) = runA.knode ∧ runA.aOpen = true ∧ runA.aNode = runA.knode ∧ 1 = runA.aNext)
    ∧ ¬ ((5 : Byte) = runA.knode ∧ { runA with aOpen := true, aNode := 5 }.aOpen = true ∧ 6 = runA.aNext)
    ∧ ((⟨0, [5, 0, 0, 0, 0, 0, 0]⟩ : Frame).len ≤ 8 ∧ (⟨0, [5, 0, 0, 0, 0, 0, 0]⟩ : Frame).len ≠ 8)
    ∧ [6, 0, 0, 0, 0, 0, 0, 0].getD 0 0 ≠ runA.knode ∧ 6 < ([5, 0, 0, 0, 0, 0, 0, 7].getD 7 (0 : Byte)).toNat := by decide

/-- A first chunk that is not the last, one that is (total 5), and the chunk with marker 6 (total 32). -/
theorem test_hyp_ExpectedChunkStoredOrCompletes :
    let s := fun (n t : Nat) => { runA with aOpen := true, aNode := 5, aNext := n, aT := t }
    ((s 1 6).opr = .ufa ∧ [1, 2, 3, 4, 5].length = chunkCap 1 ∧ (s 1 6).aOpen = true ∧ (s 1 6).aNode = (s 1 6).knode
      ∧ (s 1 6).aNext = 1 ∧ chunkBase 1 + chunkCap 1 < (s 1 6).aT)
    ∧ (s 1 5).aT ≤ chunkBase 1 + chunkCap 1
    ∧ ([1, 2, 3].length = chunkCap 6 ∧ (s 6 32).aNext = 6 ∧ (s 6 32).aT ≤ chunkBase 6 + chunkCap 6) := by decide

theorem test_hyp_AttemptCostsOneUnit :
    (given { runS with bud := 1 } (.rxAnswer (.frame ⟨0x200, zeroData⟩))).inbox
        = .rxAnswer (.frame ⟨0x200, zeroData⟩) :: []
    ∧ { runS with bud := 1 }.opr ≠ .none ∧ 1 ≤ { runS with bud := 1 }.bud
    ∧ ∀ f, Answer.frame ⟨0x200, zeroData⟩ = .frame f → f.len ≤ 8 := by
  refine ⟨by decide, by decide, by decide, fun f h => by cases h; decide⟩

theorem test_hyp_ReassemblyEndsWithinBudget :
    let s : State := { runS with bud := 2, inbox := [.rxAnswer .empty, .rxAnswer (.frame ⟨0x200, zeroData⟩)] }
    s.opr ≠ .none ∧ 1 ≤ s.bud ∧ [Answer.empty, .frame ⟨0x200, zeroData⟩].length = s.bud
    ∧ (∀ f, .frame f ∈ [Answer.empty, .frame ⟨0x200, zeroData⟩] → f.len ≤ 8)
    ∧ s.inbox = [Answer.empty, .frame ⟨0x200, zeroData⟩].map .rxAnswer ++ [] := by
  refine ⟨by decide, by decide, by decide, fun f h => ?_, by decide⟩
  simp only [List.mem_cons, List.not_mem_nil, or_false, Answer.frame.injEq] at h
  rcases h with h | h
  · cases h
  · subst h; decide

/-- The offsets beside a register, and a register at another width, are off the map. -/
theorem test_hyp_UndefinedEventsRefused : idle.opr = .none ∧ (given idle (.rxAnswer .empty)).inbox = .rxAnswer .empty :: []
    ∧ regAt 0x004 32 = none ∧ regAt 0x0FF 8 = none ∧ regAt 0x208 8 = none ∧ regAt 0x00C 8 = none ∧ regAt 0x2008 128 = none
    ∧ (0x208 ∉ [0x008, 0x00C, 0x010, 0x014, 0x018, 0x01C, 0x030, 0x034] ∧ ¬ (0x100 ≤ 0x208 ∧ 0x208 ≤ 0x207)) := by decide

theorem test_hyp_ReassemblyStatePersists : (given idle (.hostCmd 0)).inbox = .hostCmd 0 :: []
    ∧ step (given idle (.hostCmd 0)) = .next (ended .ok { given idle (.hostCmd 0) with inbox := [] })
    ∧ Event.hostCmd 0 ≠ .reset ∧ (∀ f, Event.hostCmd 0 ≠ .rxAnswer (.frame f)) ∧ commandOf (.hostCmd 0) ≠ some .srst := by
  refine ⟨by decide, rfl, by decide, fun f => nofun, by decide⟩

theorem test_hyp_OnlyFramingCommandsSend : exec .nop idle = .next (ended .ok idle) := rfl

/-- An instance whose receive ids are its send ids. -/
def loopT : State :=
  State.resetOf { Params.testT with rxSidStart := 0x100, rxSidData := 0x101, rxSidEnd := 0x102 }

/-- A packet of 8 bytes, the three frames `FRS` sends for it, and a `UFS` with budget for exactly them. -/
theorem test_hyp_SentinelRoundTrip :
    let s := setBuffer cmdV loopT
    let fs : List Frame := [⟨0x100, zeroData⟩, ⟨0x101, cmdV⟩, ⟨0x102, zeroData⟩]
    let s1 : State := { ended .ok s with tx := fs }
    let r : State := { loopT with opr := .ufs, bud := 3, sph := .data, rn := 16, inbox := deliveries fs }
    s.cfg.wf = true ∧ r.cfg = s.cfg ∧ s.cfg.txSidStart = s.cfg.rxSidStart ∧ s.cfg.txSidData = s.cfg.rxSidData
    ∧ s.cfg.txSidEnd = s.cfg.rxSidEnd ∧ s.status.busy = false ∧ 1 ≤ s.plen ∧ s.plen ≤ 264
    ∧ exec .frs s = .next s1 ∧ s1.tx = s.tx ++ fs ∧ r.opr = .ufs ∧ (s.plen + 7) / 8 + 2 ≤ r.bud
    ∧ r.inbox = deliveries fs ++ [] ∧ [0xFF, 0x02].length ≤ 253 ∧ pktBytes s 0 s.plen = packetBytes 1 [0xFF, 0x02] := by
  refine ⟨by decide, by decide, by decide, by decide, by decide, by decide, by decide, by decide, by rfl, by decide,
    by decide, by decide, by decide, by decide, by decide⟩

/-- A buffer of 6 bytes and its three frames; before and between them a chunk before any header, a header with total 33, a
frame of another node, an early chunk, a repeated one (vector A2), a frame of 7 bytes, a marker 7; and a `UFA` with budget
for exactly them. -/
theorem test_hyp_AddressedRoundTrip :
    let s := buf [0xA0, 0xA1, 0xA2, 0xA3, 0xA4, 0xA5]
    let h : Frame := ⟨0x300, [5, 6, 0, 0, 0, 0, 0, 0]⟩
    let c1 : Frame := ⟨0x300, [5, 0xA0, 0xA1, 0xA2, 0xA3, 0xA4, 0, 1]⟩
    let c2 : Frame := ⟨0x300, [5, 0xA5, 0, 0, 0, 0, 0, 2]⟩
    let fs : List Frame := [h, c1, c2]
    let as : List Frame := [c1, ⟨0x300, [5, 33, 0, 0, 0, 0, 0, 0]⟩, h, ⟨0x300, [6, 9, 9, 9, 9, 9, 9, 1]⟩,
      ⟨0x300, [5, 9, 9, 9, 9, 9, 9, 3]⟩, c1, c1, ⟨0x300, [5, 9, 9, 9, 9, 9, 2]⟩, ⟨0x300, [5, 9, 9, 9, 9, 9, 9, 7]⟩, c2]
    let s1 : State := { ended .ok s with tx := fs }
    let r : State := { idle with opr := .ufa, knode := 5, bud := 10, inbox := deliveries as }
    s.status.busy = false ∧ s.plen ≤ 32 ∧ exec (.fra 5) s = .next s1 ∧ s1.tx = s.tx ++ fs ∧ r.opr = .ufa ∧ r.knode = 5
    ∧ as.length ≤ r.bud ∧ amongIgnored 5 (awaitedMarker r) fs as = true ∧ (∀ f, f ∈ as → f.len ≤ 8)
    ∧ r.inbox = deliveries as ++ [] := by
  refine ⟨by decide, by decide, by rfl, by decide, by decide, by decide, by decide, by decide, by decide, by decide⟩

/-- What is not ignored is not among the ignored: the awaited chunk, a header that begins anew, a frame after the last one
sent. -/
theorem test_amongIgnored_refuses :
    let h : Frame := ⟨0x300, [5, 1, 0, 0, 0, 0, 0, 0]⟩
    let c : Frame := ⟨0x300, [5, 0xAB, 0, 0, 0, 0, 0, 1]⟩
    let x : Frame := ⟨0x300, [5, 9, 9, 9, 9, 9, 9, 1]⟩
    amongIgnored 5 none [h, c] [h, c] = true ∧ amongIgnored 5 none [h, c] [x, h, c] = true
    ∧ amongIgnored 5 none [h, c] [h, x, c] = false ∧ amongIgnored 5 none [h, c] [h, c, x] = false
    ∧ amongIgnored 5 none [h, c] [h, c, c] = false ∧ amongIgnored 5 (some 1) [h, c] [x, h, c] = false
    ∧ amongIgnored 5 none [h, c] [⟨0x300, [5, 2, 0, 0, 0, 0, 0, 0]⟩, h, c] = false := by decide

theorem test_hyp_BldBuildsPacketInPlace : idle.status.busy = false ∧ { idle with plen := 253 }.plen ≤ 253
    ∧ 253 < { idle with plen := 254 }.plen := by decide

theorem test_hyp_ValChecksInOrder : (buf cmdV).status.busy = false := by decide

theorem test_hyp_BuiltPacketValidates : { idle with plen := 253 }.status.busy = false ∧ { idle with plen := 253 }.plen ≤ 253
    ∧ (2 : Byte) ≠ 1 := by decide

/-- The packet of E1 and the same with its checksum byte changed (vector V16). -/
theorem test_hyp_SingleByteChangeDetected :
    let s := buf cmdV
    let s' : State := { s with pkt := blit 6 [0xF8] s.pkt }
    let t : State := { ended .ok s with vaddr := 1, vlen := 4, poff := 6, pn := 0 }
    s.status.busy = false ∧ exec (.val 1) s = .next t ∧ t.status.code = .ok ∧ s' = { s with pkt := s'.pkt }
    ∧ 6 < s.plen ∧ pktByte s' 6 ≠ pktByte s 6 ∧ ∀ j, j ≠ 6 → pktByte s' j = pktByte s j := by
  refine ⟨by decide, by rfl, by decide, by rfl, by decide, by decide, fun j hj => ?_⟩
  match j, hj with
  | 0, _ => rfl
  | 1, _ => rfl
  | 2, _ => rfl
  | 3, _ => rfl
  | 4, _ => rfl
  | 5, _ => rfl
  | 7, _ => rfl
  | n + 8, _ => rfl

theorem test_hyp_PacketHandOver : idle.status.busy = false ∧ busyT.status.busy = true ∧ ([] : List Byte).length ≤ 253
    ∧ (List.replicate 253 (0 : Byte)).length ≤ 253 := by
  refine ⟨by decide, by decide, by decide, by rw [List.length_replicate]⟩

theorem test_hyp_SetwSetsWindow : idle.status.busy = false
    ∧ (15 : BitVec 16).toNat + (0 : BitVec 16).toNat ≤ { idle with plen := 15 }.plen
    ∧ { idle with plen := 15 }.plen < (9 : BitVec 16).toNat + (7 : BitVec 16).toNat := by decide

theorem test_hyp_ByteFieldReads : (win [1]).status.busy = false := by decide
theorem test_hyp_WordFieldReads : (win [0xFF, 0xFF]).status.busy = false := by decide

theorem test_hyp_DoubleWordFieldRead : (win [0, 1, 0x86, 0xA0]).status.busy = false
    ∧ (0 : Byte).toNat + 4 ≤ (win [0, 1, 0x86, 0xA0]).pn ∧ (win [0, 1, 0x86, 0xA0]).pn < (1 : Byte).toNat + 4 := by decide

theorem test_hyp_HexDecimalFieldRead : (win [0x99]).status.busy = false := by decide
theorem test_hyp_BitFieldRead : (win [5]).status.busy = false := by decide

theorem test_hyp_CodedFieldRead : (win [1]).status.busy = false ∧ (win [1]).pn ≤ (1 : Byte).toNat
    ∧ (0 : Byte).toNat < (win [1]).pn ∧ codeOf (win [1]).cfg 1 1 = some 1 ∧ codeOf (win [1]).cfg 7 1 = none := by decide

/-- Windows of five bytes, with a digit `A`, with day 32, and with a date (vectors X41, X38, X32, X31). -/
theorem test_hyp_TimestampFieldRead :
    let digits := fun b : Byte => (b.extractLsb' 4 4).toNat ≤ 9 ∧ (b.extractLsb' 0 4).toNat ≤ 9
    idle.status.busy = false ∧ idle.cfg.wf = true
    ∧ (win [0x24, 0x03, 0x15, 0x10, 0x30]).pn < (0 : Byte).toNat + 6
    ∧ (0 : Byte).toNat + 6 ≤ (win [0x24, 0x1A, 0x01, 0x00, 0x00, 0x00]).pn
    ∧ ¬ (∀ i, i < 6 → digits (pktByte (win [0x24, 0x1A, 0x01, 0x00, 0x00, 0x00]) i))
    ∧ (∀ i, i < 6 → digits (pktByte (win [0x24, 0x03, 0x32, 0x10, 0x30, 0x59]) i))
    ∧ (∀ i, i < 6 → digits (pktByte (win [0x24, 0x03, 0x15, 0x10, 0x30, 0x59]) i)) := by decide

theorem test_hyp_AbsentExactlyOutsideWindow : fieldSpan (.gts 0) = some (0, 6) ∧ idle.status.busy = false
    ∧ (win [1, 1, 1, 1, 1]).pn < 0 + 6 ∧ 0 + 6 ≤ (win [1, 1, 1, 1, 1, 1]).pn := by decide

/-- A window with two present cells, 4000 and 4005, and one with none. -/
theorem test_hyp_DvoltDecodesVoltageStatus :
    let s := win [0x02, 0x00, 0x00, 0x0F, 0xA0, 0x0F, 0xA5]
    s.status.busy = false ∧ cellMant s 1 = some 4000 ∧ cellMant s 2 = some 4005 ∧ cellMant s 3 = none
    ∧ cellMant (win [0x01]) 1 = none := by decide

theorem test_hyp_CompoundFlagsDerived : (win [0, 0, 0, 0, 0, 0]).cfg.wf = true ∧ (win [0, 0, 0, 0, 0, 0]).pn < 7
    ∧ 7 ≤ (win [0, 0, 0, 0, 9, 0, 0]).pn := by decide

theorem test_hyp_CurrentSignRule : (win [0, 0]).pn < 3 ∧ (win [0, 0, 0]).pn ≤ (win [0, 0, 0]).cfg.csl.dsgByte
    ∧ 3 ≤ (win [0, 0xC8, 0, 0x80]).pn ∧ (win [0, 0xC8, 0, 0x80]).cfg.csl.dsgByte < (win [0, 0xC8, 0, 0x80]).pn := by decide

theorem test_hyp_DcurrDecodesCurrentStatus : (win []).status.busy = false ∧ 1 ≤ (win []).cfg.csl.nt := by decide

/-- The marker with the nibble byte, the marker alone, no marker (vectors DP1, DP5, DP3). -/
theorem test_hyp_DpwrDecodesPowerStatus :
    let marked := fun s : State => decide (s.cfg.psl.oMark < s.pn) && decide (pktByte s (s.poff + s.cfg.psl.oMark) = 0x0D)
    let s := win (List.replicate 25 0 ++ [0x0D, 0x07, 0x12])
    let u := win (List.replicate 25 0 ++ [0x0D])
    s.status.busy = false ∧ 1 ≤ s.cfg.psl.nvc ∧ marked s = true ∧ s.cfg.psl.oFe < s.pn
    ∧ codeOf s.cfg 0xFF 1 = some 1 ∧ codeOf s.cfg 0xFF 7 = none ∧ marked u = true ∧ u.pn ≤ u.cfg.psl.oFe
    ∧ marked (win (List.replicate 25 0)) = false := by decide

/-- Two states with the same window that differ in `RES`: `NOP`'s successor beside it. -/
theorem test_hyp_DecodersDependOnWindowOnly :
    let s1 := win [7]
    let s2 : State := { win [7] with res := ⟨.bool, .none, 0, 1⟩, outn := 3 }
    s1.status.busy = false ∧ s2.status.busy = false ∧ s1.cfg = s2.cfg ∧ (∀ o, winByte s1 o = winByte s2 o)
    ∧ exec (.gbit 0 0) s1 = .next { ended .ok s1 with res := ⟨.bool, .none, 0, 1⟩ }
    ∧ exec (.gbit 0 0) s2 = .next { ended .ok s2 with res := ⟨.bool, .none, 0, 1⟩ } ∧ fieldSpan (.gbit 0 0) ≠ none := by
  refine ⟨by decide, by decide, by decide, fun o => rfl, by rfl, by rfl, by decide⟩

theorem test_hyp_HostWritesBuffer : (given idle (.hostWrite 0x00C 32 264)).inbox = .hostWrite 0x00C 32 264 :: []
    ∧ (given idle (.hostWrite (0x100 + 263) 8 1)).inbox = .hostWrite (0x100 + 263) 8 1 :: [] ∧ 263 < 264
    ∧ busyT.status.busy = true ∧ idle.status.busy = false ∧ ((264 : BitVec 128).setWidth 32).toNat ≤ 264
    ∧ 264 < ((265 : BitVec 128).setWidth 32).toNat := by decide

theorem test_hyp_HostWritesStatusAndReadOnly : (given idle (.hostWrite 0x008 32 4)).inbox = .hostWrite 0x008 32 4 :: []
    ∧ (given idle (.hostWrite 0x034 32 4)).inbox = .hostWrite 0x034 32 4 :: []
    ∧ 0x034 ∈ [0x010, 0x014, 0x018, 0x01C, 0x030, 0x034] ∧ 0x3FF0 = 0x2000 + 16 * 511 := by decide

theorem test_hyp_HostReadsReturnRegisters : (given idle (.hostRead 0x008 32)).inbox = .hostRead 0x008 32 :: []
    ∧ (given idle (.hostRead 0x207 8)).inbox = .hostRead (0x100 + 263) 8 :: []
    ∧ (given idle (.hostRead 0x3FF0 128)).inbox = .hostRead (0x2000 + 16 * 511) 128 :: [] ∧ idle.bud < 2 ^ 32 := by decide

/-- A host write of `PLEN` changes it. -/
theorem test_hyp_BufferChangeClearsWindow :
    step (given idle (.hostWrite 0x00C 32 7)) = .next { idle with plen := 7 }
    ∧ ({ idle with plen := 7 } : State).plen ≠ (given idle (.hostWrite 0x00C 32 7)).plen := by
  refine ⟨by rfl, by decide⟩

end Sys2Proof.Tests
end

section
/-! SUPPORT. The layouts the host reads, and that every field read and every decode program leaves shaped values
(spec/10_state.md R33, R41 to R43). -/

namespace Sys2Proof.Proofs

open Sys2Proof.Machine Sys2Proof.Laws

/-! ## The layouts -/

/-- The bits of `STATUS` (R33). -/
theorem statusWord_layout (st : Status) :
    (statusWord st).getLsbD 0 = st.busy ∧ (statusWord st).getLsbD 1 = st.done ∧ (statusWord st).getLsbD 2 = st.ovr
    ∧ (statusWord st).extractLsb' 3 5 = 0 ∧ (statusWord st).extractLsb' 8 8 = codeNumber st.code
    ∧ (statusWord st).extractLsb' 16 16 = 0 := by
  unfold statusWord
  refine ⟨?_, ?_, ?_, ?_, ?_, ?_⟩
  · simp only [BitVec.getLsbD_append]; simp
  · simp only [BitVec.getLsbD_append]; simp
  · simp only [BitVec.getLsbD_append]; simp
  · simp (disch := omega) only [extract_append_hi, extract_append_lo]; simp
  · simp (disch := omega) only [extract_append_hi, extract_append_lo]; simp
  · simp (disch := omega) only [extract_append_hi]; simp

/-- The fields of a value record (R41). -/
theorem recordBits_layout (key idx : Byte) (v : Value) :
    (recordBits key idx v).extractLsb' 120 8 = key ∧ (recordBits key idx v).extractLsb' 112 8 = idx
    ∧ (recordBits key idx v).extractLsb' 108 4 = tagCode v.tag
    ∧ (recordBits key idx v).extractLsb' 104 4 = codeOfUnit v.unit
    ∧ (recordBits key idx v).extractLsb' 100 4 = v.exp ∧ (recordBits key idx v).extractLsb' 64 36 = 0
    ∧ (recordBits key idx v).extractLsb' 0 64 = BitVec.ofInt 64 v.mant := by
  unfold recordBits
  simp (disch := omega) only [extract_append_hi, extract_append_lo]
  simp

/-! ## Field reads -/

/-- A format G read is `readField` of a shaped value: its operands are a 16-bit multiplier and a 16-bit signed addend (R102,
R218). -/
theorem formatG_read (i : Instr) (k : FieldKind) (off : Byte) (sent : Sent) (mul add : BitVec 16) (exp : BitVec 4)
    (unit : UnitCode)
    (hex : ∀ s, exec i s = readField (fun t => fieldG k t off.toNat sent mul.toNat add.toInt exp unit) s) :
    ∃ value, (∀ s, exec i s = readField value s) ∧ ∀ s, (value s).shaped :=
  ⟨_, hex, fun s => fieldG_shaped k s _ sent _ _ exp unit mul.isLt ⟨BitVec.le_toInt add, BitVec.toInt_lt⟩⟩

/-- A field read is `readField` of a value that is always shaped (R42, R216). -/
theorem exec_fieldRead (i : Instr) (hi : fieldSpan i ≠ none) :
    ∃ value, (∀ s, exec i s = readField value s) ∧ ∀ s, (value s).shaped := by
  cases i with
  | gu8 off mul add exp unit => exact formatG_read _ .u8 off .n mul add exp unit fun _ => rfl
  | gu16 off sent mul add exp unit => exact formatG_read _ .u16 off sent mul add exp unit fun _ => rfl
  | gs16 off sent mul add exp unit => exact formatG_read _ .s16 off sent mul add exp unit fun _ => rfl
  | gu32 off mul add exp unit => exact formatG_read _ .u32 off .n mul add exp unit fun _ => rfl
  | gnh off mul add exp unit => exact formatG_read _ .nh off .n mul add exp unit fun _ => rfl
  | gnl off mul add exp unit => exact formatG_read _ .nl off .n mul add exp unit fun _ => rfl
  | gbcd off mul add exp unit => exact formatG_read _ .bcd off .n mul add exp unit fun _ => rfl
  | gbit off bit => exact ⟨fun t => fieldBit t off.toNat bit.toNat, fun _ => rfl, fun _ => fieldBit_shaped ..⟩
  | gcode off table => exact ⟨fun t => fieldCode t off.toNat table, fun _ => rfl, fun _ => fieldCode_shaped ..⟩
  | gts off => exact ⟨fun t => fieldTime t off.toNat, fun _ => rfl, fun _ => fieldTime_shaped ..⟩
  | _ => exact absurd rfl hi

/-! ## Decode programs -/

/-- A field read with multiplier 1 and addend 0, as the decode programs make them. -/
theorem fieldG_plain_shaped (k : FieldKind) (s : State) (off : Nat) (sent : Sent) (exp : BitVec 4) (unit : UnitCode) :
    (fieldG k s off sent 1 0 exp unit).shaped :=
  fieldG_shaped k s off sent 1 0 exp unit (by omega) (by omega)

/-- The mantissa of a cell's voltage is a raw 16-bit value (R252). -/
theorem cellVoltage_mant_range (s : State) (i : Nat) :
    -(2 : Int) ^ 15 ≤ (cellVoltage s i).mant ∧ (cellVoltage s i).mant < 2 ^ 32 := by
  unfold cellVoltage
  rcases fieldG_cases .u16 s (3 + 2 * (i - 1)) .z 1 0 (-3) .v with
    ⟨_, h⟩ | ⟨bs, hb, ⟨_, h⟩ | ⟨raw, hr, ⟨m, hs, _, h⟩ | ⟨_, h⟩⟩⟩
  · rw [h]; decide
  · rw [h]; decide
  · rw [h]
    injection hs with hs
    subst hs
    decide
  · rw [h]
    have := rawOf_range .u16 s _ bs hb raw hr
    simpa [Value.num] using this

/-- A fold of `max` or `min` stays between bounds that every element keeps. -/
theorem foldl_between (f : Int → Int → Int) (hf : ∀ x y, f x y = x ∨ f x y = y) (lo hi : Int) (ms : List Int)
    (m : Int) (hm : lo ≤ m ∧ m < hi) (hms : ∀ x ∈ ms, lo ≤ x ∧ x < hi) : lo ≤ ms.foldl f m ∧ ms.foldl f m < hi := by
  induction ms generalizing m with
  | nil => exact hm
  | cons x xs ih =>
    refine ih _ ?_ fun y hy => hms y (by simp [hy])
    rcases hf m x with h | h <;> rw [h]
    exacts [hm, hms x (by simp)]

/-- The difference of the present cells fits, as every cell is a raw 16-bit value (R253, R254). -/
theorem voltageDiff_shaped (vs : List Value) (h : ∀ v ∈ vs, -(2 : Int) ^ 15 ≤ v.mant ∧ v.mant < 2 ^ 32) :
    (voltageDiff vs).shaped := by
  have hp : ∀ m ∈ presentMants vs, -(2 : Int) ^ 15 ≤ m ∧ m < 2 ^ 32 := by
    intro m hm
    obtain ⟨v, hv, rfl⟩ := List.mem_map.1 hm
    exact h v (List.mem_filter.1 hv).1
  unfold voltageDiff
  split
  · exact shaped_absent
  · rename_i m ms he
    rw [he] at hp
    have hms : ∀ x ∈ ms, -(2 : Int) ^ 15 ≤ x ∧ x < 2 ^ 32 := fun x hx => hp x (by simp [hx])
    have hmax := foldl_between max max_choice _ _ ms m (hp m (by simp)) hms
    have hmin := foldl_between min min_choice _ _ ms m (hp m (by simp)) hms
    refine shaped_num _ _ _ ?_
    simp only [Value.fits, Value.num]
    omega

/-- The entries of `DVOLT` are shaped (R252). -/
theorem voltageEntries_shaped (s : State) : ∀ e ∈ voltageEntries s, e.val.shaped := by
  intro e he
  simp only [voltageEntries, List.mem_append, List.mem_map, List.mem_singleton] at he
  rcases he with (rfl | ⟨j, _, rfl⟩) | rfl
  · exact fieldG_plain_shaped ..
  · exact fieldG_plain_shaped ..
  · refine voltageDiff_shaped _ fun v hv => ?_
    obtain ⟨j, _, rfl⟩ := List.mem_map.1 hv
    exact cellVoltage_mant_range s (j + 1)

/-- The current: the value read, or its negated magnitude, which fits as the value does (R262). -/
theorem currentValue_shaped (s : State) : (currentValue s).shaped := by
  have hc : (fieldG .s16 s 1 .z 1 0 (-2) .a).shaped := fieldG_plain_shaped ..
  unfold currentValue
  dsimp only
  split
  · rename_i htag _
    split
    · refine shaped_num _ _ _ ?_
      have hfits := hc.2
      rw [htag] at hfits
      simp only [Value.fits, Value.num] at hfits ⊢
      omega
    · exact hc
  · exact shaped_absent

/-- A temperature byte, whose addend `T_ADD` is bounded (R260, R269). -/
theorem temperature_shaped (s : State) (o : Nat) (hw : s.cfg.wf = true) : (temperature s o).shaped := by
  have hadd : -128 ≤ s.cfg.csl.tAdd ∧ s.cfg.csl.tAdd ≤ 127 := by
    simp only [Params.wf, CurrentLayout.wf, Bool.and_eq_true, decide_eq_true_eq] at hw
    exact hw.1.2.2
  exact fieldG_shaped .u8 s o .n 1 _ 0 .degc (by omega) (by omega)

/-- The entries of `DCURR` are shaped (R261, R266). -/
theorem currentEntries_shaped (s : State) (hw : s.cfg.wf = true) : ∀ e ∈ currentEntries s, e.val.shaped := by
  intro e he
  simp only [currentEntries, List.mem_append, List.mem_map, List.mem_cons, List.not_mem_nil, or_false] at he
  rcases he with ((rfl | rfl | rfl | rfl) | ⟨j, _, rfl⟩) | rfl | rfl | rfl | rfl | rfl | rfl | rfl
  · exact fieldBit_shaped ..
  · exact fieldBit_shaped ..
  · exact currentValue_shaped s
  · exact flagsValue_shaped s
  · exact temperature_shaped s _ hw
  · dsimp only; split
    exacts [temperature_shaped s _ hw, shaped_absent]
  · dsimp only; split
    exacts [temperature_shaped s _ hw, shaped_absent]
  · exact fieldG_plain_shaped ..
  · exact balancingValue_shaped ..
  · exact fieldG_plain_shaped ..
  · exact byteFlags_shaped ..
  · exact byteFlags_shaped ..

/-- The tail entries of `DPWR` are shaped (R275, R276, R277). -/
theorem powerTail_shaped (s : State) : ∀ e ∈ powerTail s, e.val.shaped := by
  intro e he
  unfold powerTail at he
  dsimp only at he
  split at he
  · simp only [List.mem_cons, List.not_mem_nil, or_false] at he
    rcases he with rfl | rfl | rfl
    exacts [fieldG_plain_shaped .., frontEnd_shaped .., fieldG_plain_shaped ..]
  · simp only [List.mem_cons, List.not_mem_nil, or_false] at he
    rcases he with rfl | rfl | rfl
    exacts [shaped_absent, shaped_code _ _, shaped_absent]

/-- The entries of `DPWR` are shaped (R273, R274). -/
theorem powerEntries_shaped (s : State) : ∀ e ∈ powerEntries s, e.val.shaped := by
  intro e he
  simp only [powerEntries, List.mem_append, List.mem_map, List.mem_cons, List.not_mem_nil, or_false] at he
  rcases he with ((rfl | rfl | rfl | rfl | rfl | rfl | rfl | rfl) | ⟨j, _, rfl⟩) | htail
  · exact fieldG_plain_shaped ..
  · exact fieldG_plain_shaped ..
  · exact fieldG_plain_shaped ..
  · exact fieldG_plain_shaped ..
  · exact fieldG_plain_shaped ..
  · exact fieldG_plain_shaped ..
  · exact fieldG_plain_shaped ..
  · exact fieldG_plain_shaped ..
  · exact fieldG_plain_shaped ..
  · exact powerTail_shaped s e htail

/-- A decode program is `decodeProgram` of entries that are always shaped (R42, R251). -/
theorem exec_decodeProgram (i : Instr) (hi : i = .dvolt ∨ i = .dcurr ∨ i = .dpwr) :
    ∃ entries, (∀ s, exec i s = decodeProgram entries s)
      ∧ ∀ s, s.cfg.wf = true → ∀ e ∈ entries s, e.val.shaped := by
  rcases hi with rfl | rfl | rfl
  · exact ⟨voltageEntries, fun _ => rfl, fun s _ => voltageEntries_shaped s⟩
  · exact ⟨currentEntries, fun _ => rfl, currentEntries_shaped⟩
  · exact ⟨powerEntries, fun _ => rfl, fun s _ => powerEntries_shaped s⟩

/-- Settles O16: the layouts field by field; a field read leaves its shaped value in `RES`, a decode program its shaped
entries below `OUTN`. -/
theorem statusAndValueLayouts : Obligations.StatusAndValueLayouts := by
  refine ⟨statusWord_layout, rfl, recordBits_layout, rfl, rfl, fun i s t hw hb hex => ⟨fun hi => ?_, fun hi k hk => ?_⟩⟩
  · obtain ⟨value, hval, hshaped⟩ := exec_fieldRead i hi
    rw [hval, readField_idle value s hb] at hex
    injection hex with hex
    subst hex
    exact hshaped _
  · obtain ⟨entries, hent, hshaped⟩ := exec_decodeProgram i hi
    rw [hent, decodeProgram_idle entries s hb] at hex
    injection hex with hex
    subst hex
    dsimp only at hk ⊢
    rw [outAt_outWrite, if_pos hk, List.getD_eq_getElem _ _ hk]
    exact hshaped (accept s) hw _ (List.getElem_mem hk)

end Sys2Proof.Proofs
end

section
/-! SUPPORT. The command words and the host's writes at the step (spec/10_state.md R32 to R35, R44), the reset values (R55),
and the statements about them. -/

namespace Sys2Proof.Proofs

open Sys2Proof.Machine Sys2Proof.Laws

/-! ## Reset -/

/-- The all-zero record (R41, R55). -/
theorem recordBits_absent : recordBits 0 0 Value.absent = 0 := by decide

/-- Settles O9: each register's value is the one `State.resetOf` gives it; the two that the host reads through a layout are
computed. -/
theorem resetRegisterValues : Obligations.ResetRegisterValues := by
  have hstatus : statusWord State.reset.status = 0 := by decide
  have hout : ∀ k, outAt State.reset.out k = Entry.zero := fun _ => rfl
  exact ⟨hstatus, rfl, rfl, rfl, rfl, rfl, rfl, rfl, recordBits_absent, hout,
    rfl, rfl, rfl, rfl, rfl, rfl, rfl, rfl, rfl, rfl⟩

/-! ## Which instructions are commands -/

/-- The instructions a command word can stand for: the 23 commands and the illegal word (R104, R105). -/
def isCommand : Instr → Bool
  | .illegal _ => true
  | i => (rowOpcode i).isSome

/-- A word of format Z is the format's instruction or illegal. -/
theorem formatZ_isCommand (w : CmdWord) (i : Instr) (h : isCommand i = true) : isCommand (formatZ w i) = true := by
  unfold formatZ; split
  exacts [h, rfl]

/-- A word of format N or O. -/
theorem formatN_isCommand (w : CmdWord) (mk : Byte → Instr) (h : ∀ a, isCommand (mk a) = true) :
    isCommand (formatN w mk) = true := by
  unfold formatN; split
  exacts [h _, rfl]

/-- A word of format W. -/
theorem formatW_isCommand (w : CmdWord) (mk : BitVec 16 → BitVec 16 → Instr) (h : ∀ m d, isCommand (mk m d) = true) :
    isCommand (formatW w mk) = true := by
  unfold formatW; split
  exacts [h _ _, rfl]

/-- A word of format G with a sentinel policy. -/
theorem formatGSent_isCommand (w : CmdWord) (mk : Byte → Sent → BitVec 16 → BitVec 16 → BitVec 4 → UnitCode → Instr)
    (h : ∀ a sent m d exp unit, isCommand (mk a sent m d exp unit) = true) : isCommand (formatGSent w mk) = true := by
  unfold formatGSent; split
  · split
    exacts [h _ _ _ _ _ _, rfl]
  · rfl

/-- A word of format G without one. -/
theorem formatG_isCommand (w : CmdWord) (mk : Byte → BitVec 16 → BitVec 16 → BitVec 4 → UnitCode → Instr)
    (h : ∀ a m d exp unit, isCommand (mk a m d exp unit) = true) : isCommand (formatG w mk) = true := by
  unfold formatG; split
  · split
    exacts [h _ _ _ _ _, rfl]
  · rfl

/-- A word of format B. -/
theorem formatB_isCommand (w : CmdWord) (mk : Byte → BitVec 3 → Instr) (h : ∀ a b, isCommand (mk a b) = true) :
    isCommand (formatB w mk) = true := by
  unfold formatB; split
  exacts [h _ _, rfl]

/-- A word of format K. -/
theorem formatK_isCommand (w : CmdWord) (mk : Byte → Byte → Instr) (h : ∀ a b, isCommand (mk a b) = true) :
    isCommand (formatK w mk) = true := by
  unfold formatK; split
  exacts [h _ _, rfl]

/-- Every word decodes to a command or the illegal word, never to a frame or a packet (R104, R105). -/
theorem decodeCmd_isCommand (w : CmdWord) : isCommand (decodeCmd w) = true := by
  unfold decodeCmd
  split
  case h_1 | h_2 | h_3 | h_5 | h_7 | h_21 | h_22 | h_23 => exact formatZ_isCommand w _ rfl
  case h_4 | h_6 | h_8 | h_9 | h_20 => exact formatN_isCommand w _ fun _ => rfl
  case h_10 => exact formatW_isCommand w _ fun _ _ => rfl
  case h_11 | h_14 | h_15 | h_16 | h_17 => exact formatG_isCommand w _ fun _ _ _ _ _ => rfl
  case h_12 | h_13 => exact formatGSent_isCommand w _ fun _ _ _ _ _ _ => rfl
  case h_18 => exact formatB_isCommand w _ fun _ _ => rfl
  case h_19 => exact formatK_isCommand w _ fun _ _ => rfl
  case h_24 => rfl

/-! ## How the run of a command ends -/

/-- What the run of an accepted command leaves of the command cycle: it ends with a code R302 lists for it, or it is the
start of a reassembly. Before that it touches no `STATUS` bit but `OVR`, which `SRST` clears (R33, R291, R301). -/
inductive RunEnd (i : Instr) (t : State) : State → Prop where
  | finished (c : Code) (u : State) (listed : codeNumber c ∈ endNumbers i)
      (ovr : u.status.ovr = (t.status.ovr && decide (i ≠ .srst))) : RunEnd i t (finish c u)
  | started (o : Opr) (u : State) (listed : codeNumber .ok ∈ endNumbers i) (runs : o ≠ .none) (notSrst : i ≠ .srst)
      (ovr : u.status.ovr = t.status.ovr) : RunEnd i t (startReassembly o u)

/-- A command that touches no `STATUS` bit before it ends with `c`. -/
theorem RunEnd.of_status_eq {i : Instr} {t u : State} (c : Code) (hc : codeNumber c ∈ endNumbers i) (hi : i ≠ .srst)
    (hu : u.status = t.status) : RunEnd i t (finish c u) :=
  .finished c u hc (by simp [hi, hu])

/-- A check of `VAL` fails with one of its six codes (R195, R302). -/
theorem firstFailure_listed (e : Byte) (s : State) (c : Code) (h : firstFailure e s = some c) :
    codeNumber c ∈ endNumbers (.val e) := by
  have hc : c ∈ [Code.badStart, .badProduct, .badAddr, .badLength, .badChecksum, .badTerm] := by
    unfold firstFailure at h
    split_ifs at h <;> (injection h with h; subst h; decide)
  clear h
  revert c
  simp only [endNumbers]
  decide

/-- A field read is a command that ends with `OK` (R216, R217). -/
theorem fieldRead_command (i : Instr) (hi : fieldSpan i ≠ none) (hc : codeNumber .ok ∈ endNumbers i) :
    ∃ run, (∀ s, exec i s = hostCommand run s) ∧ ∀ t, RunEnd i t (run t) := by
  obtain ⟨value, hex, -⟩ := exec_fieldRead i hi
  have hne : i ≠ .srst := fun h => hi (by rw [h]; rfl)
  exact ⟨fun t => finish .ok { t with res := value t }, hex, fun _ => .of_status_eq .ok hc hne rfl⟩

/-- A decode program is a command that ends with `OK` (R251). -/
theorem decodeProgram_command (i : Instr) (hi : i = .dvolt ∨ i = .dcurr ∨ i = .dpwr)
    (hc : codeNumber .ok ∈ endNumbers i) :
    ∃ run, (∀ s, exec i s = hostCommand run s) ∧ ∀ t, RunEnd i t (run t) := by
  obtain ⟨entries, hex, -⟩ := exec_decodeProgram i hi
  have hne : i ≠ .srst := by rintro rfl; simp at hi
  exact ⟨fun t => finish .ok { t with out := outWrite (entries t) t.out, outn := (entries t).length }, hex,
    fun _ => .of_status_eq .ok hc hne rfl⟩

/-- Every command is `hostCommand` of a run that ends as listed (R32, R300, R302). -/
theorem exec_command (i : Instr) (hi : isCommand i = true) :
    ∃ run, (∀ s, exec i s = hostCommand run s) ∧ ∀ t, RunEnd i t (run t) := by
  cases i with
  | nop => exact ⟨_, fun _ => rfl, fun t => .of_status_eq .ok (by decide) (by decide) rfl⟩
  | srst => exact ⟨_, fun _ => rfl, fun t => .finished .ok (softReset t) (by decide) (by simp)⟩
  | illegal w => exact ⟨_, fun _ => rfl, fun t => .of_status_eq .illegalCmd (by simp [endNumbers, codeNumber]) nofun rfl⟩
  | frs =>
    refine ⟨_, fun s => (rfl : execFrs s = _), fun t => ?_⟩
    split
    · exact .of_status_eq .emptyBuffer (by decide) (by decide) rfl
    · exact .of_status_eq .ok (by decide) (by decide) rfl
  | fra k =>
    refine ⟨_, fun s => (rfl : execFra k s = _), fun t => ?_⟩
    split
    · exact .of_status_eq .tooLong (by simp [endNumbers, codeNumber]) nofun rfl
    · exact .of_status_eq .ok (by simp [endNumbers, codeNumber]) nofun rfl
  | ufs => exact ⟨_, fun _ => rfl, fun t => .started .ufs t (by decide) nofun nofun rfl⟩
  | ufa k =>
    refine ⟨_, fun s => (rfl : execUfa k s = _), fun t => ?_⟩
    exact .started .ufa { t with knode := k } (by simp [endNumbers, codeNumber]) nofun nofun rfl
  | depad =>
    refine ⟨_, fun s => (rfl : execDepad s = _), fun t => ?_⟩
    split
    · exact .of_status_eq .ok (by decide) (by decide) rfl
    · exact .of_status_eq .ok (by decide) (by decide) rfl
  | bld a =>
    refine ⟨_, fun s => (rfl : execBld a s = _), fun t => ?_⟩
    split
    · exact .of_status_eq .tooLong (by simp [endNumbers, codeNumber]) nofun rfl
    · exact .of_status_eq .ok (by simp [endNumbers, codeNumber]) nofun rfl
  | val e =>
    refine ⟨_, fun s => (rfl : execVal e s = _), fun t => ?_⟩
    split
    · rename_i c hf
      exact .of_status_eq c (firstFailure_listed e t c hf) nofun rfl
    · exact .of_status_eq .ok (by simp [endNumbers, codeNumber]) nofun rfl
  | setw off len =>
    refine ⟨_, fun s => (rfl : execSetw off len s = _), fun t => ?_⟩
    split
    · exact .of_status_eq .badWindow (by simp [endNumbers, codeNumber]) nofun rfl
    · exact .of_status_eq .ok (by simp [endNumbers, codeNumber]) nofun rfl
  | gu8 | gu16 | gs16 | gu32 | gnh | gnl | gbcd | gbit | gcode | gts =>
    exact fieldRead_command _ nofun (by simp [endNumbers, codeNumber])
  | dvolt | dcurr | dpwr => exact decodeProgram_command _ (by simp) (by decide)
  | frameSentinelStart | frameSentinelData | frameSentinelEnd | frameSentinelOther | frameAddressedHeader
  | frameAddressedChunk1 | frameAddressedChunk2 | frameAddressedChunk3 | frameAddressedChunk4 | frameAddressedChunk5
  | frameAddressedChunk6 | frameAddressedIgnored | packetSp => cases hi

/-! ## A word at the step -/

/-- A busy block drops every command (R32). -/
theorem exec_command_busy (i : Instr) (s : State) (hi : isCommand i = true) (hb : s.status.busy = true) :
    exec i s = .next (overrun s) := by
  obtain ⟨run, hrun, -⟩ := exec_command i hi
  rw [hrun, hostCommand_busy hb]

/-- A write to the 64 bits of `CMD` presents its word (R32). -/
theorem hostWrite_cmd (w : CmdWord) (s : State) : hostWrite 0x000 64 (w.setWidth 128) s = presentWord w s := by
  have hw : (w.setWidth 128).setWidth 64 = w := by simp
  show presentWord ((w.setWidth 128).setWidth 64) s = presentWord w s
  rw [hw]

/-- Settles O13: both forms of a `CMD` write present the word; a busy block drops what it decodes to, for that is a
command. -/
theorem wordWhileBusyIsDropped : Obligations.WordWhileBusyIsDropped := by
  intro s w rest hin
  have hstep : step s = exec (decodeCmd w) { s with inbox := rest } := by
    rcases hin with h | h
    · rw [step_cons s _ rest h]; rfl
    · rw [step_cons s _ rest h]; exact hostWrite_cmd w _
  refine ⟨fun _ => hstep, fun hb => ?_⟩
  rw [hstep]
  exact exec_command_busy _ _ (decodeCmd_isCommand w) hb

/-! ## Host writes of the buffer -/

/-- A write to `PLEN` at the step (R31, R34). -/
theorem step_write_plen (s : State) (v : BitVec 128) (rest : List Event) (h : s.inbox = .hostWrite 0x00C 32 v :: rest) :
    step s = .next (writePlen (v.setWidth 32).toNat { s with inbox := rest }) := by
  rw [step_cons s _ rest h]; rfl

/-- The map has `PKT[i]` at `0x100 + i` (R31). -/
theorem regAt_pkt (i : Nat) (hi : i < pktCap) : regAt (0x100 + i) 8 = some (.pkt i) := by
  simp [regAt, hi]

/-- A write to `PKT[i]` at the step (R31, R35). -/
theorem step_write_pkt (s : State) (v : BitVec 128) (rest : List Event) (i : Nat) (hi : i < pktCap)
    (h : s.inbox = .hostWrite (0x100 + i) 8 v :: rest) :
    step s = .next (writePktByte i (v.setWidth 8) { s with inbox := rest }) := by
  rw [step_cons s _ rest h]
  simp only [stepEvent, hostWrite, regAt_pkt i hi]
  rfl

/-- Settles O57: the step is the model's write of the register, and `writePlen_cases` and `writePktByte_cases` say what each
does; the bytes read afterwards are those of `pktByte_writePkt`. -/
theorem hostWritesBuffer : Obligations.HostWritesBuffer := by
  intro s v rest
  constructor
  · intro hin
    rw [step_write_plen s v rest hin]
    have hcases := writePlen_cases (v.setWidth 32).toNat { s with inbox := rest }
    dsimp only at hcases
    rcases hcases with ⟨hb, hw⟩ | ⟨hb, hv, hw⟩ | ⟨hb, hv, hw⟩ <;> rw [hw]
    · exact ⟨fun _ => rfl, fun hi => absurd hb (by simp [hi]), fun hi => absurd hb (by simp [hi])⟩
    · exact ⟨fun hi => absurd hi (by simp [hb]), fun _ _ => rfl, fun _ hle => absurd hv (Nat.not_lt.2 hle)⟩
    · exact ⟨fun hi => absurd hi (by simp [hb]), fun _ hlt => absurd hlt (Nat.not_lt.2 hv), fun _ _ => rfl⟩
  · intro i hi hin
    rw [step_write_pkt s v rest i hi hin]
    have hcases := writePktByte_cases i (v.setWidth 8) { s with inbox := rest }
    dsimp only at hcases
    rcases hcases with ⟨hb, hw⟩ | ⟨hb, hw⟩ <;> rw [hw]
    · exact ⟨fun _ => rfl, fun hi => absurd hb (by simp [hi])⟩
    · refine ⟨fun hi => absurd hi (by simp [hb]), fun _ => ⟨_, blit i [v.setWidth 8] s.pkt, rfl, rfl, fun j => ?_⟩⟩
      have hread := pktByte_writePkt i [v.setWidth 8] { s with inbox := rest } j
      have hrange : (i ≤ j ∧ j < i + [v.setWidth 8].length) ↔ j = i := by simp only [List.length_singleton]; omega
      simp only [hrange] at hread
      refine hread.trans ?_
      split
      · rename_i hj; subst hj; simp
      · rfl

end Sys2Proof.Proofs
end

section
/-! SUPPORT. How every instruction and every event moves the command cycle: `STATUS` and `OPR` (spec/10_state.md R33, R48,
spec/60_exceptions.md R300 to R302). -/

namespace Sys2Proof.Proofs

open Sys2Proof.Machine Sys2Proof.Laws

/-! ## Received frames -/

/-- A frame rule leaves the command cycle alone, or ends the command with `OK` (R158, R164, R169). -/
def KeepsOrEnds (rule : State → State) : Prop :=
  ∀ u, ((rule u).status = u.status ∧ (rule u).opr = u.opr) ∨ ∃ v, rule u = finish .ok v ∧ v.status = u.status

/-- An ignored frame. -/
theorem id_keepsOrEnds : KeepsOrEnds id := fun _ => .inl ⟨rfl, rfl⟩

/-- A start frame (R154). -/
theorem onSentinelStart_keepsOrEnds : KeepsOrEnds onSentinelStart := fun _ => .inl ⟨rfl, rfl⟩

/-- An abandoned sequence (R160). -/
theorem abandon_keepsOrEnds : KeepsOrEnds abandon := fun _ => .inl ⟨rfl, rfl⟩

/-- A data frame (R155 to R157). -/
theorem onSentinelData_keepsOrEnds (d : List Byte) : KeepsOrEnds (onSentinelData d) := by
  intro u
  left
  unfold onSentinelData
  split
  · exact ⟨rfl, rfl⟩
  · split <;> exact ⟨rfl, rfl⟩
  · split <;> exact ⟨rfl, rfl⟩

/-- An end frame (R158, R159). -/
theorem onSentinelEnd_keepsOrEnds : KeepsOrEnds onSentinelEnd := by
  intro u
  unfold onSentinelEnd
  split
  · exact .inr ⟨_, rfl, rfl⟩
  · exact .inl ⟨rfl, rfl⟩
  · exact .inl ⟨rfl, rfl⟩

/-- A header frame (R163 to R165). -/
theorem onAddressedHeader_keepsOrEnds (node total : Byte) : KeepsOrEnds (onAddressedHeader node total) := by
  intro u
  unfold onAddressedHeader
  split
  · exact .inl ⟨rfl, rfl⟩
  split
  · exact .inl ⟨rfl, rfl⟩
  split
  · exact .inr ⟨_, rfl, rfl⟩
  · exact .inl ⟨rfl, rfl⟩

/-- A chunk frame (R166, R167, R169). -/
theorem onAddressedChunk_keepsOrEnds (m : Nat) (node : Byte) (c : List Byte) : KeepsOrEnds (onAddressedChunk m node c) := by
  intro u
  unfold onAddressedChunk
  split
  · dsimp only
    split
    · exact .inr ⟨_, rfl, rfl⟩
    · exact .inl ⟨rfl, rfl⟩
  · exact .inl ⟨rfl, rfl⟩

/-- One attempt leaves the command cycle alone, or ends the command with `OK` or `TIMEOUT` (R151). -/
theorem attempt_keeps_or_ends (rule : State → State) (hrule : KeepsOrEnds rule) (s : State) :
    ((attempt rule s).status = s.status ∧ (attempt rule s).opr = s.opr)
    ∨ ∃ c, (c = .ok ∨ c = .timeout) ∧ (attempt rule s).status = statusFinished c s.status ∧ (attempt rule s).opr = .none := by
  rcases attempt_cases rule s with ⟨ha, -⟩ | ⟨ha, hrun, -⟩ | ⟨ha, -, -⟩
  case inl | inr.inr =>
    rw [ha]
    rcases hrule { s with bud := s.bud - 1 } with hkept | ⟨v, hv, hst⟩
    · exact .inl hkept
    · rw [hv]
      exact .inr ⟨.ok, .inl rfl, congrArg (statusFinished .ok) hst, rfl⟩
  case inr.inl =>
    rw [ha]
    rcases hrule { s with bud := s.bud - 1 } with ⟨hst, -⟩ | ⟨v, hv, -⟩
    · exact .inr ⟨.timeout, .inr rfl, congrArg (statusFinished .timeout) hst, rfl⟩
    · exact absurd (by rw [hv]; rfl) hrun

/-- What is no command is a packet, or a frame: the attempt of a frame rule (R150, R151). -/
theorem exec_frame_or_packet (i : Instr) (hi : isCommand i = false) :
    (∃ addr body, i = .packetSp addr body)
    ∨ (endNumbers i = [codeNumber .ok, codeNumber .timeout]
        ∧ ∃ o rule, (∀ s, exec i s = receive o rule s) ∧ KeepsOrEnds rule) := by
  cases i with
  | packetSp addr body => exact .inl ⟨addr, body, rfl⟩
  | frameSentinelStart => exact .inr ⟨rfl, .ufs, _, fun _ => rfl, onSentinelStart_keepsOrEnds⟩
  | frameSentinelData d => exact .inr ⟨rfl, .ufs, _, fun _ => rfl, onSentinelData_keepsOrEnds d⟩
  | frameSentinelEnd => exact .inr ⟨rfl, .ufs, _, fun _ => rfl, onSentinelEnd_keepsOrEnds⟩
  | frameSentinelOther id => exact .inr ⟨rfl, .ufs, _, fun _ => rfl, abandon_keepsOrEnds⟩
  | frameAddressedHeader node total =>
    exact .inr ⟨rfl, .ufa, _, fun _ => rfl, onAddressedHeader_keepsOrEnds node total⟩
  | frameAddressedChunk1 node c => exact .inr ⟨rfl, .ufa, _, fun _ => rfl, onAddressedChunk_keepsOrEnds 1 node c⟩
  | frameAddressedChunk2 node c => exact .inr ⟨rfl, .ufa, _, fun _ => rfl, onAddressedChunk_keepsOrEnds 2 node c⟩
  | frameAddressedChunk3 node c => exact .inr ⟨rfl, .ufa, _, fun _ => rfl, onAddressedChunk_keepsOrEnds 3 node c⟩
  | frameAddressedChunk4 node c => exact .inr ⟨rfl, .ufa, _, fun _ => rfl, onAddressedChunk_keepsOrEnds 4 node c⟩
  | frameAddressedChunk5 node c => exact .inr ⟨rfl, .ufa, _, fun _ => rfl, onAddressedChunk_keepsOrEnds 5 node c⟩
  | frameAddressedChunk6 node c => exact .inr ⟨rfl, .ufa, _, fun _ => rfl, onAddressedChunk_keepsOrEnds 6 node c⟩
  | frameAddressedIgnored f => exact .inr ⟨rfl, .ufa, _, fun _ => rfl, id_keepsOrEnds⟩
  | _ => cases hi

/-! ## Buffer writes -/

/-- A write of a buffer length to an idle block leaves `STATUS` alone (R34). -/
theorem writePlen_status_idle (v : Nat) (s : State) (hb : s.status.busy = false) : (writePlen v s).status = s.status := by
  rcases writePlen_cases v s with ⟨hbusy, -⟩ | ⟨-, -, h⟩ | ⟨-, -, h⟩
  · simp [hb] at hbusy
  · rw [h]
  · rw [h]; rfl

/-- A hand-over to an idle block leaves `STATUS` alone (R34, R35). -/
theorem loadBuffer_status_idle (bs : List Byte) (s : State) (hb : s.status.busy = false) :
    (loadBuffer bs s).status = s.status := by
  have hbytes : (writePktBytes 0 bs s).status = s.status := by
    by_cases hne : bs = []
    · rw [hne]; rfl
    · obtain ⟨pkt', h, -, -⟩ := writePktBytes_idle 0 bs s hb hne
      rw [h]; rfl
  exact (writePlen_status_idle _ _ (by rw [hbytes, hb])).trans hbytes

/-! ## What an instruction ends with -/

/-- After any instruction `BUSY`, `DONE` and `CODE` are where they were, or `CODE` is one listed for the instruction (R302). -/
theorem exec_code_listed (i : Instr) (s t : State) (h : exec i s = .next t) :
    (t.status.busy = s.status.busy ∧ t.status.done = s.status.done ∧ t.status.code = s.status.code)
    ∨ codeNumber t.status.code ∈ endNumbers i := by
  cases hc : isCommand i with
  | true =>
    obtain ⟨run, hrun, hend⟩ := exec_command i hc
    rw [hrun] at h
    rcases hostCommand_cases run s t h with ⟨-, rfl⟩ | ⟨-, ht⟩
    · exact .inl ⟨rfl, rfl, rfl⟩
    · have hlast := hend (accept s)
      rw [← ht] at hlast
      cases hlast with
      | finished c u listed => exact .inr listed
      | started o u listed => exact .inr listed
  | false =>
    rcases exec_frame_or_packet i hc with ⟨addr, body, rfl⟩ | ⟨hn, o, rule, hex, hrule⟩
    · injection (h : execPacketSp addr body s = .next t) with h
      subst h
      left
      cases hb : s.status.busy with
      | true => rw [loadBuffer_busy _ s hb]; exact ⟨hb, rfl, rfl⟩
      | false => rw [loadBuffer_status_idle _ s hb]; exact ⟨hb, rfl, rfl⟩
    · rw [hex] at h
      obtain ⟨-, rfl⟩ := receive_next h
      rcases attempt_keeps_or_ends rule hrule s with ⟨hst, -⟩ | ⟨c, hcode, hst, -⟩
      · rw [hst]; exact .inl ⟨rfl, rfl, rfl⟩
      · rw [hst, hn]
        rcases hcode with rfl | rfl <;> exact .inr (by simp)

/-! ## What an event does to the command cycle -/

/-- Everything one event of R10 can do to `STATUS` and `OPR`. -/
inductive CycleMove (e : Event) (st : Status) (o : Opr) : Status → Opr → Prop where
  /-- a host access, or an attempt that does not complete -/
  | kept (noCommand : commandOf e = none) (notRefused : st.busy = true → ¬ refusedWhileBusy e) (notClear : ¬ clearsOvr e) :
    CycleMove e st o st o
  /-- what a busy block drops (R32, R44) -/
  | dropped (busy : st.busy = true) (presented : commandOf e ≠ none ∨ ∃ off width v, e = .hostWrite off width v) :
    CycleMove e st o (statusOverrun st) o
  /-- a host write to `STATUS` (R33) -/
  | written (v : BitVec 128) (event : e = .hostWrite 0x008 32 v) : CycleMove e st o (statusWritten (v.setWidth 32) st) o
  /-- a command that ends at once (R301); `SRST` clears `OVR` (R291) -/
  | ended (i : Instr) (c : Code) (command : commandOf e = some i) (idle : st.busy = false) :
    CycleMove e st o { busy := false, done := true, ovr := st.ovr && decide (i ≠ .srst), code := c } .none
  /-- the start of a reassembly (R150) -/
  | started (i : Instr) (r : Opr) (command : commandOf e = some i) (notSrst : i ≠ .srst) (idle : st.busy = false)
      (runs : r ≠ .none) :
    CycleMove e st o (statusRunning st) r
  /-- an answer that ends the running command (R151) -/
  | completed (a : Answer) (c : Code) (event : e = .rxAnswer a) (busy : st.busy = true) :
    CycleMove e st o (statusFinished c st) .none
  /-- the reset input (R340) -/
  | reset (event : e = .reset) : CycleMove e st o { busy := false, done := false, ovr := false, code := .ok } .none

/-- A host write presents a command exactly where it names `CMD` (R32). -/
theorem commandOf_hostWrite (off width : Nat) (v : BitVec 128) :
    commandOf (.hostWrite off width v)
      = if regAt off width = some .cmd then some (decodeCmd (v.setWidth 64)) else none := rfl

/-- An event that presents a command runs it (R32). -/
theorem stepEvent_command (e : Event) (i : Instr) (s : State) (h : commandOf e = some i) :
    stepEvent e s = exec i s ∧ isCommand i = true := by
  cases e with
  | hostCmd w =>
    injection h with h
    subst h
    exact ⟨rfl, decodeCmd_isCommand w⟩
  | hostWrite off width v =>
    rw [commandOf_hostWrite] at h
    split_ifs at h with hr
    injection h with h
    subst h
    exact ⟨by simp only [stepEvent, hostWrite, hr]; rfl, decodeCmd_isCommand _⟩
  | hostRead | hostBuffer | rxAnswer | reset => cases h

/-- A command moves the cycle by being dropped, ended at once, or started. -/
theorem command_cycleMove (e : Event) (i : Instr) (s t : State) (hc : commandOf e = some i)
    (h : stepEvent e s = .next t) : CycleMove e s.status s.opr t.status t.opr := by
  obtain ⟨hex, hi⟩ := stepEvent_command e i s hc
  obtain ⟨run, hrun, hend⟩ := exec_command i hi
  rw [hex, hrun] at h
  rcases hostCommand_cases run s t h with ⟨hb, rfl⟩ | ⟨hb, ht⟩
  · exact .dropped hb (.inl (by simp [hc]))
  · have hlast := hend (accept s)
    rw [← ht] at hlast
    cases hlast with
    | finished c u listed ovr =>
      have hst : (finish c u).status
          = { busy := false, done := true, ovr := s.status.ovr && decide (i ≠ .srst), code := c } :=
        congrArg (fun b => ({ busy := false, done := true, ovr := b, code := c } : Status)) ovr
      rw [hst]
      exact .ended i c hc hb
    | started o u listed runs notSrst ovr =>
      have hst : (startReassembly o u).status = statusRunning s.status :=
        congrArg (fun b => ({ busy := true, done := false, ovr := b, code := .ok } : Status)) ovr
      rw [hst]
      exact .started i o hc notSrst hb runs

/-- `STATUS` is the 32-bit register at offset 8 (R31). -/
theorem regAt_eq_status (off width : Nat) (h : regAt off width = some .status) : off = 0x008 ∧ width = 32 := by
  unfold regAt at h
  split_ifs at h with h64 hcmd h32
  · cases h
  · split at h
    case h_1 => exact ⟨rfl, h32⟩
    all_goals cases h
  all_goals cases h

/-- A host write of a register other than `CMD` writes that register (R44). -/
theorem stepEvent_hostWrite (off width : Nat) (v : BitVec 128) (s : State) (r : HostReg) (hr : regAt off width = some r)
    (hcmd : r ≠ .cmd) : stepEvent (.hostWrite off width v) s = .next (writeReg r v s) := by
  cases r with
  | cmd => exact absurd rfl hcmd
  | _ => simp only [stepEvent, hostWrite, hr]

/-- A host write clears `OVR` only through `STATUS` or a command (R33). -/
theorem hostWrite_not_clearsOvr (off width : Nat) (v : BitVec 128) (r : HostReg) (hr : regAt off width = some r)
    (hc : commandOf (.hostWrite off width v) = none) (hstatus : r ≠ .status) : ¬ clearsOvr (.hostWrite off width v) := by
  rintro (⟨_, he, -⟩ | hsrst | he)
  · injection he with hoff hwidth
    subst hoff hwidth
    injection hr with hr
    exact hstatus hr.symm
  · rw [hc] at hsrst; cases hsrst
  · cases he

/-- A busy block refuses a host write only of `CMD`, `PLEN` or `PKT` (R32, R44). -/
theorem hostWrite_not_refused (off width : Nat) (v : BitVec 128) (r : HostReg) (hr : regAt off width = some r)
    (hc : commandOf (.hostWrite off width v) = none) (hplen : r ≠ .plen) (hpkt : ∀ i, r ≠ .pkt i) :
    ¬ refusedWhileBusy (.hostWrite off width v) := by
  rintro (hcmd | ⟨_, he, -⟩ | ⟨i, _, hi, he⟩)
  · exact hcmd hc
  · injection he with hoff hwidth
    subst hoff hwidth
    injection hr with hr
    exact hplen hr.symm
  · injection he with hoff hwidth
    subst hoff hwidth
    rw [regAt_pkt i hi] at hr
    injection hr with hr
    exact hpkt i hr.symm

/-- What a host write that presents no command does to the command cycle. -/
theorem hostWrite_cycleMove (off width : Nat) (v : BitVec 128) (s t : State)
    (hc : commandOf (.hostWrite off width v) = none) (h : stepEvent (.hostWrite off width v) s = .next t) :
    CycleMove (.hostWrite off width v) s.status s.opr t.status t.opr := by
  cases hr : regAt off width with
  | none => simp [stepEvent, hostWrite, hr] at h
  | some r =>
    have hcmd : r ≠ .cmd := by rintro rfl; simp [commandOf_hostWrite, hr] at hc
    rw [stepEvent_hostWrite off width v s r hr hcmd] at h
    injection h with h
    subst h
    have hclear := hostWrite_not_clearsOvr off width v r hr hc
    have hrefused := hostWrite_not_refused off width v r hr hc
    have hwrite : ∃ off' width' v', Event.hostWrite off width v = .hostWrite off' width' v' := ⟨off, width, v, rfl⟩
    cases r with
    | cmd => exact absurd rfl hcmd
    | status =>
      obtain ⟨rfl, rfl⟩ := regAt_eq_status off width hr
      exact .written v rfl
    | plen =>
      show CycleMove _ _ _ (writePlen (v.setWidth 32).toNat s).status (writePlen (v.setWidth 32).toNat s).opr
      rcases writePlen_cases (v.setWidth 32).toNat s with ⟨hb, hw⟩ | ⟨hb, -, hw⟩ | ⟨hb, -, hw⟩ <;> rw [hw]
      · exact .dropped hb (.inr hwrite)
      · exact .kept hc (by simp [hb]) (hclear nofun)
      · exact .kept hc (by simp [hb]) (hclear nofun)
    | pkt i =>
      show CycleMove _ _ _ (writePktByte i (v.setWidth 8) s).status (writePktByte i (v.setWidth 8) s).opr
      rcases writePktByte_cases i (v.setWidth 8) s with ⟨hb, hw⟩ | ⟨hb, hw⟩ <;> rw [hw]
      · exact .dropped hb (.inr hwrite)
      · exact .kept hc (by simp [hb]) (hclear nofun)
    | vaddr | vlen | poff | pn | res | outn | bud | out => exact .kept hc (fun _ => hrefused nofun nofun) (hclear nofun)

/-- A busy block refuses nothing but commands and host writes (R44). -/
theorem not_refusedWhileBusy (e : Event) (hc : commandOf e = none) (hw : ∀ off width v, e ≠ .hostWrite off width v) :
    ¬ refusedWhileBusy e := by
  rintro (hcmd | ⟨_, he, -⟩ | ⟨_, _, -, he⟩)
  exacts [hcmd hc, hw _ _ _ he, hw _ _ _ he]

/-- `OVR` is cleared by nothing but commands, host writes and reset (R33). -/
theorem not_clearsOvr (e : Event) (hc : commandOf e = none) (hw : ∀ off width v, e ≠ .hostWrite off width v)
    (hr : e ≠ .reset) : ¬ clearsOvr e := by
  rintro (⟨_, he, -⟩ | hsrst | he)
  · exact hw _ _ _ he
  · rw [hc] at hsrst; cases hsrst
  · exact hr he

/-- A host read moves nothing in the command cycle (R44). -/
theorem hostRead_status (off width : Nat) (s t : State) (h : hostRead off width s = .next t) :
    t.status = s.status ∧ t.opr = s.opr := by
  unfold hostRead at h
  split at h
  · cases h
  · split at h
    · cases h
    · injection h with h
      subst h
      exact ⟨rfl, rfl⟩

/-- An answer the block takes is an attempt of a rule that keeps the command cycle or ends the command (R151). -/
theorem answer_keepsOrEnds (s t : State) (a : Answer) (h : stepEvent (.rxAnswer a) s = .next t) :
    ∃ rule, t = attempt rule s ∧ s.opr ≠ .none ∧ KeepsOrEnds rule := by
  obtain ⟨rule, ht, hrun, hrule⟩ := answer_is_attempt s a t h
  refine ⟨rule, ht, hrun, ?_⟩
  rcases hrule with rfl | ⟨-, rfl | ⟨d, -, rfl⟩ | rfl | rfl⟩ | ⟨-, rfl | ⟨node, total, rfl⟩ | ⟨m, node, c, -, -, -, rfl⟩⟩
  · exact id_keepsOrEnds
  · exact onSentinelStart_keepsOrEnds
  · exact onSentinelData_keepsOrEnds d
  · exact onSentinelEnd_keepsOrEnds
  · exact abandon_keepsOrEnds
  · exact id_keepsOrEnds
  · exact onAddressedHeader_keepsOrEnds node total
  · exact onAddressedChunk_keepsOrEnds m node c

/-- What every event but a buffer hand-over does to the command cycle. -/
theorem stepEvent_cycleMove (e : Event) (s t : State) (hbusy : s.opr ≠ .none → s.status.busy = true)
    (hne : ∀ bs, e ≠ .hostBuffer bs) (h : stepEvent e s = .next t) : CycleMove e s.status s.opr t.status t.opr := by
  cases hc : commandOf e with
  | some i => exact command_cycleMove e i s t hc h
  | none =>
    cases e with
    | hostCmd w => cases hc
    | hostWrite off width v => exact hostWrite_cycleMove off width v s t hc h
    | hostRead off width =>
      obtain ⟨hst, ho⟩ := hostRead_status off width s t h
      rw [hst, ho]
      exact .kept hc (fun _ => not_refusedWhileBusy _ hc nofun) (not_clearsOvr _ hc nofun nofun)
    | hostBuffer bs => exact absurd rfl (hne bs)
    | rxAnswer a =>
      obtain ⟨rule, rfl, hrun, hrule⟩ := answer_keepsOrEnds s t a h
      rcases attempt_keeps_or_ends rule hrule s with ⟨hst, ho⟩ | ⟨c, -, hst, ho⟩ <;> rw [hst, ho]
      · exact .kept hc (fun _ => not_refusedWhileBusy _ hc nofun) (not_clearsOvr _ hc nofun nofun)
      · exact .completed a c rfl (hbusy hrun)
    | reset =>
      injection h with h
      subst h
      exact .reset rfl

/-- A write to `STATUS` touches `OVR` alone, which a 1 in bit 2 clears (R33). -/
theorem statusWritten_eq (v : BitVec 128) (st : Status) :
    statusWritten (v.setWidth 32) st = { st with ovr := st.ovr && !v.getLsbD 2 } := by
  have hbit : (v.setWidth 32).getLsbD 2 = v.getLsbD 2 := by simp
  unfold statusWritten
  rw [hbit]
  cases v.getLsbD 2 <;> simp

/-- A host write to `STATUS` clears `OVR` exactly with a 1 in bit 2 (R33). -/
theorem clearsOvr_writeStatus (v : BitVec 128) : clearsOvr (.hostWrite 0x008 32 v) ↔ v.getLsbD 2 = true := by
  constructor
  · rintro (⟨_, he, hbit⟩ | hsrst | he)
    · injection he with _ _ hv
      rwa [hv]
    · cases hsrst
    · cases he
  · exact fun hbit => .inl ⟨v, rfl, hbit⟩

/-- Of the commands only `SRST` clears `OVR` (R33, R291). -/
theorem clearsOvr_command (e : Event) (i : Instr) (hc : commandOf e = some i) : clearsOvr e ↔ i = .srst := by
  constructor
  · rintro (⟨_, rfl, -⟩ | hsrst | rfl)
    · cases hc
    · rw [hc] at hsrst
      injection hsrst
    · cases hc
  · rintro rfl
    exact .inr (.inl hc)

/-- What R33 says of `BUSY`, `DONE` and `OVR` holds of every move. -/
theorem CycleMove.follows {e : Event} {st st' : Status} {o o' : Opr} (h : CycleMove e st o st' o')
    (hbusy : st.busy = true ↔ o ≠ .none) (hexcl : ¬ (st.busy = true ∧ st.done = true)) :
    ((st'.busy = true ↔ o' ≠ .none) ∧ ¬ (st'.busy = true ∧ st'.done = true))
    ∧ (st.busy = true → st'.busy = false → st'.done = true ∨ e = .reset)
    ∧ (st.busy = false → commandOf e ≠ none → st'.done = true ∨ st'.busy = true)
    ∧ (st.done = false → st'.done = true → st.busy = true ∨ commandOf e ≠ none)
    ∧ (st.done = true → st'.done = false → commandOf e ≠ none ∨ e = .reset)
    ∧ (st.busy = true → refusedWhileBusy e → st'.ovr = true)
    ∧ (st.ovr = false → st'.ovr = true →
        st.busy = true ∧ (commandOf e ≠ none ∨ ∃ off width v, e = .hostWrite off width v))
    ∧ (st.ovr = true → st'.ovr = false → clearsOvr e)
    ∧ (st.busy = false → clearsOvr e → st'.ovr = false) := by
  cases h with
  | kept noCommand notRefused notClear =>
    simp_all
  | dropped busy presented =>
    simp_all
  | written v event =>
    subst event
    have hc : commandOf (.hostWrite 0x008 32 v) = none := rfl
    have hr : ¬ refusedWhileBusy (.hostWrite 0x008 32 v) := hostWrite_not_refused 0x008 32 v .status rfl hc nofun nofun
    simp_all [statusWritten_eq, clearsOvr_writeStatus]
  | ended i c command idle => simp_all [clearsOvr_command e i command]
  | started i r command notSrst idle runs => simp_all [clearsOvr_command e i command]
  | completed a c event busy =>
    subst event
    have hr : ¬ refusedWhileBusy (.rxAnswer a) := not_refusedWhileBusy _ rfl nofun
    simp_all
  | reset event =>
    subst event
    have hc : commandOf .reset = none := rfl
    have hr : ¬ refusedWhileBusy .reset := not_refusedWhileBusy _ rfl nofun
    have hclear : clearsOvr .reset := .inr (.inr rfl)
    simp_all

/-- Settles O17: `exec_code_listed` for the instructions; for the events, a step is one move of the command cycle from a state
in which `BUSY` is `OPR ≠ NONE`. -/
theorem statusFollowsCommandCycle : Obligations.StatusFollowsCommandCycle := by
  refine ⟨⟨rfl, exec_code_listed⟩, fun s t e rest hs hin hne hstep => ?_⟩
  obtain ⟨hbusy, hexcl, -⟩ := hs.status_ok
  rw [step_cons s e rest hin] at hstep
  have hmove := stepEvent_cycleMove e { s with inbox := rest } t hbusy.2 hne hstep
  exact hmove.follows hbusy hexcl

end Sys2Proof.Proofs
end

section
/-! SUPPORT. The classes of received frames: by the id alone in a running `UFS` (spec/30_encoding.md R112), by length, node
and marker in a running `UFA` (R118), and the bytes the receive port shows (spec/10_state.md R77). -/

namespace Sys2Proof.Proofs

open Sys2Proof.Machine

/-! ## The bytes of a received frame -/

/-- A byte the frame carries is shown as it is, a missing one as zero (R77). -/
theorem frame_byte_eq_ite (f : Frame) (i : Nat) : f.byte i = if i < f.len then f.data.getD i 0 else 0 := by
  unfold Frame.byte Frame.len
  split
  · rfl
  · next h => exact List.getD_eq_default _ _ (Nat.le_of_not_lt h)

/-- The chunk bytes of a frame that carries them all are the data after the node byte (R114, R116). -/
theorem frame_chunk_eq_take (f : Frame) (n : Nat) (h : n + 1 ≤ f.len) : f.chunk n = (f.data.drop 1).take n := by
  unfold Frame.len at h
  have hlen : (f.chunk n).length = ((f.data.drop 1).take n).length := by
    simpa [Frame.chunk] using Nat.le_sub_of_add_le h
  refine List.ext_getElem hlen fun i hi _ => ?_
  have hin : i < n := by simpa [Frame.chunk] using hi
  have hdata : i + 1 < f.data.length := by omega
  simp [Frame.chunk, Frame.byte, Nat.add_comm 1 i, hdata]

/-- A chunk frame carries at most the six bytes between node and marker (R116). -/
theorem chunkCap_le_six (m : Nat) : chunkCap m ≤ 6 := by
  unfold chunkCap; split <;> decide

/-! ## Classification in a running `UFS` -/

/-- The three receive ids of an instance are different (R6). -/
theorem rxSids_distinct (p : Params) (hw : p.wf = true) :
    p.rxSidStart ≠ p.rxSidData ∧ p.rxSidStart ≠ p.rxSidEnd ∧ p.rxSidData ≠ p.rxSidEnd := by
  simp only [Params.wf, Bool.and_eq_true, decide_eq_true_eq] at hw
  obtain ⟨⟨⟨⟨⟨⟨hsd, hse⟩, hde⟩, -⟩, -⟩, -⟩, -⟩ := hw
  exact ⟨hsd, hse, hde⟩

theorem classifySentinel_start (p : Params) (f : Frame) (h : f.id = p.rxSidStart) :
    classifySentinel p f = .frameSentinelStart := if_pos h

theorem classifySentinel_data (p : Params) (f : Frame) (hs : f.id ≠ p.rxSidStart) (h : f.id = p.rxSidData) :
    classifySentinel p f = .frameSentinelData ((List.range 8).map f.byte) := by
  rw [classifySentinel, if_neg hs, if_pos h]

theorem classifySentinel_end (p : Params) (f : Frame) (hs : f.id ≠ p.rxSidStart) (hd : f.id ≠ p.rxSidData)
    (h : f.id = p.rxSidEnd) : classifySentinel p f = .frameSentinelEnd := by
  rw [classifySentinel, if_neg hs, if_neg hd, if_pos h]

theorem classifySentinel_other (p : Params) (f : Frame) (hs : f.id ≠ p.rxSidStart) (hd : f.id ≠ p.rxSidData)
    (he : f.id ≠ p.rxSidEnd) : classifySentinel p f = .frameSentinelOther f.id := by
  rw [classifySentinel, if_neg hs, if_neg hd, if_neg he]

/-- Settles O6: the receive ids of a well-formed instance are different, so each test of the classification is decided by
the id; a data frame's operand is the eight bytes of the port. -/
theorem sentinelFramesClassifiedById : Obligations.SentinelFramesClassifiedById := by
  intro p f hw
  obtain ⟨hsd, hse, hde⟩ := rxSids_distinct p hw
  refine ⟨classifySentinel_start p f, fun hdata => ?_, fun hend => ?_, classifySentinel_other p f⟩
  · have hstart : f.id ≠ p.rxSidStart := hdata ▸ hsd.symm
    refine ⟨_, classifySentinel_data p f hstart hdata, by simp, fun i hi => ?_⟩
    rw [← frame_byte_eq_ite]
    simp [hi]
  · exact classifySentinel_end p f (hend ▸ hse.symm) (hend ▸ hde.symm) hend

/-! ## Classification in a running `UFA` -/

/-- A frame of another length, another node or a marker above 6 is ignored (R118). -/
theorem classifyAddressed_ignored (k : Byte) (f : Frame) (h : f.len ≠ 8 ∨ f.byte 0 ≠ k ∨ 6 < (f.byte 7).toNat) :
    classifyAddressed k f = .frameAddressedIgnored f := by
  unfold classifyAddressed
  split
  · rfl
  split
  · rfl
  next hlen hnode =>
    have hmarker : 6 < (f.byte 7).toNat := (h.resolve_left hlen).resolve_left hnode
    split
    case h_8 => rfl
    all_goals omega

/-- A frame of the target node with marker 0 is a header with its total (R115, R118). -/
theorem classifyAddressed_header (k : Byte) (f : Frame) (hlen : f.len = 8) (hnode : f.byte 0 = k)
    (hmarker : f.byte 7 = 0) : classifyAddressed k f = .frameAddressedHeader k (f.byte 1) := by
  subst hnode
  rw [classifyAddressed, if_neg (not_not_intro hlen), if_neg (not_not_intro rfl), hmarker]
  rfl

/-- A frame of the target node with marker 1 to 6 is the chunk of that marker (R116, R118). -/
theorem classifyAddressed_chunk (k : Byte) (f : Frame) (m : Nat) (h1 : 1 ≤ m) (h6 : m ≤ 6) (hlen : f.len = 8)
    (hnode : f.byte 0 = k) (hmarker : (f.byte 7).toNat = m) :
    classifyAddressed k f = chunkInstr m k (f.chunk (chunkCap m)) := by
  subst hnode
  rw [classifyAddressed, if_neg (not_not_intro hlen), if_neg (not_not_intro rfl), hmarker]
  have hm : m = 1 ∨ m = 2 ∨ m = 3 ∨ m = 4 ∨ m = 5 ∨ m = 6 := by omega
  rcases hm with rfl | rfl | rfl | rfl | rfl | rfl <;> rfl

/-- Settles O7: length, node and marker decide the class, in that order; a frame of eight bytes carries every chunk byte. -/
theorem addressedFramesClassified : Obligations.AddressedFramesClassified := by
  refine fun k f => ⟨classifyAddressed_ignored k f, classifyAddressed_header k f, fun m h1 h6 hlen hnode hmarker => ?_⟩
  have hcap : chunkCap m + 1 ≤ f.len := by
    have := chunkCap_le_six m
    omega
  rw [← frame_chunk_eq_take f _ hcap]
  exact classifyAddressed_chunk k f m h1 h6 hlen hnode hmarker

end Sys2Proof.Proofs
end

section
/-! SUPPORT. The framer commands of an idle block (spec/40_framer.md R141, R145, R150, R175): what `FRS` and `FRA` send,
what `UFS` and `UFA` start, what `DEPAD` drops, and the statements about them. -/

namespace Sys2Proof.Proofs

open Sys2Proof.Machine Sys2Proof.Laws

/-! ## The words of the framer commands -/

/-- A word of format N is its operation code, its operand and zero bits (R101). -/
theorem wordOf_formatN (opc a : Byte) : wordOf opc a 0 0 0 0 0 = opc ++ a ++ 0#48 := by
  unfold wordOf
  apply BitVec.eq_of_getLsbD_eq
  intro i hi
  simp only [BitVec.getLsbD_append, BitVec.ofNat_eq_ofNat, BitVec.getLsbD_zero]
  by_cases hlow : i < 48
  · rw [if_pos hlow, if_pos (show i - 16 - 16 - 4 - 4 < 8 by omega)]
    simp only [ite_self]
  · have hsub : i - 16 - 16 - 4 - 4 - 8 = i - 48 := by omega
    rw [if_neg hlow, if_neg (show ¬ i < 16 by omega), if_neg (show ¬ i - 16 < 16 by omega),
      if_neg (show ¬ i - 16 - 16 < 4 by omega), if_neg (show ¬ i - 16 - 16 - 4 < 4 by omega),
      if_neg (show ¬ i - 16 - 16 - 4 - 4 < 8 by omega), hsub]

/-! ## What FRS sends -/

/-- A data frame carries the eight bytes of its place in the buffer, zero beyond the buffer's end (R73, R141). -/
theorem dataFrame_pktBytes (p : Params) (s : State) (n j : Nat) : dataFrame p (pktBytes s 0 n) j
    = ⟨p.txSidData, (List.range 8).map (fun k => if 8 * j + k < n then pktByte s (8 * j + k) else 0)⟩ := by
  simp only [dataFrame, pktBytes_getD]

/-- `FRS` of an idle block with an empty buffer (R310). -/
theorem exec_frs_empty (s : State) (hb : s.status.busy = false) (h0 : s.plen = 0) :
    exec .frs s = .next (ended .emptyBuffer s) := by
  rw [show exec .frs s = execFrs s from rfl, execFrs, hostCommand_idle hb, if_pos (by simpa using h0), finish_accept]

/-- `FRS` of an idle block with a buffer sends the buffer's sentinel frames (R141). -/
theorem exec_frs_sends (s : State) (hb : s.status.busy = false) (h0 : s.plen ≠ 0) : exec .frs s
    = .next { ended .ok s with tx := s.tx ++ sentinelFrames s.cfg (pktBytes s 0 s.plen) } := by
  rw [show exec .frs s = execFrs s from rfl, execFrs, hostCommand_idle hb, if_neg (by simpa using h0)]
  rfl

/-- Settles O18: an empty buffer is refused; for the others `exec_frs_sends`, with each data frame written out. -/
theorem frsSendsSentinelFrames : Obligations.FrsSendsSentinelFrames := by
  refine ⟨fun _ => rfl, fun s hb => ⟨exec_frs_empty s hb, fun h0 => ?_⟩⟩
  rw [exec_frs_sends s hb h0, sentinelFrames, pktBytes_length, funext (dataFrame_pktBytes s.cfg s s.plen),
    ← List.append_assoc, ← List.append_assoc]
  rfl

/-! ## What FRA sends -/

/-- A list filled with zeros to `n` elements, index by index (R73). -/
theorem append_replicate_zero (c : List Byte) (n : Nat) (h : c.length ≤ n) :
    c ++ List.replicate (n - c.length) 0 = (List.range n).map (fun i => c.getD i 0) := by
  refine List.ext_getElem (by simp; omega) fun i h1 h2 => ?_
  rw [List.getElem_append]
  split
  · next hi => simp [hi]
  · next hi => simp [List.getElem?_eq_none (Nat.le_of_not_lt hi)]

/-- The data of an addressed frame: the node, six chunk bytes filled with zeros, the marker (R114, R116). -/
theorem addressedData_eq (node marker : Byte) (c : List Byte) (h : c.length ≤ 6) :
    addressedData node marker c = [node] ++ (List.range 6).map (fun i => c.getD i 0) ++ [marker] := by
  rw [addressedData, List.append_assoc [node] c, append_replicate_zero c 6 h]

/-- A chunk of a buffer: its bytes up to the capacity of its marker and the end of the buffer (R116). -/
theorem chunk_getD (bs : List Byte) (base cap i : Nat) :
    ((bs.drop base).take cap).getD i 0 = if i < cap then bs.getD (base + i) 0 else 0 := by
  simp only [List.getD_eq_getElem?_getD, List.getElem?_take, List.getElem?_drop]
  split <;> rfl

/-- A chunk frame of a buffer, byte by byte (R116). -/
theorem chunkFrame_eq (p : Params) (k : Byte) (bs : List Byte) (m : Nat) : chunkFrame p k bs m
    = ⟨p.txAid, [k] ++ (List.range 6).map (fun i => if i < chunkCap m then bs.getD (chunkBase m + i) 0 else 0)
        ++ [BitVec.ofNat 8 m]⟩ := by
  have hlen : ((bs.drop (chunkBase m)).take (chunkCap m)).length ≤ 6 :=
    (List.length_take_le _ _).trans (chunkCap_le_six m)
  rw [chunkFrame, addressedData_eq _ _ _ hlen]
  simp only [chunk_getD]

/-- A chunk frame of the buffer `PKT[0..n)` (R145). -/
theorem chunkFrame_pktBytes (p : Params) (k : Byte) (s : State) (n m : Nat) : chunkFrame p k (pktBytes s 0 n) m
    = ⟨p.txAid, [k] ++ (List.range 6).map (fun i =>
        if i < chunkCap m ∧ chunkBase m + i < n then pktByte s (chunkBase m + i) else 0) ++ [BitVec.ofNat 8 m]⟩ := by
  simp only [chunkFrame_eq, pktBytes_getD, ite_and]

/-- Where a test that holds of an element holds of all before it, taking while it holds is filtering by it. -/
theorem takeWhile_eq_filter {α : Type} (p : α → Bool) (l : List α)
    (h : l.Pairwise (fun a b => p b = true → p a = true)) : l.takeWhile p = l.filter p := by
  induction h with
  | nil => rfl
  | @cons a l hall _ ih =>
    cases ha : p a with
    | true => rw [List.takeWhile_cons_of_pos ha, List.filter_cons_of_pos ha, ih]
    | false =>
      have hnone : ∀ b ∈ l, ¬ p b = true := fun b hb hp => by simp [hall b hb hp] at ha
      rw [List.takeWhile_cons_of_neg (by simp [ha]), List.filter_cons_of_neg (by simp [ha]),
        List.filter_eq_nil_iff.2 hnone]

/-- The chunk frames that carry bytes are those of every marker whose base is below the length: the bases rise
(R116). -/
theorem carrying_markers (n : Nat) : ([1, 2, 3, 4, 5, 6] : List Nat).takeWhile (fun m => decide (chunkBase m < n))
    = ([1, 2, 3, 4, 5, 6] : List Nat).filter (fun m => decide (chunkBase m < n)) := by
  have hrise : ([1, 2, 3, 4, 5, 6] : List Nat).Pairwise (fun a b => chunkBase a ≤ chunkBase b) := by decide
  refine takeWhile_eq_filter _ _ (hrise.imp fun hab hb => ?_)
  simp only [decide_eq_true_eq] at hb ⊢
  omega

/-- `FRA` of an idle block with a buffer of more than 32 bytes (R311). -/
theorem exec_fra_tooLong (s : State) (k : Byte) (hb : s.status.busy = false) (h : 32 < s.plen) :
    exec (.fra k) s = .next (ended .tooLong s) := by
  rw [show exec (.fra k) s = execFra k s from rfl, execFra, hostCommand_idle hb, if_pos (by simpa using h),
    finish_accept]

/-- `FRA` of an idle block sends the buffer's addressed frames (R145). -/
theorem exec_fra_sends (s : State) (k : Byte) (hb : s.status.busy = false) (h : s.plen ≤ 32) : exec (.fra k) s
    = .next { ended .ok s with tx := s.tx ++ addressedFrames s.cfg k (pktBytes s 0 s.plen) } := by
  rw [show exec (.fra k) s = execFra k s from rfl, execFra, hostCommand_idle hb, if_neg (by simpa using h)]
  rfl

/-- Settles O19: above 32 bytes nothing is sent; for the others `exec_fra_sends`, with the markers and each chunk frame
written out. -/
theorem fraSendsAddressedFrames : Obligations.FraSendsAddressedFrames := by
  refine ⟨fun _ k => congrArg Wire.cmd (wordOf_formatN 0x11 k), by decide,
    fun s k hb => ⟨exec_fra_tooLong s k hb, fun h => ?_⟩⟩
  rw [exec_fra_sends s k hb h, addressedFrames, pktBytes_length, carrying_markers,
    funext (chunkFrame_pktBytes s.cfg k s s.plen)]
  rfl

/-! ## Starting a reassembly -/

/-- A frame that reaches a block is the instruction its class is (R112, R118, R150). -/
theorem step_frame (s : State) (f : Frame) (rest : List Event) (i : Instr)
    (hin : s.inbox = .rxAnswer (.frame f) :: rest) (hlen : f.len ≤ 8) (hc : classify s.cfg s.opr s.knode f = some i) : step s = exec i { s with inbox := rest } := by
  have hwf : f.wf = true := by simpa [Frame.wf] using hlen
  rw [step_cons s _ rest hin]
  simp only [stepEvent, presentFrame, hwf, if_true, hc]

/-- While nothing runs no frame is an event (R150). -/
theorem step_frame_refused (s : State) (f : Frame) (rest : List Event) (hin : s.inbox = .rxAnswer (.frame f) :: rest)
    (hlen : f.len ≤ 8) (ho : s.opr = .none) : step s = .refused .rxNotEnabled := by
  have hwf : f.wf = true := by simpa [Frame.wf] using hlen
  rw [step_cons s _ rest hin]
  simp only [stepEvent, presentFrame, hwf, if_true, ho, classify]

/-- An `Empty` answer is one attempt that changes nothing but the budget (R151, R161). -/
theorem step_empty (s : State) (rest : List Event) (hin : s.inbox = .rxAnswer .empty :: rest) (ho : s.opr ≠ .none) :
    step s = .next (timeoutAtZero { s with inbox := rest, bud := s.bud - 1 }) := by
  rw [step_cons s _ rest hin]
  simp only [stepEvent, receiveEmpty, if_neg ho]
  exact congrArg Host.Outcome.next (attempt_of_running id { s with inbox := rest } _ rfl ho)

/-- While nothing runs `Empty` is no event (R150). -/
theorem step_empty_refused (s : State) (rest : List Event) (hin : s.inbox = .rxAnswer .empty :: rest)
    (ho : s.opr = .none) : step s = .refused .rxNotEnabled := by
  rw [step_cons s _ rest hin]
  simp only [stepEvent, receiveEmpty, if_pos ho]

/-- A running command has a class for every frame (R112, R118). -/
theorem classify_of_running (p : Params) (o : Opr) (k : Byte) (f : Frame) (ho : o ≠ .none) :
    ∃ i, classify p o k f = some i := by
  cases o with
  | none => exact absurd rfl ho
  | ufs => exact ⟨_, rfl⟩
  | ufa => exact ⟨_, rfl⟩

/-- A running command takes every answer of the transport (R150). -/
theorem step_answer_of_running (s : State) (a : Answer) (rest : List Event) (hin : s.inbox = .rxAnswer a :: rest)
    (hlen : ∀ f, a = .frame f → f.len ≤ 8) (ho : s.opr ≠ .none) : ∃ t, step s = .next t := by
  cases a with
  | empty => exact ⟨_, step_empty s rest hin ho⟩
  | frame f =>
    obtain ⟨i, hi⟩ := classify_of_running s.cfg s.opr s.knode f ho
    obtain ⟨rule, hrule, -⟩ := classify_is_attempt _ _ _ _ _ hi
    exact ⟨_, (step_frame s f rest i hin (hlen f rfl) hi).trans (hrule _ rfl)⟩

/-- Without a running command no answer of the transport is an event (R150). -/
theorem step_answer_refused (s : State) (a : Answer) (rest : List Event) (hin : s.inbox = .rxAnswer a :: rest)
    (hlen : ∀ f, a = .frame f → f.len ≤ 8) (ho : s.opr = .none) : step s = .refused .rxNotEnabled := by
  cases a with
  | empty => exact step_empty_refused s rest hin ho
  | frame f => exact step_frame_refused s f rest hin (hlen f rfl) ho

/-- An idle block that accepts `UFA K` starts a reassembly for node `K` (R150, R162). -/
theorem exec_ufa_idle (s : State) (k : Byte) (hb : s.status.busy = false) :
    exec (.ufa k) s = .next (startReassembly .ufa { accept s with knode := k }) :=
  hostCommand_idle (run := fun t => startReassembly .ufa { t with knode := k }) hb

/-- Settles O20: an idle block accepts the word and starts; an answer is taken by a running command and by no other
state. -/
theorem reassemblyStart : Obligations.ReassemblyStart := by
  refine ⟨fun _ => rfl, fun _ k => congrArg Wire.cmd (wordOf_formatN 0x13 k),
    fun s hb => ⟨hostCommand_idle hb, fun k => exec_ufa_idle s k hb⟩,
    fun s a rest hin hlen => ⟨?_, ?_⟩⟩
  · rintro ⟨t, ht⟩ ho
    rw [step_answer_refused s a rest hin hlen ho] at ht
    cases ht
  · exact step_answer_of_running s a rest hin hlen

/-! ## Padding removal -/

/-- `DEPAD` of an idle block (R175). -/
theorem exec_depad_some (s : State) (n : Nat) (hb : s.status.busy = false) (h : depadTo s = some n) : exec .depad s
    = .next { ended .ok s with plen := n, poff := 0, pn := 0, vaddr := 0, vlen := 0 } := by
  have haccept : depadTo (accept s) = some n := h
  rw [show exec .depad s = execDepad s from rfl, execDepad, hostCommand_idle hb, haccept]
  rfl

/-- `DEPAD` of an idle block that keeps its buffer (R175). -/
theorem exec_depad_none (s : State) (hb : s.status.busy = false) (h : depadTo s = none) :
    exec .depad s = .next (ended .ok s) := by
  have haccept : depadTo (accept s) = none := h
  rw [show exec .depad s = execDepad s from rfl, execDepad, hostCommand_idle hb, haccept]
  rfl

/-- Settles O21: `depadTo_eq_some_iff` says when `DEPAD` shortens the buffer, and to what. -/
theorem depadDropsOnlyPadding : Obligations.DepadDropsOnlyPadding := by
  refine ⟨fun _ => rfl, fun s hb => ⟨fun hpad => ?_, fun hnot => ?_⟩⟩
  · exact exec_depad_some s _ hb ((depadTo_eq_some_iff s _).2 ⟨rfl, hpad⟩)
  · refine exec_depad_none s hb (Option.eq_none_iff_forall_ne_some.2 fun n hn => hnot ?_)
    exact ((depadTo_eq_some_iff s n).1 hn).2

end Sys2Proof.Proofs
end

section
/-! SUPPORT. What a running `UFS` or `UFA` does with each class of received frame (spec/40_framer.md R151 to R169): the
frame rules case by case, and the statements about them. -/

namespace Sys2Proof.Proofs

open Sys2Proof.Machine

/-! ## One attempt -/

/-- A frame whose rule leaves the command running costs its unit, and at budget 0 the command ends (R151). -/
theorem receive_kept {o : Opr} {rule : State → State} {s t : State} (ho : s.opr = o)
    (hrule : rule { s with bud := s.bud - 1 } = t) (ht : t.opr ≠ .none) :
    receive o rule s = .next (timeoutAtZero t) := by
  rw [receive_running ho, attempt_of_running rule s t hrule ht]

/-- A frame whose rule ends the command leaves what the rule leaves, whatever the budget (R171). -/
theorem receive_ended {o : Opr} {rule : State → State} {s t : State} (ho : s.opr = o)
    (hrule : rule { s with bud := s.bud - 1 } = t) (ht : t.opr = .none) : receive o rule s = .next t := by
  rw [receive_running ho, attempt_of_ended rule s t hrule ht]

/-- A frame whose rule changes nothing costs its unit and nothing else (R151). -/
theorem receive_ignored {o : Opr} {rule : State → State} {s : State} (ho : s.opr = o) (hne : o ≠ .none)
    (hrule : rule { s with bud := s.bud - 1 } = { s with bud := s.bud - 1 }) :
    receive o rule s = .next (timeoutAtZero { s with bud := s.bud - 1 }) :=
  receive_kept ho hrule (ho ▸ hne)

/-- `TIMEOUT` at budget 0 touches no buffer byte. -/
theorem rbByte_timeoutAtZero (s : State) (i : Nat) : rbByte (timeoutAtZero s) i = rbByte s i := by
  unfold timeoutAtZero; split <;> rfl

theorem abByte_timeoutAtZero (s : State) (i : Nat) : abByte (timeoutAtZero s) i = abByte s i := by
  unfold timeoutAtZero; split <;> rfl

/-- Settles O25: `step_empty`. -/
theorem emptyAnswerOnlyCostsBudget : Obligations.EmptyAnswerOnlyCostsBudget := step_empty

/-! ## Sentinel mode -/

/-- A data frame while no sequence is open (R157). -/
theorem onSentinelData_idle (d : List Byte) (s : State) (h : s.sph = .idle) : onSentinelData d s = s := by
  simp [onSentinelData, h]

/-- A data frame is stored behind the bytes accumulated so far (R155). -/
def storeData (d : List Byte) (s : State) : State :=
  { s with rb := blit s.rn d s.rb, rn := s.rn + 8, sph := .data }

/-- `RB` after a data frame is stored: its bytes from `RN` on, the old ones elsewhere (R155). -/
theorem rbByte_storeData (d : List Byte) (s : State) (hd : d.length = 8) (i : Nat) :
    rbByte (storeData d s) i = if s.rn ≤ i ∧ i < s.rn + 8 then d.getD (i - s.rn) 0 else rbByte s i := by
  have hread := rbByte_blit s.rn d s i
  rw [hd] at hread
  exact hread

/-- A data frame of an open sequence with room for it (R155). -/
theorem onSentinelData_room (d : List Byte) (s : State) (h : s.sph ≠ .idle) (hroom : s.rn + 8 ≤ rbCap) :
    onSentinelData d s = storeData d s := by
  unfold onSentinelData
  split
  · exact absurd ‹_› h
  · exact if_pos hroom
  · exact if_pos hroom

/-- A data frame of an open sequence without room for it (R156). -/
theorem onSentinelData_full (d : List Byte) (s : State) (h : s.sph ≠ .idle) (hfull : rbCap < s.rn + 8) :
    onSentinelData d s = abandon s := by
  unfold onSentinelData
  split
  · exact absurd ‹_› h
  · exact if_neg (Nat.not_le.2 hfull)
  · exact if_neg (Nat.not_le.2 hfull)

/-- An end frame after data (R158). -/
theorem onSentinelEnd_data (s : State) (h : s.sph = .data) :
    onSentinelEnd s = finish .ok { setBuffer (rbBytes s s.rn) s with rn := 0, sph := .idle } := by
  simp only [onSentinelEnd, h]

/-- An end frame after anything else (R159). -/
theorem onSentinelEnd_not_data (s : State) (h : s.sph ≠ .data) : onSentinelEnd s = abandon s := by
  unfold onSentinelEnd
  split
  · exact absurd ‹_› h
  · rfl
  · rfl

/-- A byte of `RB[0..n)`. -/
theorem rbBytes_getD (s : State) (n i : Nat) (h : i < n) : (rbBytes s n).getD i 0 = rbByte s i := by
  rw [List.getD_eq_getElem?_getD, rbBytes_getElem? s n i h, Option.getD_some]

/-- Settles O22: both rules leave the command running. -/
theorem startFrameRestartsOtherAbandons : Obligations.StartFrameRestartsOtherAbandons := by
  intro s ho
  have hrun : s.opr ≠ .none := by simp [ho]
  exact ⟨receive_kept (rule := onSentinelStart) ho rfl hrun, fun _ => receive_kept (rule := abandon) ho rfl hrun⟩

/-- Settles O23: the three cases of the data rule. -/
theorem dataFrameAccumulates : Obligations.DataFrameAccumulates := by
  intro s d ho hd
  have hrun : s.opr ≠ .none := by simp [ho]
  refine ⟨fun hidle => ?_, fun hopen hroom => ?_, fun hopen hfull => ?_⟩
  · exact receive_kept ho (onSentinelData_idle d { s with bud := s.bud - 1 } hidle) hrun
  · refine ⟨_, blit s.rn d s.rb,
      receive_kept ho (onSentinelData_room d { s with bud := s.bud - 1 } hopen hroom) hrun, rfl, fun i => ?_⟩
    rw [rbByte_timeoutAtZero]
    exact rbByte_storeData d { s with bud := s.bud - 1 } hd i
  · exact receive_kept ho (onSentinelData_full d { s with bud := s.bud - 1 } hopen hfull) hrun

/-- Settles O24: the two cases of the end rule; after data the buffer's new bytes are those of `RB`. -/
theorem endFrameCompletes : Obligations.EndFrameCompletes := by
  intro s ho
  have hrun : s.opr ≠ .none := by simp [ho]
  refine ⟨fun hdata => ?_, fun hnot => ?_⟩
  · refine ⟨_, blit 0 (rbBytes s s.rn) s.pkt,
      receive_ended ho (onSentinelEnd_data { s with bud := s.bud - 1 } hdata) rfl, ?_, fun i => ?_⟩
    · simp only [setBuffer, rbBytes_length]
      rfl
    · have hread := pktByte_setBuffer (rbBytes s s.rn) s i
      rw [rbBytes_length] at hread
      refine hread.trans (ite_congr rfl (fun hi => ?_) fun _ => rfl)
      exact rbBytes_getD s s.rn i hi
  · exact receive_kept ho (onSentinelEnd_not_data { s with bud := s.bud - 1 } hnot) hrun

/-! ## Addressed mode -/

/-- A header frame of another node (R163). -/
theorem onAddressedHeader_other (node total : Byte) (s : State) (h : node ≠ s.knode) :
    onAddressedHeader node total s = s := if_pos h

/-- A header frame with a total above 32 (R165). -/
theorem onAddressedHeader_tooLong (node total : Byte) (s : State) (h : node = s.knode) (ht : 32 < total.toNat) :
    onAddressedHeader node total s = s := by
  rw [onAddressedHeader, if_neg (not_not_intro h), if_pos ht]

/-- A header frame of an empty buffer (R164). -/
theorem onAddressedHeader_zero (node : Byte) (s : State) (h : node = s.knode) : onAddressedHeader node 0 s
    = finish .ok (clearWindow { s with aOpen := false, aT := 0, aN := 0, aNext := 1, plen := 0 }) := by
  rw [onAddressedHeader, if_neg (not_not_intro h), if_neg (by decide), if_pos (by decide)]

/-- A header frame with a total of 1 to 32 (R164). -/
theorem onAddressedHeader_opens (node total : Byte) (s : State) (h : node = s.knode) (h1 : 1 ≤ total.toNat)
    (h32 : total.toNat ≤ 32) : onAddressedHeader node total s
    = { s with aOpen := true, aNode := s.knode, aT := total.toNat, aN := 0, aNext := 1 } := by
  rw [onAddressedHeader, if_neg (not_not_intro h), if_neg (Nat.not_lt.2 h32), if_neg (Nat.ne_of_gt h1)]

/-- Which chunk frames are accepted (R166, R167). -/
theorem chunkAccepted_iff (m : Nat) (node : Byte) (s : State) : chunkAccepted m node s = true
    ↔ node = s.knode ∧ s.aOpen = true ∧ s.aNode = s.knode ∧ m = s.aNext := by
  simp only [chunkAccepted, Bool.and_eq_true, decide_eq_true_eq, and_assoc]

/-- An accepted chunk is stored at its base, and the next marker is awaited (R166). -/
def storeChunk (m : Nat) (c : List Byte) (s : State) : State :=
  { s with
    ab := blit (chunkBase m) c s.ab
    aN := chunkBase m + chunkCap m
    aNext := if m < 6 then m + 1 else s.aNext }

/-- A chunk frame that is not the awaited one (R163, R167). -/
theorem onAddressedChunk_unexpected (m : Nat) (node : Byte) (c : List Byte) (s : State)
    (h : ¬ (node = s.knode ∧ s.aOpen = true ∧ s.aNode = s.knode ∧ m = s.aNext)) : onAddressedChunk m node c s = s :=
  if_neg (mt (chunkAccepted_iff m node s).1 h)

/-- The awaited chunk frame, below the total (R166). -/
theorem onAddressedChunk_stores (m : Nat) (node : Byte) (c : List Byte) (s : State) (hc : c.length = chunkCap m)
    (h : chunkAccepted m node s = true) (hmore : chunkBase m + chunkCap m < s.aT) :
    onAddressedChunk m node c s = storeChunk m c s := by
  rw [onAddressedChunk, if_pos h, ← hc, List.take_length, hc]
  exact if_neg (Nat.not_le.2 hmore)

/-- The awaited chunk frame that reaches the total (R169). -/
theorem onAddressedChunk_completes (m : Nat) (node : Byte) (c : List Byte) (s : State) (hc : c.length = chunkCap m)
    (h : chunkAccepted m node s = true) (hlast : s.aT ≤ chunkBase m + chunkCap m) :
    onAddressedChunk m node c s = completeAddressed (storeChunk m c s) := by
  rw [onAddressedChunk, if_pos h, ← hc, List.take_length, hc]
  exact if_pos hlast

/-- A byte of `AB[0..n)`. -/
theorem abBytes_getD (s : State) (n i : Nat) (h : i < n) : (abBytes s n).getD i 0 = abByte s i := by
  rw [List.getD_eq_getElem?_getD, abBytes_getElem? s n i h, Option.getD_some]

/-- `AB` after a chunk is stored: its bytes from its base on, the old ones elsewhere (R166). -/
theorem abByte_storeChunk (m : Nat) (c : List Byte) (s : State) (hc : c.length = chunkCap m) (i : Nat) :
    abByte (storeChunk m c s) i = if chunkBase m ≤ i ∧ i < chunkBase m + chunkCap m then c.getD (i - chunkBase m) 0
      else abByte s i := by
  rw [← hc]
  exact abByte_blit (chunkBase m) c s i

/-- `PKT` after a completion: `AB[0..AT)`, and the old bytes beyond (R169). -/
theorem pktByte_completeAddressed (s : State) (i : Nat) :
    pktByte (completeAddressed s) i = if i < s.aT then abByte s i else pktByte s i := by
  have hread := pktByte_setBuffer (abBytes s s.aT) s i
  rw [abBytes_length] at hread
  exact hread.trans (ite_congr rfl (fun hi => abBytes_getD s s.aT i hi) fun _ => rfl)

/-- Settles O26: the four cases of the header rule. -/
theorem headerFrameOpens : Obligations.HeaderFrameOpens := by
  intro s node total ho
  have hrun : s.opr ≠ .none := by simp [ho]
  refine ⟨fun hk h1 h32 => ?_, fun hk h0 => ?_, fun hk ht => ?_, fun hk => ?_⟩
  · exact receive_kept ho (onAddressedHeader_opens node total { s with bud := s.bud - 1 } hk h1 h32) hrun
  · subst h0
    exact receive_ended ho (onAddressedHeader_zero node { s with bud := s.bud - 1 } hk) rfl
  · exact receive_ignored ho nofun (onAddressedHeader_tooLong node total { s with bud := s.bud - 1 } hk ht)
  · exact receive_ignored ho nofun (onAddressedHeader_other node total { s with bud := s.bud - 1 } hk)

/-- Settles O27: the chunk rule changes nothing for a chunk it does not await; a frame of class `ignored` has no rule, and
at the step it is classified so. -/
theorem unexpectedFramesIgnored : Obligations.UnexpectedFramesIgnored := by
  intro s ho
  refine ⟨fun m node c h1 h6 hnot => ?_, fun f hlen hf =>
    ⟨receive_ignored (rule := id) ho nofun rfl, fun rest hin => ?_⟩⟩
  · rw [exec_chunkInstr s m node c h1 h6]
    exact receive_ignored ho nofun (onAddressedChunk_unexpected m node c { s with bud := s.bud - 1 } hnot)
  · have hclass : classify s.cfg s.opr s.knode f = some (.frameAddressedIgnored f) := by
      rw [ho]
      exact congrArg some (classifyAddressed_ignored s.knode f hf)
    rw [step_frame s f rest _ hin hlen hclass]
    exact receive_ignored (rule := id) (s := { s with inbox := rest }) ho nofun rfl

/-- Settles O28: the awaited chunk is stored; at the total the reassembly completes from the state in which it is. -/
theorem expectedChunkStoredOrCompletes : Obligations.ExpectedChunkStoredOrCompletes := by
  intro s m c ho h1 h6 hc hopen hnode hnext
  have hacc : chunkAccepted m s.knode s = true := (chunkAccepted_iff m s.knode s).2 ⟨rfl, hopen, hnode, hnext.symm⟩
  have hrun : s.opr ≠ .none := by simp [ho]
  rw [exec_chunkInstr s m s.knode c h1 h6]
  refine ⟨fun hmore => ?_, fun hlast => ?_⟩
  · refine ⟨_, blit (chunkBase m) c s.ab,
      receive_kept ho (onAddressedChunk_stores m s.knode c { s with bud := s.bud - 1 } hc hacc hmore) hrun, rfl,
      fun i => ?_⟩
    rw [abByte_timeoutAtZero]
    exact abByte_storeChunk m c { s with bud := s.bud - 1 } hc i
  · refine ⟨_, blit (chunkBase m) c s.ab, blit 0 (abBytes (storeChunk m c s) s.aT) s.pkt,
      receive_ended ho (onAddressedChunk_completes m s.knode c { s with bud := s.bud - 1 } hc hacc hlast) rfl, ?_,
      fun i => ?_, fun i => ?_⟩
    · simp only [completeAddressed, setBuffer, abBytes_length]
      rfl
    · exact abByte_storeChunk m c { s with bud := s.bud - 1 } hc i
    · exact pktByte_completeAddressed (storeChunk m c { s with bud := s.bud - 1 }) i

end Sys2Proof.Proofs
end

section
/-! SUPPORT. The round trip of sentinel mode (spec/40_framer.md R173): what is accumulated after each frame `FRS` sent, what
a completed `UFS` delivers, and what `DEPAD` makes of it. -/

namespace Sys2Proof.Proofs

open Sys2Proof.Machine

/-! ## Runs of answers -/

/-- With budget left an attempt that did not complete leaves the command running (R151). -/
theorem timeoutAtZero_of_budget (s : State) (h : s.bud ≠ 0) : timeoutAtZero s = s := if_neg h

/-- The first of several steps. -/
theorem steps_succ {s t : State} (h : step s = .next t) (k : Nat) : steps (k + 1) s = steps k t := by
  simp only [steps, h]

/-- A received frame in a running `UFS` is the instruction its id makes it (R112). -/
theorem step_sentinel_frame {s : State} {p : Params} {f : Frame} {rest : List Event} {i : Instr} (hcfg : s.cfg = p)
    (ho : s.opr = .ufs) (hin : s.inbox = .rxAnswer (.frame f) :: rest) (hlen : f.len ≤ 8)
    (hi : classifySentinel p f = i) : step s = exec i { s with inbox := rest } :=
  step_frame s f rest i hin hlen (by rw [ho, hcfg]; exact congrArg some hi)

/-- A reassembly that ended with `OK` and delivered the first `n` bytes of a buffer, zero-padded (R158, R169, R301). -/
structure Delivered (bs : List Byte) (n : Nat) (rest : List Event) (t : State) : Prop where
  inbox_eq : t.inbox = rest
  ended : t.opr = .none
  idle : t.status.busy = false
  done : t.status.done = true
  code_ok : t.status.code = .ok
  plen_eq : t.plen = n
  bytes : ∀ i, i < n → pktByte t i = bs.getD i 0

/-! ## The frames of a buffer -/

/-- The port shows the eight bytes of a full frame as they are (R77). -/
theorem map_byte_eq_data (f : Frame) (h : f.data.length = 8) : (List.range 8).map f.byte = f.data := by
  refine List.ext_getElem (by simp [h]) fun i _ hi => ?_
  simp [Frame.byte, hi]

/-- Parameters, within their constraints, whose receive ids are the send ids (R173). -/
structure ReceivesOwn (p : Params) : Prop where
  wf : p.wf = true
  start : p.txSidStart = p.rxSidStart
  data : p.txSidData = p.rxSidData
  stop : p.txSidEnd = p.rxSidEnd

theorem ReceivesOwn.classify_start {p : Params} (h : ReceivesOwn p) :
    classifySentinel p ⟨p.txSidStart, zeroData⟩ = .frameSentinelStart := classifySentinel_start p _ h.start

theorem ReceivesOwn.classify_data {p : Params} (h : ReceivesOwn p) (bs : List Byte) (j : Nat) :
    classifySentinel p (dataFrame p bs j) = .frameSentinelData (dataFrame p bs j).data := by
  have hstart : (dataFrame p bs j).id ≠ p.rxSidStart := by
    rw [show (dataFrame p bs j).id = p.rxSidData from h.data]
    exact (rxSids_distinct p h.wf).1.symm
  rw [classifySentinel_data p _ hstart h.data, map_byte_eq_data _ (by simp [dataFrame])]

theorem ReceivesOwn.classify_end {p : Params} (h : ReceivesOwn p) :
    classifySentinel p ⟨p.txSidEnd, zeroData⟩ = .frameSentinelEnd := by
  obtain ⟨-, hse, hde⟩ := rxSids_distinct p h.wf
  exact classifySentinel_end p _ (h.stop ▸ hse.symm) (h.stop ▸ hde.symm) h.stop

/-- A byte of a data frame is a byte of the buffer, zero beyond its end (R141). -/
theorem dataFrame_getD (p : Params) (bs : List Byte) (j k : Nat) (hk : k < 8) :
    (dataFrame p bs j).data.getD k 0 = bs.getD (8 * j + k) 0 := by
  simp [dataFrame, hk]

/-! ## What is accumulated -/

/-- A running `UFS` that has received the start frame and `j` data frames of a buffer, with `events` to come and at
least `budget` left. -/
structure Accumulated (p : Params) (bs : List Byte) (j : Nat) (events : List Event) (budget : Nat) (u : State) :
    Prop where
  cfg_eq : u.cfg = p
  inbox_eq : u.inbox = events
  budget_le : budget ≤ u.bud
  running : u.opr = .ufs
  opened : u.sph ≠ .idle
  phase_data : 0 < j → u.sph = .data
  count : u.rn = 8 * j
  bytes : ∀ i, i < 8 * j → rbByte u i = bs.getD i 0

/-- A start frame, in any phase, begins the accumulation (R154). -/
theorem step_start_accumulated {p : Params} (hp : ReceivesOwn p) (bs : List Byte) (events : List Event) (budget : Nat)
    (r : State) (hcfg : r.cfg = p) (ho : r.opr = .ufs) (hb : budget + 2 ≤ r.bud)
    (hin : r.inbox = .rxAnswer (.frame ⟨p.txSidStart, zeroData⟩) :: events) :
    ∃ u, step r = .next u ∧ Accumulated p bs 0 events (budget + 1) u := by
  rw [step_sentinel_frame hcfg ho hin (Nat.le_refl 8) hp.classify_start,
    (startFrameRestartsOtherAbandons { r with inbox := events } ho).1]
  refine ⟨_, rfl, ?_⟩
  rw [timeoutAtZero_of_budget _ (by dsimp only; omega)]
  exact ⟨hcfg, rfl, by dsimp only; omega, ho, nofun, fun h => absurd h (Nat.lt_irrefl 0), rfl,
    fun i hi => absurd hi (Nat.not_lt_zero i)⟩

/-- Data frame `j` adds its eight bytes (R155). -/
theorem Accumulated.step_data {p : Params} (hp : ReceivesOwn p) {bs : List Byte} {j budget : Nat} {events : List Event}
    {u : State} (hu : Accumulated p bs j (.rxAnswer (.frame (dataFrame p bs j)) :: events) (budget + 2) u)
    (hroom : 8 * j + 8 ≤ 264) : ∃ v, step u = .next v ∧ Accumulated p bs (j + 1) events (budget + 1) v := by
  have hlen : (dataFrame p bs j).data.length = 8 := by simp [dataFrame]
  obtain ⟨t, rb', hexec, ht, hbytes⟩ := (dataFrameAccumulates { u with inbox := events } (dataFrame p bs j).data
    hu.running hlen).2.1 hu.opened (by rw [hu.count]; exact hroom)
  have hbudget := hu.budget_le
  rw [timeoutAtZero_of_budget _ (by dsimp only; omega)] at ht
  refine ⟨t, ?_, ?_⟩
  · rw [step_sentinel_frame hu.cfg_eq hu.running hu.inbox_eq (Nat.le_of_eq hlen) (hp.classify_data bs j), hexec]
  · subst ht
    refine ⟨hu.cfg_eq, rfl, by dsimp only; omega, hu.running, nofun, fun _ => rfl, ?_, fun i hi => (hbytes i).trans ?_⟩
    · dsimp only
      rw [hu.count, Nat.mul_succ]
    · dsimp only
      rw [hu.count]
      split
      · rw [dataFrame_getD p bs j _ (by omega), Nat.add_sub_cancel' (by omega)]
      · exact hu.bytes i (by omega)

/-- The data frames from number `j` on, one step each. -/
theorem Accumulated.steps_data {p : Params} (hp : ReceivesOwn p) {bs : List Byte} {events : List Event} (n : Nat) :
    ∀ {j : Nat} {u : State},
      Accumulated p bs j (deliveries ((List.range' j n).map (dataFrame p bs)) ++ events) (n + 1) u →
      8 * (j + n) ≤ 264 → ∃ v, Accumulated p bs (j + n) events 1 v ∧ ∀ k, steps (n + k) u = steps k v := by
  induction n with
  | zero => exact fun {j u} hu _ => ⟨u, hu, fun k => by rw [Nat.zero_add]⟩
  | succ n ih =>
    intro j u hu hroom
    obtain ⟨v, hstep, hv⟩ := Accumulated.step_data hp hu (by omega)
    obtain ⟨w, hw, hsteps⟩ := ih hv (by omega)
    refine ⟨w, by rwa [Nat.add_assoc, Nat.add_comm 1 n] at hw, fun k => ?_⟩
    rw [Nat.add_right_comm, steps_succ hstep, hsteps]

/-- The end frame delivers what was accumulated (R158), also with the last unit of budget (R171). -/
theorem Accumulated.step_end {p : Params} (hp : ReceivesOwn p) {bs : List Byte} {j budget : Nat} {events : List Event}
    {u : State} (hu : Accumulated p bs j (.rxAnswer (.frame ⟨p.txSidEnd, zeroData⟩) :: events) budget u) (hj : 0 < j) :
    ∃ t, step u = .next t ∧ Delivered bs (8 * j) events t := by
  obtain ⟨t, pkt', hexec, ht, hbytes⟩ := (endFrameCompletes { u with inbox := events } hu.running).1 (hu.phase_data hj)
  refine ⟨t, ?_, ?_⟩
  · rw [step_sentinel_frame hu.cfg_eq hu.running hu.inbox_eq (Nat.le_refl 8) hp.classify_end, hexec]
  · subst ht
    refine ⟨rfl, rfl, rfl, rfl, rfl, hu.count, fun i hi => (hbytes i).trans ?_⟩
    dsimp only
    rw [if_pos (by rw [hu.count]; exact hi)]
    exact hu.bytes i hi

/-! ## The round trip -/

/-- The sentinel frames of a buffer, received in order by a running `UFS`, deliver it zero-padded to a multiple of 8
(R173). -/
theorem sentinelFrames_delivered {p : Params} (hp : ReceivesOwn p) (bs : List Byte) (h1 : 1 ≤ bs.length)
    (h264 : bs.length ≤ 264) (r : State) (rest : List Event) (hcfg : r.cfg = p) (ho : r.opr = .ufs)
    (hb : (bs.length + 7) / 8 + 2 ≤ r.bud) (hin : r.inbox = deliveries (sentinelFrames p bs) ++ rest) :
    ∃ t, steps (sentinelFrames p bs).length r = some t ∧ Delivered bs (8 * ((bs.length + 7) / 8)) rest t := by
  have hlen : (sentinelFrames p bs).length = (bs.length + 7) / 8 + 1 + 1 := by simp [sentinelFrames]
  rw [hlen]
  generalize hn : (bs.length + 7) / 8 = n at hb ⊢
  have hframes : deliveries (sentinelFrames p bs) ++ rest = .rxAnswer (.frame ⟨p.txSidStart, zeroData⟩) ::
      (deliveries ((List.range' 0 n).map (dataFrame p bs)) ++ .rxAnswer (.frame ⟨p.txSidEnd, zeroData⟩) :: rest) := by
    simp [deliveries, sentinelFrames, hn, List.range_eq_range']
  obtain ⟨u, hstart, hu⟩ := step_start_accumulated hp bs _ n r hcfg ho hb (hin.trans hframes)
  obtain ⟨v, hv, hdata⟩ := Accumulated.steps_data hp n hu (by omega)
  rw [Nat.zero_add] at hv
  obtain ⟨t, hend, ht⟩ := hv.step_end hp (by omega)
  exact ⟨t, by rw [steps_succ hstart, hdata, steps_succ hend, steps], ht⟩

/-- `DEPAD` gives a delivered packet its length: the padding is zero and shorter than 8 bytes (R175). -/
theorem depad_delivered (a : Byte) (body : List Byte) (hbody : body.length ≤ 253) (n : Nat) (rest : List Event)
    (t : State) (ht : Delivered (packetBytes a body) n rest t) (hle : body.length + 6 ≤ n) (hlt : n < body.length + 6 + 8) :
    ∃ u, exec .depad t = .next u ∧ u.status.code = .ok ∧ u.plen = body.length + 6 := by
  have hlength : (pktByte t 3).toNat + 4 = body.length + 6 := by
    rw [ht.bytes 3 (by omega), packetBytes_getD]
    simp
    omega
  have hpad : ∀ i, body.length + 6 ≤ i → i < n → pktByte t i = 0 := fun i hi hin => by
    rw [ht.bytes i hin, List.getD_eq_default _ _ (by rw [packetBytes_length]; exact hi)]
  obtain ⟨hdrops, hkeeps⟩ := depadDropsOnlyPadding.2 t ht.idle
  rw [hlength, ht.plen_eq] at hdrops hkeeps
  by_cases hmore : body.length + 6 < n
  · exact ⟨_, hdrops ⟨by omega, hmore, by omega, hpad⟩, rfl, rfl⟩
  · exact ⟨_, hkeeps fun hd => hmore hd.2.1, rfl, ht.plen_eq.trans (by omega)⟩

/-- Settles O34: `FRS` sends the sentinel frames of the buffer, `sentinelFrames_delivered` brings them back, and
`depad_delivered` removes the padding of a packet. -/
theorem sentinelRoundTrip : Obligations.SentinelRoundTrip := by
  intro s s1 r fs rest hwf hcfg hstart hdata hstop hidle h1 h264 hsent htx ho hb hin
  have hfs : fs = sentinelFrames s.cfg (pktBytes s 0 s.plen) := by
    rw [exec_frs_sends s hidle (by omega)] at hsent
    cases hsent
    exact (List.append_cancel_left htx).symm
  subst hfs
  obtain ⟨t, hsteps, ht⟩ := sentinelFrames_delivered ⟨hwf, hstart, hdata, hstop⟩ (pktBytes s 0 s.plen)
    (by rwa [pktBytes_length]) (by rwa [pktBytes_length]) r rest hcfg ho (by rwa [pktBytes_length]) hin
  rw [pktBytes_length] at ht
  have hbytes : ∀ i, i < t.plen → pktByte t i = if i < s.plen then pktByte s i else 0 := fun i hi => by
    rw [ht.bytes i (ht.plen_eq ▸ hi), pktBytes_getD]
  have hplen := ht.plen_eq
  refine ⟨t, hsteps, ht.inbox_eq, ht.ended, ht.done, ht.code_ok, hplen, fun i hi => ?_, fun i hi hit => ?_,
    fun a body hbody hpacket => ?_⟩
  · rw [hbytes i (by omega), if_pos hi]
  · rw [hbytes i hit, if_neg (Nat.not_lt.2 hi)]
  · have hlen : s.plen = body.length + 6 := by rw [← pktBytes_length s 0 s.plen, hpacket, packetBytes_length]
    rw [hpacket] at ht
    rw [hlen]
    exact depad_delivered a body hbody _ rest t ht (by omega) (by omega)

end Sys2Proof.Proofs
end

section
/-! SUPPORT. The round trip of addressed mode (spec/40_framer.md R174): what is reassembled after each frame `FRA` sent,
whatever ignored frames stand between, and what a completed `UFA` delivers. -/

namespace Sys2Proof.Proofs

open Sys2Proof.Machine

/-! ## The frames of a buffer -/

/-- Each chunk begins where the one before it ends, and the last ends at 32 (R116). -/
theorem chunkBase_succ (m : Nat) (h1 : 1 ≤ m) (h6 : m ≤ 6) : chunkBase (m + 1) = chunkBase m + chunkCap m := by
  obtain ⟨-, hbelow, hlast⟩ := chunkBase_add_chunkCap m h1 h6
  rcases Nat.lt_or_eq_of_le h6 with hlt | heq
  · exact hbelow hlt
  · rw [hlast heq, heq]
    rfl

/-- The header frame of a buffer (R115). -/
def headerFrame (p : Params) (k : Byte) (bs : List Byte) : Frame :=
  ⟨p.txAid, addressedData k 0 [BitVec.ofNat 8 bs.length]⟩

/-- The chunk frames of a buffer from marker `m` on: those whose base is below the length (R116, R145). -/
def chunkFramesFrom (p : Params) (k : Byte) (bs : List Byte) (m : Nat) : List Frame :=
  ((List.range' m (7 - m)).takeWhile (fun j => decide (chunkBase j < bs.length))).map (chunkFrame p k bs)

theorem addressedFrames_eq (p : Params) (k : Byte) (bs : List Byte) :
    addressedFrames p k bs = headerFrame p k bs :: chunkFramesFrom p k bs 1 := rfl

/-- A chunk that carries bytes comes before those of the markers above its own. -/
theorem chunkFramesFrom_cons (p : Params) (k : Byte) (bs : List Byte) (m : Nat) (h6 : m ≤ 6)
    (h : chunkBase m < bs.length) :
    chunkFramesFrom p k bs m = chunkFrame p k bs m :: chunkFramesFrom p k bs (m + 1) := by
  have hsucc : 7 - m = (7 - (m + 1)) + 1 := by omega
  rw [chunkFramesFrom, hsucc, List.range'_succ, List.takeWhile_cons_of_pos (by simpa using h)]
  rfl

/-- A marker whose base the buffer does not reach has no frame, and none after it has. -/
theorem chunkFramesFrom_nil (p : Params) (k : Byte) (bs : List Byte) (m : Nat) (h : bs.length ≤ chunkBase m) :
    chunkFramesFrom p k bs m = [] := by
  rw [chunkFramesFrom]
  cases 7 - m with
  | zero => rfl
  | succ n => rw [List.range'_succ, List.takeWhile_cons_of_neg (by simpa using h), List.map_nil]

/-- The bytes by which a header frame is classified, and its total (R115, R118). -/
theorem headerFrame_bytes (p : Params) (k : Byte) (bs : List Byte) : (headerFrame p k bs).len = 8
    ∧ (headerFrame p k bs).byte 0 = k ∧ (headerFrame p k bs).byte 1 = BitVec.ofNat 8 bs.length
    ∧ (headerFrame p k bs).byte 7 = 0 := ⟨rfl, rfl, rfl, rfl⟩

/-- The bytes by which a chunk frame is classified (R116, R118). -/
theorem chunkFrame_bytes (p : Params) (k : Byte) (bs : List Byte) (m : Nat) : (chunkFrame p k bs m).len = 8
    ∧ (chunkFrame p k bs m).byte 0 = k ∧ (chunkFrame p k bs m).byte 7 = BitVec.ofNat 8 m := by
  rw [chunkFrame_eq]
  exact ⟨rfl, rfl, rfl⟩

/-- The chunk of a chunk frame is the buffer's bytes from its base on, zero beyond the buffer's end (R116). -/
theorem chunkFrame_chunk_getD (p : Params) (k : Byte) (bs : List Byte) (m i : Nat) (hi : i < chunkCap m) :
    ((chunkFrame p k bs m).chunk (chunkCap m)).getD i 0 = bs.getD (chunkBase m + i) 0 := by
  have h6 := chunkCap_le_six m
  have hbyte : ((chunkFrame p k bs m).chunk (chunkCap m)).getD i 0 = (chunkFrame p k bs m).byte (i + 1) := by
    simp [Frame.chunk, hi, Nat.add_comm]
  rw [hbyte, chunkFrame_eq, Frame.byte, List.singleton_append, List.cons_append, List.getD_cons_succ,
    List.getD_append _ _ _ _ (by simp; omega)]
  simp [hi, show i < 6 by omega]

theorem chunk_length (f : Frame) (n : Nat) : (f.chunk n).length = n := by simp [Frame.chunk]

/-! ## What is reassembled -/

/-- A running `UFA` for node `k` with `events` to come and at least `budget` left. -/
structure Receiving (k : Byte) (events : List Event) (budget : Nat) (u : State) : Prop where
  inbox_eq : u.inbox = events
  budget_le : budget ≤ u.bud
  running : u.opr = .ufa
  node : u.knode = k

/-- An open reassembly of a buffer that awaits the chunk with marker `m` and has stored the bytes below its base. -/
structure Reassembled (k : Byte) (bs : List Byte) (m : Nat) (u : State) : Prop where
  opened : u.aOpen = true
  ofNode : u.aNode = k
  next : u.aNext = m
  total : u.aT = bs.length
  bytes : ∀ i, i < chunkBase m → abByte u i = bs.getD i 0

/-- What a reassembly still has to receive of a buffer: every frame, or, with the chunks below marker `m` in place, the
chunk frames from `m` on. -/
inductive Awaits (p : Params) (k : Byte) (bs : List Byte) : List Frame → State → Prop
  | header (u : State) : Awaits p k bs (addressedFrames p k bs) u
  | chunk (m : Nat) (u : State) (h1 : 1 ≤ m) (h6 : m ≤ 6) (hbase : chunkBase m < bs.length)
      (hu : Reassembled k bs m u) : Awaits p k bs (chunkFramesFrom p k bs m) u

/-- An open reassembly of the target node awaits its next marker (R166). -/
theorem Reassembled.awaitedMarker_eq {k : Byte} {bs : List Byte} {m : Nat} {u : State} (hu : Reassembled k bs m u)
    (hk : u.knode = k) : awaitedMarker u = some m := by
  rw [awaitedMarker, if_pos ⟨hu.opened, hu.ofNode.trans hk.symm⟩, hu.next]

/-- What is still to be received does not depend on the budget and the events to come. -/
theorem Awaits.of_spent {p : Params} {k : Byte} {bs : List Byte} {fs : List Frame} {u : State} (h : Awaits p k bs fs u)
    (b : Nat) (events : List Event) : Awaits p k bs fs { u with inbox := events, bud := b } := by
  cases h with
  | header => exact .header _
  | chunk m _ h1 h6 hbase hu =>
    exact .chunk m _ h1 h6 hbase ⟨hu.opened, hu.ofNode, hu.next, hu.total, hu.bytes⟩

/-- Something is still to be received until the buffer is delivered. -/
theorem Awaits.exists_cons {p : Params} {k : Byte} {bs : List Byte} {fs : List Frame} {u : State}
    (h : Awaits p k bs fs u) : ∃ f fs', fs = f :: fs' := by
  cases h with
  | header => exact ⟨_, _, rfl⟩
  | chunk m _ h1 h6 hbase _ => exact ⟨_, _, chunkFramesFrom_cons p k bs m h6 hbase⟩

/-! ## One received frame -/

/-- A received frame in a running `UFA` is the instruction its length, node and marker make it (R118). -/
theorem Receiving.step_eq {k : Byte} {f : Frame} {events : List Event} {budget : Nat} {u : State} {i : Instr}
    (hr : Receiving k (.rxAnswer (.frame f) :: events) budget u) (hlen : f.len ≤ 8) (hi : classifyAddressed k f = i) :
    step u = exec i { u with inbox := events } :=
  step_frame u f events i hr.inbox_eq hlen (by rw [hr.running, hr.node]; exact congrArg some hi)

/-- An ignored frame costs its unit and nothing else (R163, R165, R167). -/
theorem Receiving.step_ignored {k : Byte} {f : Frame} {events : List Event} {budget : Nat} {u : State}
    (hr : Receiving k (.rxAnswer (.frame f) :: events) (budget + 2) u) (hlen : f.len ≤ 8)
    (hig : ignoredWhile k (awaitedMarker u) f = true) :
    step u = .next { u with inbox := events, bud := u.bud - 1 } := by
  have hbudget := hr.budget_le
  have hnode := hr.node
  subst hnode
  rw [hr.step_eq hlen rfl, exec_ignoredWhile { u with inbox := events } f hr.running hig,
    attempt_of_running id { u with inbox := events } _ rfl (by simp [hr.running])]
  exact congrArg Host.Outcome.next (timeoutAtZero_of_budget _ (by dsimp only [id]; omega))

/-- The header frame of an empty buffer delivers it (R164). -/
theorem Receiving.step_header_empty {p : Params} {k : Byte} {bs : List Byte} {events : List Event} {budget : Nat}
    {u : State} (hr : Receiving k (.rxAnswer (.frame (headerFrame p k bs)) :: events) budget u) (h0 : bs.length = 0) :
    ∃ t, step u = .next t ∧ Delivered bs bs.length events t := by
  obtain ⟨hlen, hnode, htotal, hmarker⟩ := headerFrame_bytes p k bs
  rw [hr.step_eq (Nat.le_of_eq hlen) (classifyAddressed_header k _ hlen hnode hmarker), htotal, h0]
  exact ⟨_, (headerFrameOpens { u with inbox := events } k 0 hr.running).2.1 hr.node.symm rfl,
    ⟨rfl, rfl, rfl, rfl, rfl, rfl, fun i hi => absurd hi (Nat.not_lt_zero i)⟩⟩

/-- The header frame of a buffer of 1 to 32 bytes opens its reassembly (R164). -/
theorem Receiving.step_header {p : Params} {k : Byte} {bs : List Byte} {events : List Event} {budget : Nat} {u : State}
    (hr : Receiving k (.rxAnswer (.frame (headerFrame p k bs)) :: events) (budget + 2) u) (h1 : 1 ≤ bs.length)
    (h32 : bs.length ≤ 32) :
    ∃ v, step u = .next v ∧ Receiving k events (budget + 1) v ∧ Reassembled k bs 1 v := by
  obtain ⟨hlen, hnode, htotal, hmarker⟩ := headerFrame_bytes p k bs
  have hnat : (BitVec.ofNat 8 bs.length).toNat = bs.length := by
    rw [BitVec.toNat_ofNat, Nat.mod_eq_of_lt (by omega)]
  have hbudget := hr.budget_le
  rw [hr.step_eq (Nat.le_of_eq hlen) (classifyAddressed_header k _ hlen hnode hmarker), htotal,
    (headerFrameOpens { u with inbox := events } k _ hr.running).1 hr.node.symm (by omega) (by omega),
    timeoutAtZero_of_budget _ (by dsimp only; omega)]
  exact ⟨_, rfl, ⟨rfl, by dsimp only; omega, hr.running, hr.node⟩,
    ⟨rfl, hr.node, rfl, hnat, fun i hi => absurd hi (Nat.not_lt_zero i)⟩⟩

/-- The awaited chunk frame is the chunk instruction of its marker (R118). -/
theorem Receiving.step_chunk_eq {p : Params} {k : Byte} {bs : List Byte} {m : Nat} {events : List Event} {budget : Nat}
    {u : State} (hr : Receiving k (.rxAnswer (.frame (chunkFrame p k bs m)) :: events) budget u) (h1 : 1 ≤ m)
    (h6 : m ≤ 6) :
    step u = exec (chunkInstr m k ((chunkFrame p k bs m).chunk (chunkCap m))) { u with inbox := events } := by
  obtain ⟨hlen, hnode, hmarker⟩ := chunkFrame_bytes p k bs m
  refine hr.step_eq (Nat.le_of_eq hlen) (classifyAddressed_chunk k _ m h1 h6 hlen hnode ?_)
  rw [hmarker, BitVec.toNat_ofNat, Nat.mod_eq_of_lt (by omega)]

/-- The bytes that are there once the chunk with marker `m` is stored above those below its base. -/
theorem Reassembled.bytes_stored {p : Params} {k : Byte} {bs : List Byte} {m : Nat} {u : State}
    (hu : Reassembled k bs m u) (t : State)
    (ht : ∀ i, abByte t i = if chunkBase m ≤ i ∧ i < chunkBase m + chunkCap m
      then ((chunkFrame p k bs m).chunk (chunkCap m)).getD (i - chunkBase m) 0 else abByte u i)
    (i : Nat) (hi : i < chunkBase m + chunkCap m) : abByte t i = bs.getD i 0 := by
  rw [ht i]
  split
  · rw [chunkFrame_chunk_getD p k bs m _ (by omega), Nat.add_sub_cancel' (by omega)]
  · exact hu.bytes i (by omega)

/-- A chunk frame below the total makes the next marker the awaited one (R166). -/
theorem Receiving.step_chunk {p : Params} {k : Byte} {bs : List Byte} {m : Nat} {events : List Event} {budget : Nat}
    {u : State} (hr : Receiving k (.rxAnswer (.frame (chunkFrame p k bs m)) :: events) (budget + 2) u)
    (hu : Reassembled k bs m u) (h1 : 1 ≤ m) (h6 : m < 6) (hmore : chunkBase (m + 1) < bs.length) :
    ∃ v, step u = .next v ∧ Receiving k events (budget + 1) v ∧ Reassembled k bs (m + 1) v := by
  have hbase := chunkBase_succ m h1 (by omega)
  have hbudget := hr.budget_le
  obtain ⟨t, ab', hexec, ht, hbytes⟩ := (expectedChunkStoredOrCompletes { u with inbox := events } m
    ((chunkFrame p k bs m).chunk (chunkCap m)) hr.running h1 (by omega) (chunk_length _ _) hu.opened
    (hu.ofNode.trans hr.node.symm) hu.next).1
    (by rw [← hbase, hu.total]; exact hmore)
  rw [timeoutAtZero_of_budget _ (by dsimp only; omega)] at ht
  refine ⟨t, (hr.step_chunk_eq h1 (by omega)).trans (hr.node ▸ hexec), ?_, ?_⟩
  · subst ht
    exact ⟨rfl, by dsimp only; omega, hr.running, hr.node⟩
  · have hstored := hu.bytes_stored t hbytes
    subst ht
    exact ⟨hu.opened, hu.ofNode, if_pos h6, hu.total, fun i hi => hstored i (hbase ▸ hi)⟩

/-- The chunk frame that reaches the total delivers the buffer (R169), also with the last unit of budget (R171). -/
theorem Receiving.step_lastChunk {p : Params} {k : Byte} {bs : List Byte} {m : Nat} {events : List Event} {budget : Nat}
    {u : State} (hr : Receiving k (.rxAnswer (.frame (chunkFrame p k bs m)) :: events) budget u)
    (hu : Reassembled k bs m u) (h1 : 1 ≤ m) (h6 : m ≤ 6) (hlast : bs.length ≤ chunkBase (m + 1)) :
    ∃ t, step u = .next t ∧ Delivered bs bs.length events t := by
  rw [chunkBase_succ m h1 h6] at hlast
  obtain ⟨t, ab', pkt', hexec, ht, habytes, hpbytes⟩ := (expectedChunkStoredOrCompletes { u with inbox := events } m
    ((chunkFrame p k bs m).chunk (chunkCap m)) hr.running h1 h6 (chunk_length _ _) hu.opened
    (hu.ofNode.trans hr.node.symm) hu.next).2
    (by rw [hu.total]; exact hlast)
  refine ⟨t, (hr.step_chunk_eq h1 h6).trans (hr.node ▸ hexec), ?_⟩
  have hbytes : ∀ i, i < bs.length → pktByte t i = bs.getD i 0 := fun i hi => by
    rw [hpbytes i, if_pos (by rw [hu.total]; exact hi)]
    exact hu.bytes_stored t habytes i (by omega)
  subst ht
  exact ⟨rfl, rfl, rfl, rfl, rfl, hu.total, hbytes⟩

/-! ## The round trip -/

/-- The next frame sent, received: the last one delivers the buffer, every other makes the marker after its own the
awaited one (R164, R166, R169). -/
theorem Awaits.step_sent {p : Params} {k : Byte} {bs : List Byte} {f : Frame} {fs sent : List Frame}
    {events : List Event} {budget : Nat} {u : State} (h : Awaits p k bs sent u) (hsent : sent = f :: fs)
    (h32 : bs.length ≤ 32) (hr : Receiving k (.rxAnswer (.frame f) :: events) (budget + 1) u)
    (hb : fs ≠ [] → budget ≠ 0) :
    (fs = [] ∧ ∃ t, step u = .next t ∧ Delivered bs bs.length events t)
    ∨ ∃ v, step u = .next v ∧ Receiving k events budget v ∧ Awaits p k bs fs v
        ∧ awaitedMarker v = some ((f.byte 7).toNat + 1) := by
  cases h with
  | header =>
    rw [addressedFrames_eq] at hsent
    obtain ⟨rfl, rfl⟩ := List.cons.inj hsent
    by_cases h0 : bs.length = 0
    · exact .inl ⟨chunkFramesFrom_nil p k bs 1 (Nat.le_of_eq h0), hr.step_header_empty h0⟩
    · have hfirst : chunkBase 1 < bs.length := Nat.pos_of_ne_zero h0
      obtain ⟨b, rfl⟩ := Nat.exists_eq_succ_of_ne_zero
        (hb (by rw [chunkFramesFrom_cons p k bs 1 (by omega) hfirst]; exact List.cons_ne_nil _ _))
      obtain ⟨v, hstep, hv, hopen⟩ := hr.step_header hfirst h32
      exact .inr ⟨v, hstep, hv, .chunk 1 v (by omega) (by omega) hfirst hopen, hopen.awaitedMarker_eq hv.node⟩
  | chunk m _ h1 h6 hbase hu =>
    rw [chunkFramesFrom_cons p k bs m h6 hbase] at hsent
    obtain ⟨rfl, rfl⟩ := List.cons.inj hsent
    by_cases hmore : chunkBase (m + 1) < bs.length
    · have hlt : m < 6 := by
        rcases Nat.lt_or_eq_of_le h6 with hlt | rfl
        · exact hlt
        · exact absurd (hmore.trans_le h32) (by decide)
      obtain ⟨b, rfl⟩ := Nat.exists_eq_succ_of_ne_zero
        (hb (by rw [chunkFramesFrom_cons p k bs (m + 1) hlt hmore]; exact List.cons_ne_nil _ _))
      obtain ⟨v, hstep, hv, hopen⟩ := hr.step_chunk hu h1 hlt hmore
      have hmarker : ((chunkFrame p k bs m).byte 7).toNat = m := by
        rw [(chunkFrame_bytes p k bs m).2.2, BitVec.toNat_ofNat, Nat.mod_eq_of_lt (by omega)]
      refine .inr ⟨v, hstep, hv, .chunk (m + 1) v (by omega) hlt hmore hopen, ?_⟩
      rw [hmarker, hopen.awaitedMarker_eq hv.node]
    · have hlast := Nat.le_of_not_lt hmore
      exact .inl ⟨chunkFramesFrom_nil p k bs (m + 1) hlast, hr.step_lastChunk hu h1 h6 hlast⟩

/-- A received frame is the next one sent, or an ignored one before it (R174). -/
theorem amongIgnored_cons_iff (k : Byte) (next : Option Nat) (f g : Frame) (fs gs : List Frame) :
    amongIgnored k next (f :: fs) (g :: gs) = true
    ↔ (g = f ∧ amongIgnored k (some ((f.byte 7).toNat + 1)) fs gs = true)
      ∨ (ignoredWhile k next g = true ∧ amongIgnored k next (f :: fs) gs = true) := by
  simp only [amongIgnored, Bool.or_eq_true, Bool.and_eq_true, decide_eq_true_eq]

/-- No frame follows the last one sent (R174). -/
theorem amongIgnored_nil_sent (k : Byte) (next : Option Nat) (gs : List Frame) (h : amongIgnored k next [] gs = true) :
    gs = [] := by
  cases gs with
  | nil => rfl
  | cons g gs => cases h

/-- As long as a frame is to be received there are frames to come. -/
theorem amongIgnored_ne_nil (k : Byte) (next : Option Nat) (fs gs : List Frame) (hfs : fs ≠ [])
    (h : amongIgnored k next fs gs = true) : gs ≠ [] := by
  rintro rfl
  exact hfs (by simpa [amongIgnored] using h)

/-- What a reassembly still has to receive, with ignored frames before and between, delivers the buffer (R174). -/
theorem Awaits.delivered {p : Params} {k : Byte} {bs : List Byte} (h32 : bs.length ≤ 32) (rest : List Event)
    (as : List Frame) : ∀ {sent : List Frame} {u : State}, Awaits p k bs sent u →
      Receiving k (deliveries as ++ rest) as.length u → amongIgnored k (awaitedMarker u) sent as = true →
      (∀ f ∈ as, f.len ≤ 8) → ∃ t, steps as.length u = some t ∧ Delivered bs bs.length rest t := by
  induction as with
  | nil =>
    intro sent u h _ hamong _
    obtain ⟨f, fs, rfl⟩ := h.exists_cons
    exact absurd rfl (amongIgnored_ne_nil _ _ _ _ (List.cons_ne_nil f fs) hamong)
  | cons g gs ih =>
    intro sent u h hr hamong hlen
    obtain ⟨f, fs, hsent⟩ := h.exists_cons
    have hlater : ∀ f ∈ gs, f.len ≤ 8 := fun f hf => hlen f (List.mem_cons_of_mem g hf)
    rw [hsent, amongIgnored_cons_iff] at hamong
    rcases hamong with ⟨rfl, hamong⟩ | ⟨hig, hamong⟩
    · have hbudget : fs ≠ [] → gs.length ≠ 0 := fun hfs =>
        mt List.length_eq_zero_iff.1 (amongIgnored_ne_nil _ _ _ _ hfs hamong)
      rcases h.step_sent hsent h32 hr hbudget with ⟨hlast, t, hstep, ht⟩ | ⟨v, hstep, hv, hawaits, hmarker⟩
      · rw [hlast] at hamong
        have hgs := amongIgnored_nil_sent _ _ _ hamong
        subst hgs
        exact ⟨t, steps_succ hstep 0, ht⟩
      · obtain ⟨t, hsteps, ht⟩ := ih hawaits hv (hmarker ▸ hamong) hlater
        exact ⟨t, (steps_succ hstep _).trans hsteps, ht⟩
    · obtain ⟨b, hb⟩ := Nat.exists_eq_succ_of_ne_zero
        (mt List.length_eq_zero_iff.1 (amongIgnored_ne_nil _ _ _ _ (List.cons_ne_nil f fs) hamong))
      have hcount := hr.budget_le
      rw [List.length_cons, hb] at hcount
      have hstep := Receiving.step_ignored ⟨hr.inbox_eq, hcount, hr.running, hr.node⟩ (hlen g List.mem_cons_self) hig
      have hv : Receiving k (deliveries gs ++ rest) gs.length
          { u with inbox := deliveries gs ++ rest, bud := u.bud - 1 } :=
        ⟨rfl, by dsimp only; omega, hr.running, hr.node⟩
      obtain ⟨t, hsteps, ht⟩ := ih (h.of_spent (u.bud - 1) (deliveries gs ++ rest)) hv (hsent ▸ hamong) hlater
      exact ⟨t, (steps_succ hstep _).trans hsteps, ht⟩

/-- Settles O35: `FRA` sends the addressed frames of the buffer, and a reassembly that awaits them all delivers it. -/
theorem addressedRoundTrip : Obligations.AddressedRoundTrip := by
  intro s s1 r k fs as rest hidle h32 hsent htx ho hk hb hamong hlen hin
  have hfs : fs = addressedFrames s.cfg k (pktBytes s 0 s.plen) := by
    rw [exec_fra_sends s k hidle h32] at hsent
    cases hsent
    exact (List.append_cancel_left htx).symm
  subst hfs
  obtain ⟨t, hsteps, ht⟩ :=
    Awaits.delivered (by rwa [pktBytes_length]) rest as (.header r) ⟨hin, hb, ho, hk⟩ hamong hlen
  rw [pktBytes_length] at ht
  refine ⟨t, hsteps, ht.inbox_eq, ht.ended, ht.done, ht.code_ok, ht.plen_eq, fun i hi => ?_⟩
  rw [ht.bytes i hi, pktBytes_getD, if_pos hi]

end Sys2Proof.Proofs
end

section
/-! SUPPORT. The codec (spec/41_codec.md): which bytes are an SP packet (R190, R191, R194), what `BLD` builds (R192), the
checks of `VAL` in their order (R195 to R200), and the statements about them. -/

namespace Sys2Proof.Proofs

open Sys2Proof.Machine

/-! ## The bytes of a packet -/

/-- What the decoder asks of the bytes of a packet: start and productId, then address, length byte `len` and as many more
bytes as it says, of which the last two are checksum and terminator (R190, R191, R194). -/
theorem decodePacket_eq_instr_iff (bs : List Byte) (i : Instr) : decodePacket bs = .instr i ↔
    ∃ addr len rest, bs = 0xEA :: 0xD1 :: addr :: len :: rest ∧ 2 ≤ len.toNat ∧ rest.length = len.toNat
      ∧ rest.getD (len.toNat - 2) 0 = xor8 (len :: rest.take (len.toNat - 2)) ∧ rest.getD (len.toNat - 1) 0 = 0xF5
      ∧ i = .packetSp addr (rest.take (len.toNat - 2)) := by
  constructor
  · intro h
    unfold decodePacket at h
    split at h
    · cases h
    split_ifs at h with hstart
    split at h
    · cases h
    split_ifs at h with hproduct
    split at h
    · cases h
    · cases h
    next addr len rest =>
      dsimp only at h
      split_ifs at h with hlength hsum hterm
      rw [not_ne_iff] at hstart hproduct hsum hterm
      rw [not_or, not_lt, not_ne_iff] at hlength
      cases h
      exact ⟨addr, len, rest, by rw [hstart, hproduct], hlength.1, hlength.2, hsum, hterm, rfl⟩
  · rintro ⟨addr, len, rest, rfl, hlow, hlength, hsum, hterm, rfl⟩
    simp only [decodePacket, ne_eq, not_true_eq_false, if_false, hlength, hsum, hterm, or_false,
      if_neg (Nat.not_lt.2 hlow)]

/-- The length byte of a body a packet can hold (R191). -/
theorem lengthByte_toNat (n : Nat) (h : n ≤ 253) : (BitVec.ofNat 8 (n + 2)).toNat = n + 2 := by
  rw [BitVec.toNat_ofNat]
  omega

/-- A list is its elements but the last two, and those. -/
theorem eq_take_append_last_two (l : List Byte) (n : Nat) (h : l.length = n + 2) :
    l = l.take n ++ [l.getD n 0, l.getD (n + 1) 0] := by
  have hlast : l.drop n = [l.getD n 0, l.getD (n + 1) 0] := by
    rw [List.drop_eq_getElem_cons (by omega), List.drop_eq_getElem_cons (by omega), List.drop_of_length_le (by omega),
      List.getD_eq_getElem l 0 (by omega), List.getD_eq_getElem l 0 (by omega)]
  rw [← hlast, List.take_append_drop]

/-- The decoder reads back the packet of an address and a body (R190). -/
theorem decodePacket_packetBytes (a : Byte) (body : List Byte) (h : body.length ≤ 253) :
    decodePacket (packetBytes a body) = .instr (.packetSp a body) := by
  refine (decodePacket_eq_instr_iff _ _).2 ⟨a, BitVec.ofNat 8 (body.length + 2),
    body ++ [xor8 (BitVec.ofNat 8 (body.length + 2) :: body), 0xF5], by simp [packetBytes], ?_⟩
  rw [lengthByte_toNat _ h]
  simp [List.getD_eq_getElem?_getD]

/-- What the decoder reads as a packet are the bytes of that packet, its body short enough for the length byte (R190,
R191). -/
theorem eq_packetBytes_of_decodePacket (bs : List Byte) (i : Instr) (h : decodePacket bs = .instr i) :
    ∃ a body, body.length ≤ 253 ∧ i = .packetSp a body ∧ bs = packetBytes a body := by
  obtain ⟨a, len, rest, rfl, hlow, hlength, hsum, hterm, rfl⟩ := (decodePacket_eq_instr_iff bs i).1 h
  obtain ⟨n, hn⟩ := Nat.exists_eq_add_of_le' hlow
  have hmax := len.isLt
  rw [hn] at hlength
  have hbody : (rest.take n).length = n := by rw [List.length_take]; omega
  have hlen : BitVec.ofNat 8 (n + 2) = len := by rw [← hn, BitVec.ofNat_toNat, BitVec.setWidth_eq]
  simp only [hn, Nat.add_sub_cancel, show n + 2 - 1 = n + 1 from rfl] at hsum hterm ⊢
  refine ⟨a, rest.take n, by omega, rfl, ?_⟩
  have hrest := eq_take_append_last_two rest n hlength
  rw [hsum, hterm] at hrest
  simpa [packetBytes, hbody, hlen] using hrest

/-- Settles O5: the decoder answers with a packet for its bytes and for no others. -/
theorem packetDecodesExactlyItsBytes : Obligations.PacketDecodesExactlyItsBytes := by
  refine fun bs i => ⟨eq_packetBytes_of_decodePacket bs i, ?_⟩
  rintro ⟨a, body, hbody, rfl, rfl⟩
  exact decodePacket_packetBytes a body hbody

/-! ## Building -/

/-- An idle block after `BLD a`: the body in its buffer has become a packet (R192). -/
def built (a : Byte) (s : State) : State :=
  finish .ok (setBuffer (packetBytes a (pktBytes s 0 s.plen)) (accept s))

/-- `BLD` of an idle block with a body too long for a packet (R192, R311). -/
theorem exec_bld_tooLong (s : State) (a : Byte) (hb : s.status.busy = false) (h : 253 < s.plen) :
    exec (.bld a) s = .next (ended .tooLong s) := by
  rw [show exec (.bld a) s = execBld a s from rfl, execBld, hostCommand_idle hb, if_pos (by simpa using h),
    finish_accept]

/-- `BLD` of an idle block with a body a packet can hold (R192). -/
theorem exec_bld_builds (s : State) (a : Byte) (hb : s.status.busy = false) (h : s.plen ≤ 253) :
    exec (.bld a) s = .next (built a s) := by
  rw [show exec (.bld a) s = execBld a s from rfl, execBld, hostCommand_idle hb, if_neg (by simpa using h)]
  rfl

@[simp] theorem built_busy (a : Byte) (s : State) : (built a s).status.busy = false := rfl

/-- A packet has six bytes beside its body (R191). -/
@[simp] theorem built_plen (a : Byte) (s : State) : (built a s).plen = s.plen + 6 := by
  rw [built, finish_plen, setBuffer, clearWindow_plen, packetBytes_length, pktBytes_length]

/-- What `BLD` leaves, but for the bytes of the buffer (R47, R192, R301). -/
theorem built_eq (a : Byte) (s : State) : built a s =
    { ended .ok s with pkt := (built a s).pkt, plen := s.plen + 6, poff := 0, pn := 0, vaddr := 0, vlen := 0 } := by
  rw [← built_plen a s]
  rfl

/-- The buffer after `BLD`, byte by byte: the packet, and the old bytes beyond it (R190, R192). -/
theorem pktByte_built (a : Byte) (s : State) (i : Nat) : pktByte (built a s) i =
    if i = 0 then 0xEA else if i = 1 then 0xD1 else if i = 2 then a
    else if i = 3 then BitVec.ofNat 8 (s.plen + 2)
    else if i < 4 + s.plen then pktByte s (i - 4)
    else if i = 4 + s.plen then xor8 (BitVec.ofNat 8 (s.plen + 2) :: pktBytes s 0 s.plen)
    else if i = 5 + s.plen then 0xF5
    else pktByte s i := by
  rw [built, pktByte_finish, pktByte_setBuffer, packetBytes_length, pktBytes_length, pktByte_accept]
  by_cases hin : i < s.plen + 6
  · rw [if_pos hin, packetBytes_getD, pktBytes_getD, pktBytes_length]
    grind
  · rw [if_neg hin]
    grind

/-- Settles O36: a body of more than 253 bytes is refused; for the others `exec_bld_builds`, with each byte of the buffer
written out. -/
theorem bldBuildsPacketInPlace : Obligations.BldBuildsPacketInPlace :=
  ⟨fun _ a => congrArg Wire.cmd (wordOf_formatN 0x18 a), fun s a hb =>
    ⟨exec_bld_tooLong s a hb, fun h =>
      ⟨built a s, (built a s).pkt, exec_bld_builds s a hb h, built_eq a s, pktByte_built a s⟩⟩⟩

/-! ## Validating -/

/-- The checks of `VAL` in their order, each with the bytes it needs (R195, R196, R197). -/
theorem firstFailure_eq (e : Byte) (s : State) : firstFailure e s =
    if s.plen < 1 ∨ pktByte s 0 ≠ 0xEA then some .badStart
    else if s.plen < 2 ∨ pktByte s 1 ≠ 0xD1 then some .badProduct
    else if s.plen < 3 ∨ pktByte s 2 ≠ e then some .badAddr
    else if s.plen < 4 ∨ (pktByte s 3).toNat < 2 ∨ (pktByte s 3).toNat + 4 ≠ s.plen then some .badLength
    else if pktByte s (s.plen - 2) ≠ xor8 (pktBytes s 3 (s.plen - 5)) then some .badChecksum
    else if pktByte s (s.plen - 1) ≠ 0xF5 then some .badTerm
    else none := by
  simp only [firstFailure, bufferByte_ne_iff, lengthOk_false_iff]

/-- An idle block after a `VAL` with this first failing check: the window cleared, or set on the payload of the packet that
passed (R199, R200). -/
def validated (s : State) : Option Code → State
  | some c => finish c (clearWindow (accept s))
  | none => finish .ok (packetAccepted (accept s))

/-- `VAL` of an idle block (R195). -/
theorem exec_val_idle (s : State) (e : Byte) (hb : s.status.busy = false) :
    exec (.val e) s = .next (validated s (firstFailure e s)) := by
  rw [show exec (.val e) s = execVal e s from rfl, execVal, hostCommand_idle hb, firstFailure_accept]
  cases firstFailure e s <;> rfl

/-- Settles O37: `exec_val_idle`, with the checks as `firstFailure_eq` lists them. -/
theorem valChecksInOrder : Obligations.ValChecksInOrder := by
  refine ⟨fun _ e => congrArg Wire.cmd (wordOf_formatN 0x19 e), fun s e hb => ?_⟩
  rw [exec_val_idle s e hb, firstFailure_eq]
  simp only [apply_ite (validated s)]
  rfl

/-- `VAL` ends with `OK` only when no check fails: the code of a check is none of a packet that passes (R195, R302). -/
theorem firstFailure_eq_none_of_ok (e : Byte) (s : State) (h : (validated s (firstFailure e s)).status.code = .ok) :
    firstFailure e s = none := by
  rw [firstFailure_eq] at h ⊢
  split_ifs at h ⊢ <;> cases h
  rfl

/-- The buffer of `s` is an SP packet for address `e`: each of the six checks of `VAL e` passes (R190, R195). -/
structure PassesChecks (e : Byte) (s : State) : Prop where
  start : pktByte s 0 = 0xEA
  product : pktByte s 1 = 0xD1
  address : pktByte s 2 = e
  length_ge : 2 ≤ (pktByte s 3).toNat
  length_eq : (pktByte s 3).toNat + 4 = s.plen
  checksum : pktByte s (s.plen - 2) = xor8 (pktBytes s 3 (s.plen - 5))
  term : pktByte s (s.plen - 1) = 0xF5

/-- A packet has at least six bytes (R197). -/
theorem PassesChecks.plen_ge {e : Byte} {s : State} (h : PassesChecks e s) : 6 ≤ s.plen := by
  have hge := h.length_ge
  have heq := h.length_eq
  omega

/-- A check of `VAL` for a byte passes when the buffer has it and it is the one asked for (R196). -/
theorem not_missing_or_ne {n m : Nat} {b c : Byte} (hin : m ≤ n) (hbyte : b = c) : ¬ (n < m ∨ b ≠ c) :=
  not_or.2 ⟨Nat.not_lt.2 hin, not_not.2 hbyte⟩

/-- No check of `VAL` fails exactly when each passes (R195). -/
theorem firstFailure_eq_none_iff (e : Byte) (s : State) : firstFailure e s = none ↔ PassesChecks e s := by
  constructor
  · intro h
    rw [firstFailure_eq] at h
    split_ifs at h with hstart hproduct haddress hlength hsum hterm
    simp only [not_or, not_not] at hstart hproduct haddress hlength hsum hterm
    exact ⟨hstart.2, hproduct.2, haddress.2, Nat.not_lt.1 hlength.2.1, hlength.2.2, hsum, hterm⟩
  · intro h
    have h6 := h.plen_ge
    have hge := h.length_ge
    rw [firstFailure_eq, if_neg (not_missing_or_ne (by omega) h.start), if_neg (not_missing_or_ne (by omega) h.product),
      if_neg (not_missing_or_ne (by omega) h.address), if_neg (by rw [h.length_eq]; omega), if_neg (not_not.2 h.checksum),
      if_neg (not_not.2 h.term)]

/-- A packet for one address is refused for every other (R195). -/
theorem PassesChecks.firstFailure_of_ne {e e' : Byte} {s : State} (h : PassesChecks e s) (hne : e' ≠ e) :
    firstFailure e' s = some .badAddr := by
  have h6 := h.plen_ge
  rw [firstFailure_eq, if_neg (not_missing_or_ne (by omega) h.start), if_neg (not_missing_or_ne (by omega) h.product),
    if_pos (.inr (by rw [h.address]; exact hne.symm))]

/-! ## What `BLD` builds, `VAL` accepts -/

/-- Consecutive bytes that read alike are the same sequence. -/
theorem pktBytes_congr {s s' : State} {b b' n : Nat} (h : ∀ i, i < n → pktByte s (b + i) = pktByte s' (b' + i)) :
    pktBytes s b n = pktBytes s' b' n :=
  List.map_congr_left fun i hi => h i (List.mem_range.1 hi)

/-- The first byte of a sequence of `PKT`, and the others. -/
theorem pktBytes_eq_cons (s : State) (b n : Nat) : pktBytes s b (n + 1) = pktByte s b :: pktBytes s (b + 1) n := by
  simp only [pktBytes, List.range_succ_eq_map, List.map_cons, List.map_map, Nat.add_zero]
  refine congrArg _ (List.map_congr_left fun i _ => ?_)
  rw [Function.comp, Nat.succ_eq_add_one, Nat.add_assoc, Nat.add_comm 1 i]

/-- Length byte and body of a built packet: what its checksum covers (R194). -/
theorem pktBytes_built (a : Byte) (s : State) :
    pktBytes (built a s) 3 (s.plen + 1) = BitVec.ofNat 8 (s.plen + 2) :: pktBytes s 0 s.plen := by
  rw [pktBytes_eq_cons, pktByte_built]
  refine congrArg _ (pktBytes_congr fun i hi => ?_)
  rw [pktByte_built, if_neg (by omega), if_neg (by omega), if_neg (by omega), if_neg (by omega), if_pos (by omega)]
  congr 1
  omega

/-- A built packet passes the checks for its address (R201). -/
theorem passesChecks_built (a : Byte) (s : State) (h : s.plen ≤ 253) : PassesChecks a (built a s) := by
  have hlength : pktByte (built a s) 3 = BitVec.ofNat 8 (s.plen + 2) := pktByte_built a s 3
  refine ⟨pktByte_built a s 0, pktByte_built a s 1, pktByte_built a s 2, ?_, ?_, ?_, ?_⟩
  · rw [hlength, lengthByte_toNat _ h]
    omega
  · rw [hlength, lengthByte_toNat _ h, built_plen]
  · rw [built_plen, show s.plen + 6 - 5 = s.plen + 1 from rfl, pktBytes_built, pktByte_built]
    grind
  · rw [built_plen, pktByte_built]
    grind

/-- Settles O38: a built packet passes the checks for its address, and for no other. -/
theorem builtPacketValidates : Obligations.BuiltPacketValidates := by
  intro s a a' hb h
  have hpass := passesChecks_built a s h
  refine ⟨built a s, exec_bld_builds s a hb h, ⟨_, exec_val_idle _ a (built_busy a s), ?_⟩,
    fun hne => ⟨_, exec_val_idle _ a' (built_busy a s), ?_⟩⟩
  · rw [(firstFailure_eq_none_iff a _).2 hpass]
    refine ⟨rfl, hpass.address, ?_⟩
    have hlength := hpass.length_eq
    rw [built_plen] at hlength
    exact Nat.add_right_cancel (m := 4) hlength
  · rw [hpass.firstFailure_of_ne hne]
    rfl

/-! ## A changed byte -/

/-- The last byte of a sequence of `PKT` goes last into its XOR (R14 (a)). -/
theorem xor8_pktBytes_succ (s : State) (b n : Nat) :
    xor8 (pktBytes s b (n + 1)) = xor8 (pktBytes s b n) ^^^ pktByte s (b + n) := by
  simp [pktBytes, List.range_succ, xor8]

/-- Changing one byte of a sequence changes its XOR. -/
theorem xor8_pktBytes_ne {s s' : State} {i : Nat} (hne : pktByte s' i ≠ pktByte s i)
    (hsame : ∀ j, j ≠ i → pktByte s' j = pktByte s j) (b n : Nat) (hlow : b ≤ i) (hhigh : i < b + n) :
    xor8 (pktBytes s' b n) ≠ xor8 (pktBytes s b n) := by
  induction n with
  | zero => omega
  | succ n ih =>
    rw [xor8_pktBytes_succ, xor8_pktBytes_succ]
    by_cases hlast : i = b + n
    · subst hlast
      rw [pktBytes_congr fun j hj => hsame (b + j) (by omega)]
      exact mt (BitVec.xor_right_inj _).1 hne
    · rw [hsame (b + n) (Ne.symm hlast)]
      exact mt (BitVec.xor_left_inj _).1 (ih (by omega))

/-- The checksum holds exactly when the XOR over length byte, body and checksum byte is zero (R194). -/
theorem checksum_iff_xor8_eq_zero (s : State) (n : Nat) :
    pktByte s (3 + n) = xor8 (pktBytes s 3 n) ↔ xor8 (pktBytes s 3 (n + 1)) = 0 := by
  rw [xor8_pktBytes_succ, eq_comm]
  exact BitVec.xor_eq_zero_iff.symm

/-- A packet with one byte changed fails the check of that byte: the checks before it read other bytes (R203). -/
theorem PassesChecks.firstFailure_of_change {e : Byte} {s s' : State} {i : Nat} (h : PassesChecks e s)
    (hplen : s'.plen = s.plen) (hi : i < s.plen) (hne : pktByte s' i ≠ pktByte s i)
    (hsame : ∀ j, j ≠ i → pktByte s' j = pktByte s j) : firstFailure e s' =
      some (if i = 0 then .badStart else if i = 1 then .badProduct else if i = 2 then .badAddr
        else if i = 3 then .badLength else if i = s.plen - 1 then .badTerm else .badChecksum) := by
  have h6 := h.plen_ge
  have hge := h.length_ge
  have heq := h.length_eq
  obtain ⟨n, hn⟩ : ∃ n, s.plen = n + 5 := ⟨s.plen - 5, by omega⟩
  rw [firstFailure_eq, hplen]
  by_cases h0 : i = 0
  · subst h0
    rw [if_pos (.inr (h.start ▸ hne)), if_pos rfl]
  rw [if_neg (not_missing_or_ne (by omega) ((hsame 0 (Ne.symm h0)).trans h.start)), if_neg h0]
  by_cases h1 : i = 1
  · subst h1
    rw [if_pos (.inr (h.product ▸ hne)), if_pos rfl]
  rw [if_neg (not_missing_or_ne (by omega) ((hsame 1 (Ne.symm h1)).trans h.product)), if_neg h1]
  by_cases h2 : i = 2
  · subst h2
    rw [if_pos (.inr (h.address ▸ hne)), if_pos rfl]
  rw [if_neg (not_missing_or_ne (by omega) ((hsame 2 (Ne.symm h2)).trans h.address)), if_neg h2]
  by_cases h3 : i = 3
  · subst h3
    have hchanged : (pktByte s' 3).toNat ≠ (pktByte s 3).toNat := mt BitVec.eq_of_toNat_eq hne
    rw [if_pos (by omega), if_pos rfl]
  rw [if_neg (by rw [hsame 3 (Ne.symm h3)]; omega), if_neg h3]
  have hsum : pktByte s (3 + n) = xor8 (pktBytes s 3 n) := by
    have hchecksum := h.checksum
    rwa [hn, show n + 5 - 2 = 3 + n by omega] at hchecksum
  rw [hn, show n + 5 - 2 = 3 + n by omega, show n + 5 - 5 = n from rfl]
  by_cases hlast : i = n + 5 - 1
  · subst hlast
    rw [hsame (3 + n) (by omega), pktBytes_congr fun j hj => hsame (3 + j) (by omega), if_neg (not_not.2 hsum),
      if_pos (h.term ▸ hn ▸ hne), if_pos rfl]
  · have hxor := xor8_pktBytes_ne hne hsame 3 (n + 1) (by omega) (by omega)
    rw [(checksum_iff_xor8_eq_zero s n).1 hsum] at hxor
    rw [if_pos (mt (checksum_iff_xor8_eq_zero s' n).1 hxor), if_neg hlast]

/-- Settles O39: the changed packet fails the check of the changed byte, and `VAL` ends with the code of that check. -/
theorem singleByteChangeDetected : Obligations.SingleByteChangeDetected := by
  intro s s' t e i hb hval hok hs' hi hne hsame
  have hplen : s'.plen = s.plen := by rw [hs']
  have hidle : s'.status.busy = false := by rw [hs']; exact hb
  rw [exec_val_idle s e hb] at hval
  cases hval
  have hpass := (firstFailure_eq_none_iff e s).1 (firstFailure_eq_none_of_ok e s hok)
  refine ⟨_, exec_val_idle s' e hidle, ?_⟩
  rw [hpass.firstFailure_of_change hplen hi hne hsame]
  rfl

end Sys2Proof.Proofs
end

section
/-! SUPPORT. The field decoder (spec/42_field_decoder.md): the words of its commands, the window `SETW` sets (R212), when a
field read leaves `ABSENT` (R213), what each field read leaves otherwise (R220 to R229), and the statements about them. -/

namespace Sys2Proof.Proofs

open Sys2Proof.Machine Sys2Proof.Laws

/-! ## The words of the field commands -/

/-- Two runs of zero bits at the end of a word are one. -/
theorem append_zeros {n : Nat} (x : BitVec n) (m k : Nat) :
    x ++ 0#m ++ 0#k = (x ++ 0#(m + k)).cast (Nat.add_assoc n m k).symm := by
  rw [BitVec.append_assoc, BitVec.zero_append_zero]

/-- A word of format B or K is its operation code, the fields `A` and `B`, and zero bits (R101). -/
theorem wordOf_formatBK (opc a b : Byte) : wordOf opc a b 0 0 0 0 = opc ++ a ++ b ++ 0#40 := by
  simp only [wordOf, BitVec.ofNat_eq_ofNat]
  rw [append_zeros, append_zeros, append_zeros]
  rfl

/-- A field in the low bits of `B` has zero bits above it (R101, R102). -/
theorem append_setWidth {n k : Nat} (y : BitVec n) (x : BitVec k) (h : k ≤ 8) :
    y ++ x.setWidth 8 = (y ++ 0#(8 - k) ++ x).cast (by omega) := by
  rw [BitVec.setWidth_eq_append h, BitVec.append_assoc]
  simp

/-- A word of format G with its sentinel policy (R102). -/
theorem wordG_eq (opc off : Byte) (sent : BitVec 2) (mul add : BitVec 16) (exp : BitVec 4) (unit : UnitCode) :
    wordG opc off sent mul add exp unit
      = opc ++ off ++ 0#6 ++ sent ++ exp ++ codeOfUnit unit ++ mul ++ add := by
  unfold wordG wordOf
  rw [append_setWidth _ _ (by decide)]
  rfl

/-- A word of format B (R101). -/
theorem wordOf_formatB (opc off : Byte) (bit : BitVec 3) :
    wordOf opc off (bit.setWidth 8) 0 0 0 0 = opc ++ off ++ 0#5 ++ bit ++ 0#40 := by
  rw [wordOf_formatBK, append_setWidth _ _ (by decide)]
  rfl

/-! ## Setting the window -/

/-- Settles O41: the accepted command tests the sum of its operands, a natural number, against `PLEN`. -/
theorem setwSetsWindow : Obligations.SetwSetsWindow := by
  refine ⟨fun _ _ _ => rfl, fun s off len hb => ?_⟩
  rw [show exec (.setw off len) s = execSetw off len s from rfl, execSetw, hostCommand_idle hb, accept_plen]
  refine ⟨fun hout => ?_, fun hin => ?_⟩
  · rw [if_pos hout, finish_accept]
  · rw [if_neg (Nat.not_lt.2 hin)]
    rfl

/-! ## A field read of an idle block -/

/-- An instruction that reads a field leaves the value of its window in `RES` and ends with `OK` (R38, R216, R217). -/
theorem exec_fieldRead_idle {i : Instr} {value : State → Value} {s : State} {v : Value}
    (hex : ∀ t, exec i t = readField value t) (hb : s.status.busy = false) (hv : value (accept s) = v) :
    exec i s = .next { ended .ok s with res := v } := by
  rw [hex, readField_idle value s hb, hv]

/-! ## Outside the window -/

/-- A value of the window that is `ABSENT` exactly when the `width` bytes at `off` are not all inside (R213). -/
structure AbsentExactlyOutside (value : State → Value) (off width : Nat) : Prop where
  absent : ∀ {s : State}, s.pn < off + width → value s = Value.absent
  present : ∀ {s : State}, off + width ≤ s.pn → (value s).tag ≠ .absent

/-- A multi-byte read beyond the window has no bytes (R211). -/
theorem memRead_outside {s : State} {off n : Nat} (h : s.pn < off + n) : memRead s off n = none :=
  if_neg (Nat.not_le.2 h)

/-- A multi-byte read inside the window (R211). -/
theorem memRead_inside {s : State} {off n : Nat} (h : off + n ≤ s.pn) :
    memRead s off n = some (pktBytes s (s.poff + off) n) :=
  if_pos h

/-- A byte beyond the window is none (R211). -/
theorem winByte_outside {s : State} {off : Nat} (h : s.pn ≤ off) : winByte s off = none :=
  if_neg (Nat.not_lt.2 h)

/-- A byte inside the window (R211). -/
theorem winByte_inside {s : State} {off : Nat} (h : off < s.pn) : winByte s off = some (pktByte s (s.poff + off)) :=
  if_pos h

/-- A format G field: `CORRUPT` and both numbers are present (R213, R216). -/
theorem fieldG_absentExactlyOutside (k : FieldKind) (off : Nat) (sent : Sent) (mul : Nat) (add : Int) (exp : BitVec 4)
    (unit : UnitCode) : AbsentExactlyOutside (fun s => fieldG k s off sent mul add exp unit) off (kindWidth k) where
  absent hout := by simp only [fieldG, memRead_outside hout]
  present {s} hin := by
    rcases fieldG_cases k s off sent mul add exp unit with
      ⟨hnone, -⟩ | ⟨_, -, ⟨-, hv⟩ | ⟨_, -, ⟨_, -, -, hv⟩ | ⟨-, hv⟩⟩⟩
    · rw [memRead_inside hin] at hnone
      cases hnone
    all_goals
      simp only [hv]
      nofun

/-- A bit (R213, R227). -/
theorem fieldBit_absentExactlyOutside (off bit : Nat) :
    AbsentExactlyOutside (fun s => fieldBit s off bit) off 1 where
  absent hout := by simp only [fieldBit, winByte_outside (Nat.le_of_lt_succ hout)]
  present hin := by
    simp only [fieldBit, winByte_inside hin]
    nofun

/-- A coded byte: the code and the raw byte are both present (R213, R228). -/
theorem fieldCode_absentExactlyOutside (off : Nat) (table : Byte) :
    AbsentExactlyOutside (fun s => fieldCode s off table) off 1 where
  absent hout := by simp only [fieldCode, winByte_outside (Nat.le_of_lt_succ hout)]
  present hin := by
    simp only [fieldCode, winByte_inside hin]
    split <;> nofun

/-- A timestamp: `CORRUPT` is present too (R213, R229). -/
theorem fieldTime_absentExactlyOutside (off : Nat) : AbsentExactlyOutside (fun s => fieldTime s off) off 6 where
  absent hout := by simp only [fieldTime, memRead_outside hout]
  present hin := by
    simp only [fieldTime, memRead_inside hin]
    split
    · nofun
    · split <;> nofun

/-- A field read is `readField` of a value that is `ABSENT` exactly outside the bytes of its span (R79, R213). -/
theorem exec_fieldRead_absent (i : Instr) (off width : Nat) (hspan : fieldSpan i = some (off, width)) :
    ∃ value, (∀ s, exec i s = readField value s) ∧ AbsentExactlyOutside value off width := by
  cases i with
  | gu8 => cases hspan; exact ⟨_, fun _ => rfl, fieldG_absentExactlyOutside .u8 ..⟩
  | gu16 => cases hspan; exact ⟨_, fun _ => rfl, fieldG_absentExactlyOutside .u16 ..⟩
  | gs16 => cases hspan; exact ⟨_, fun _ => rfl, fieldG_absentExactlyOutside .s16 ..⟩
  | gu32 => cases hspan; exact ⟨_, fun _ => rfl, fieldG_absentExactlyOutside .u32 ..⟩
  | gnh => cases hspan; exact ⟨_, fun _ => rfl, fieldG_absentExactlyOutside .nh ..⟩
  | gnl => cases hspan; exact ⟨_, fun _ => rfl, fieldG_absentExactlyOutside .nl ..⟩
  | gbcd => cases hspan; exact ⟨_, fun _ => rfl, fieldG_absentExactlyOutside .bcd ..⟩
  | gbit => cases hspan; exact ⟨_, fun _ => rfl, fieldBit_absentExactlyOutside ..⟩
  | gcode => cases hspan; exact ⟨_, fun _ => rfl, fieldCode_absentExactlyOutside ..⟩
  | gts => cases hspan; exact ⟨_, fun _ => rfl, fieldTime_absentExactlyOutside ..⟩
  | _ => cases hspan

/-- Settles O49: the value of a field read stands in `RES`, and accepting the command moves no window. -/
theorem absentExactlyOutsideWindow : Obligations.AbsentExactlyOutsideWindow := by
  intro i s off width hspan hb
  obtain ⟨value, hex, hvalue⟩ := exec_fieldRead_absent i off width hspan
  exact ⟨_, exec_fieldRead_idle hex hb rfl, rfl, hvalue.absent (s := accept s), hvalue.present (s := accept s)⟩

/-! ## Fields of one byte -/

/-- An idle block reads a one-byte field that is never corrupt (R216). -/
theorem exec_byteRead {i : Instr} {s : State} {off : Nat} {mul : Nat} {add : Int} {exp : BitVec 4} {unit : UnitCode}
    (k : FieldKind) (raw : Nat) (hb : s.status.busy = false) (hk : kindWidth k = 1)
    (hraw : rawOf k [pktByte s (s.poff + off)] = some (raw : Int))
    (hex : exec i s = readField (fun t => fieldG k t off .n mul add exp unit) s) :
    exec i s = .next (if off < s.pn then { ended .ok s with res := ⟨.num, unit, exp, raw * mul + add⟩ }
      else { ended .ok s with res := ⟨.absent, .none, 0, 0⟩ }) := by
  rw [hex, readField_idle _ _ hb, fieldG_accept, fieldG_one_byte k hk, hraw]
  split <;> rfl

/-- Settles O42: each of the three reads is `exec_byteRead`, with the byte or its nibble as the raw value. -/
theorem byteFieldReads : Obligations.ByteFieldReads := by
  refine ⟨fun _ _ _ _ _ _ => ⟨rfl, rfl, rfl⟩, fun s off mul add exp unit hb => ⟨?_, ?_, ?_⟩⟩
  · exact exec_byteRead .u8 _ hb rfl rfl rfl
  · rw [extract_hi_nibble]
    exact exec_byteRead .nh _ hb rfl rfl rfl
  · rw [extract_lo_nibble]
    exact exec_byteRead .nl _ hb rfl rfl rfl

/-- Two decimal digits (R230). -/
theorem hexdec_of_decimal {b : Byte} (h : ¬ (9 < hiNibble b ∨ 9 < loNibble b)) :
    hexdec b = some (10 * hiNibble b + loNibble b) :=
  if_pos (by omega)

/-- A digit above 9 (R230). -/
theorem hexdec_of_not_decimal {b : Byte} (h : 9 < hiNibble b ∨ 9 < loNibble b) : hexdec b = none :=
  if_neg (by omega)

/-- A hex-as-decimal field: absent, corrupt, or the transform of the number (R226, R230). -/
theorem fieldG_bcd (s : State) (off mul : Nat) (add : Int) (exp : BitVec 4) (unit : UnitCode) :
    fieldG .bcd s off .n mul add exp unit =
      if s.pn ≤ off then Value.absent
      else if 9 < hiNibble (pktByte s (s.poff + off)) ∨ 9 < loNibble (pktByte s (s.poff + off)) then Value.corrupt
      else Value.num unit exp
        ((10 * hiNibble (pktByte s (s.poff + off)) + loNibble (pktByte s (s.poff + off))) * mul + add) := by
  by_cases hout : s.pn ≤ off
  · rw [if_pos hout]
    exact (fieldG_absentExactlyOutside .bcd off .n mul add exp unit).absent (Nat.lt_succ_of_le hout)
  rw [if_neg hout, fieldG_one_byte .bcd rfl, if_pos (Nat.lt_of_not_le hout)]
  simp only [rawOf, List.getD_cons_zero]
  by_cases hcorrupt : 9 < hiNibble (pktByte s (s.poff + off)) ∨ 9 < loNibble (pktByte s (s.poff + off))
  · rw [if_pos hcorrupt, hexdec_of_not_decimal hcorrupt]
    rfl
  · rw [if_neg hcorrupt, hexdec_of_decimal hcorrupt]
    rfl

/-- Settles O45: `fieldG_bcd`, its digits the nibbles of the byte. -/
theorem hexDecimalFieldRead : Obligations.HexDecimalFieldRead := by
  refine ⟨fun _ _ _ _ _ _ => rfl, fun s off mul add exp unit hb => exec_fieldRead_idle
    (value := fun t => fieldG .bcd t off.toNat .n mul.toNat add.toInt exp unit) (fun _ => rfl) hb ?_⟩
  simp only [extract_hi_nibble, extract_lo_nibble]
  exact fieldG_bcd s off.toNat mul.toNat add.toInt exp unit

/-- A bit inside the window, as a binary digit (R227). -/
theorem fieldBit_inside {s : State} {off : Nat} (bit : Nat) (hin : off < s.pn) : fieldBit s off bit =
    ⟨.bool, .none, 0, ((pktByte s (s.poff + off)).toNat / 2 ^ bit % 2 : Nat)⟩ := by
  simp only [fieldBit, winByte_inside hin, ← Nat.toNat_testBit, BitVec.getLsbD]
  cases (pktByte s (s.poff + off)).toNat.testBit bit <;> rfl

/-- Settles O46: beyond the window a bit is `ABSENT`, inside it is `fieldBit_inside`. -/
theorem bitFieldRead : Obligations.BitFieldRead := by
  refine ⟨fun _ off bit => congrArg Wire.cmd (wordOf_formatB 0x28 off bit), fun s off bit hb =>
    exec_fieldRead_idle (value := fun t => fieldBit t off.toNat bit.toNat) (fun _ => rfl) hb ?_⟩
  split
  · next hout => exact (fieldBit_absentExactlyOutside _ _).absent (Nat.lt_succ_of_le hout)
  · next hin => exact fieldBit_inside _ (Nat.lt_of_not_le hin)

/-- A byte its table maps (R228). -/
theorem fieldCode_some {s : State} {off : Nat} {table id : Byte} (hin : off < s.pn)
    (hcode : codeOf s.cfg table (pktByte s (s.poff + off)) = some id) :
    fieldCode s off table = Value.code table id := by
  simp only [fieldCode, winByte_inside hin, hcode]

/-- A byte its table does not map (R228, R232). -/
theorem fieldCode_none {s : State} {off : Nat} {table : Byte} (hin : off < s.pn)
    (hcode : codeOf s.cfg table (pktByte s (s.poff + off)) = none) :
    fieldCode s off table = Value.rawhex (pktByte s (s.poff + off)).toNat := by
  simp only [fieldCode, winByte_inside hin, hcode]

/-- Settles O47: the two present cases are the two answers of the table. -/
theorem codedFieldRead : Obligations.CodedFieldRead :=
  ⟨fun _ off table => congrArg Wire.cmd (wordOf_formatBK 0x29 off table), fun s off table hb =>
    have hex : ∀ t, exec (.gcode off table) t = readField (fun u => fieldCode u off.toNat table) t := fun _ => rfl
    ⟨fun hout => exec_fieldRead_idle hex hb
        ((fieldCode_absentExactlyOutside _ table).absent (s := accept s) (Nat.lt_succ_of_le hout)),
      fun hin _ hcode => exec_fieldRead_idle hex hb (fieldCode_some (s := accept s) hin hcode),
      fun hin hcode => exec_fieldRead_idle hex hb (fieldCode_none (s := accept s) hin hcode)⟩⟩

/-! ## Fields of two and four bytes -/

/-- An idle block reads a two-byte field whose raw value is `raw` of its bytes (R215, R216). -/
theorem exec_wordRead {i : Instr} {s : State} {off : Nat} {sent : Sent} {mul : Nat} {add : Int} {exp : BitVec 4}
    {unit : UnitCode} (k : FieldKind) (raw : Byte → Byte → Int) (hb : s.status.busy = false) (hk : kindWidth k = 2)
    (hraw : ∀ a b, rawOf k [a, b] = some (raw a b))
    (hex : exec i s = readField (fun t => fieldG k t off sent mul add exp unit) s) :
    let hi := pktByte s (s.poff + off)
    let lo := pktByte s (s.poff + off + 1)
    exec i s = .next (if off + 2 ≤ s.pn then
        { ended .ok s with res := ⟨.num, unit, exp,
            if hi = 0xFF ∧ lo = 0xFF ∧ sent = .z then 0
            else if hi = 0xFF ∧ lo = 0xFF ∧ sent = .m then -1
            else raw hi lo * mul + add⟩ }
      else { ended .ok s with res := ⟨.absent, .none, 0, 0⟩ }) := by
  intro hi lo
  rw [hex, readField_idle _ _ hb, fieldG_accept, fieldG_two_bytes k hk s off sent mul add exp unit raw hraw]
  split <;> rfl

/-- Settles O43: both reads are `exec_wordRead`, with the big-endian word unsigned or in two's complement. -/
theorem wordFieldReads : Obligations.WordFieldReads := by
  refine ⟨fun _ off sent mul add exp unit => ⟨congrArg Wire.cmd (wordG_eq 0x22 off _ mul add exp unit),
    congrArg Wire.cmd (wordG_eq 0x23 off _ mul add exp unit)⟩, fun s off sent mul add exp unit hb => ⟨?_, ?_⟩⟩
  · exact exec_wordRead .u16 (fun a b => (a ++ b).toNat) hb rfl
      (fun a b => congrArg (fun n : Nat => some (n : Int)) (be_two a b)) rfl
  · exact exec_wordRead .s16 (fun a b => (a ++ b).toInt) hb rfl (fun a b => congrArg some (sext16_be_two a b)) rfl

/-- Settles O44: `fieldG_four_bytes`, inside the window and beyond it. -/
theorem doubleWordFieldRead : Obligations.DoubleWordFieldRead := by
  refine ⟨fun _ _ _ _ _ _ => rfl, fun s off mul add exp unit hb => ?_⟩
  have hvalue := fieldG_four_bytes s off.toNat mul.toNat add.toInt exp unit
  have hex : ∀ t, exec (.gu32 off mul add exp unit) t =
      readField (fun u => fieldG .u32 u off.toNat .n mul.toNat add.toInt exp unit) t := fun _ => rfl
  refine ⟨fun hin => exec_fieldRead_idle hex hb ?_, fun hout => exec_fieldRead_idle hex hb ?_⟩
  · rw [if_pos hin] at hvalue
    exact hvalue
  · rw [if_neg (Nat.not_le.2 hout)] at hvalue
    exact hvalue

/-! ## Timestamps -/

/-- The two digits of a byte read as a decimal number, whatever they are (R230). -/
def decimalOf (b : Byte) : Nat := 10 * hiNibble b + loNibble b

/-- Every component has a place among the six bytes (R6, R229). -/
theorem idxOf_tsOrder_lt {p : Params} (hwf : p.wf = true) (c : TsPart) : p.tsOrder.idxOf c < 6 := by
  simp only [Params.wf, Bool.and_eq_true, decide_eq_true_eq, List.all_eq_true, List.contains_iff_mem] at hwf
  obtain ⟨⟨⟨-, hlength, hall⟩, -⟩, -⟩ := hwf
  rw [← hlength]
  exact List.idxOf_lt_length_of_mem (hall c (by cases c <;> decide))

/-- A component of six decimal bytes is the number of the byte `TS_ORDER` places it in (R229). -/
theorem tsPart_decimal {p : Params} (hwf : p.wf = true) (s : State) (base : Nat) (c : TsPart) :
    tsPart p.tsOrder ((pktBytes s base 6).map decimalOf) c = decimalOf (pktByte s (base + p.tsOrder.idxOf c)) := by
  rw [tsPart, List.getD_eq_getElem?_getD, List.getElem?_map, pktBytes_getElem? _ _ _ _ (idxOf_tsOrder_lt hwf c)]
  rfl

/-- A calendar date and a time of day (R231). -/
theorem validTime_iff (yy mo dd hh mi ss : Nat) : validTime yy mo dd hh mi ss = true ↔
    1 ≤ mo ∧ mo ≤ 12 ∧ 1 ≤ dd ∧ dd ≤ daysInMonth yy mo ∧ hh ≤ 23 ∧ mi ≤ 59 ∧ ss ≤ 59 := by
  simp only [validTime, Bool.and_eq_true, decide_eq_true_eq, and_assoc]

/-- The length of a month, its short months as a list (R231). -/
theorem daysInMonth_eq (yy mo : Nat) : daysInMonth yy mo =
    if mo = 2 then (if yy % 4 = 0 then 29 else 28) else if mo ∈ [4, 6, 9, 11] then 30 else 31 := by
  simp only [daysInMonth, List.mem_cons, List.not_mem_nil, or_false]

/-- All bytes of a sequence of `PKT`, by index. -/
theorem forall_mem_pktBytes {s : State} {base n : Nat} {P : Byte → Prop} :
    (∀ b ∈ pktBytes s base n, P b) ↔ ∀ i, i < n → P (pktByte s (base + i)) := by
  simp [pktBytes]

/-- A timestamp with a digit above 9 (R229). -/
theorem fieldTime_not_decimal {s : State} {off : Nat} (hin : off + 6 ≤ s.pn)
    (hdigits : ¬ ∀ b ∈ pktBytes s (s.poff + off) 6, hiNibble b ≤ 9 ∧ loNibble b ≤ 9) :
    fieldTime s off = Value.corrupt := by
  simp only [fieldTime, memRead_inside hin, hexdecAll_of_not_decimal _ hdigits]

/-- The component `c` of the six bytes at `base`, from the byte `TS_ORDER` places it in (R229). -/
def tsComponent (s : State) (base : Nat) (c : TsPart) : Nat :=
  decimalOf (pktByte s (base + s.cfg.tsOrder.idxOf c))

/-- The components of the six bytes at `base` are a date and a time (R231). -/
def tsValid (s : State) (base : Nat) : Prop :=
  validTime (tsComponent s base .year) (tsComponent s base .month) (tsComponent s base .day) (tsComponent s base .hour)
    (tsComponent s base .minute) (tsComponent s base .second) = true

/-- A timestamp of six decimal bytes: its components, or `CORRUPT` if they are no date and time (R229). -/
theorem fieldTime_decimal {s : State} {off : Nat} (hwf : s.cfg.wf = true) (hin : off + 6 ≤ s.pn)
    (hdigits : ∀ b ∈ pktBytes s (s.poff + off) 6, hiNibble b ≤ 9 ∧ loNibble b ≤ 9) :
    (tsValid s (s.poff + off) → fieldTime s off = Value.ts (tsComponent s (s.poff + off) .year)
      (tsComponent s (s.poff + off) .month) (tsComponent s (s.poff + off) .day) (tsComponent s (s.poff + off) .hour)
      (tsComponent s (s.poff + off) .minute) (tsComponent s (s.poff + off) .second))
    ∧ (¬ tsValid s (s.poff + off) → fieldTime s off = Value.corrupt) := by
  have hall : hexdecAll (pktBytes s (s.poff + off) 6) = some ((pktBytes s (s.poff + off) 6).map decimalOf) :=
    hexdecAll_of_decimal _ hdigits
  simp only [fieldTime, memRead_inside hin, hall, tsPart_decimal hwf]
  exact ⟨fun hvalid => if_pos hvalid, fun hinvalid => if_neg hinvalid⟩

/-- Settles O48: a read beyond the window, `fieldTime_not_decimal`, and the two outcomes of `fieldTime_decimal`. -/
theorem timestampFieldRead : Obligations.TimestampFieldRead := by
  refine ⟨fun _ off => congrArg Wire.cmd (wordOf_formatN 0x2A off), fun s off hb hwf => ?_⟩
  simp only [extract_hi_nibble, extract_lo_nibble, ← daysInMonth_eq, ← validTime_iff]
  rw [← forall_mem_pktBytes (P := fun b => hiNibble b ≤ 9 ∧ loNibble b ≤ 9)]
  have hex : ∀ t, exec (.gts off) t = readField (fun u => fieldTime u off.toNat) t := fun _ => rfl
  refine ⟨fun hout => exec_fieldRead_idle hex hb ?_, fun hin hdigits => exec_fieldRead_idle hex hb ?_,
    fun hin hdigits hinvalid => exec_fieldRead_idle hex hb ?_, fun hin hdigits hvalid => exec_fieldRead_idle hex hb ?_⟩
  · exact (fieldTime_absentExactlyOutside _).absent (s := accept s) hout
  · exact fieldTime_not_decimal (s := accept s) hin hdigits
  · exact (fieldTime_decimal (s := accept s) hwf hin hdigits).2 hinvalid
  · exact (fieldTime_decimal (s := accept s) hwf hin hdigits).1 hvalid

end Sys2Proof.Proofs
end

section
/-! SUPPORT. The decode programs (spec/43_status_decoders.md): where `OUT` holds each entry a program writes (R250,
R251), then per program the values of its entries and the statement about it: `DVOLT` (R252 to R256), `DCURR` with its
current and flag set (R261 to R269), `DPWR` (R273 to R277). -/

namespace Sys2Proof.Proofs

open Sys2Proof.Machine Sys2Proof.Laws

/-! ## What a program writes -/

/-- An idle block runs a program, whose entries accepting the command does not change (R251). -/
theorem exec_program_idle {i : Instr} {entries : State → List Entry} {s : State} {n : Nat}
    (hex : exec i s = decodeProgram entries s) (hb : s.status.busy = false) (haccept : entries (accept s) = entries s)
    (hn : (entries s).length = n) :
    exec i s = .next { ended .ok s with out := outWrite (entries s) s.out, outn := n } := by
  rw [hex, decodeProgram_idle entries s hb, haccept, hn]

/-- An entry the program wrote (R39). -/
theorem outAt_outWrite_of_getElem? {es : List Entry} {m : OutMemory} {k : Nat} {e : Entry} (h : es[k]? = some e) :
    outAt (outWrite es m) k = e := by
  obtain ⟨hk, rfl⟩ := List.getElem?_eq_some_iff.1 h
  rw [outAt_outWrite, if_pos hk, List.getD_eq_getElem _ _ hk]

/-- An entry beyond the program's own keeps its content (R39). -/
theorem outAt_outWrite_beyond {es : List Entry} {m : OutMemory} {n k : Nat} (hn : es.length = n) (h : n ≤ k) :
    outAt (outWrite es m) k = outAt m k := by
  rw [outAt_outWrite, if_neg (by omega)]

section
/-! Every program writes some entries, then one per cell or probe, then some more. -/

variable {es front back : List Entry} {body : Nat → Entry} {n : Nat} {m : OutMemory}

/-- An entry before the cells'. -/
theorem outAt_front (hes : es = front ++ (List.range n).map body ++ back) {k : Nat} {e : Entry}
    (h : front[k]? = some e) : outAt (outWrite es m) k = e := by
  have hk := (List.getElem?_eq_some_iff.1 h).1
  refine outAt_outWrite_of_getElem? ?_
  rw [hes, List.append_assoc, List.getElem?_append_left hk, h]

/-- The entry of cell `j`, counted from 1. -/
theorem outAt_body (hes : es = front ++ (List.range n).map body ++ back) {k j : Nat}
    (hk : k + 1 = front.length + j) (h1 : 1 ≤ j) (hj : j ≤ n) : outAt (outWrite es m) k = body (j - 1) := by
  have hlt : j - 1 < n := by omega
  refine outAt_outWrite_of_getElem? ?_
  rw [hes, show k = front.length + (j - 1) by omega, List.append_assoc, List.getElem?_append_right (by omega),
    List.getElem?_append_left (by simpa using hlt)]
  simp [hlt]

/-- Entry `i` after the cells'. -/
theorem outAt_back (hes : es = front ++ (List.range n).map body ++ back) (i : Nat) {k : Nat} {e : Entry}
    (hk : k = front.length + n + i) (h : back[i]? = some e) : outAt (outWrite es m) k = e := by
  refine outAt_outWrite_of_getElem? ?_
  rw [hes, hk, List.getElem?_append_right (by simp), ← h]
  simp

end

/-- An unsigned byte field without a factor (R213, R220). -/
theorem fieldG_u8_eq (s : State) (off : Nat) (add : Int) (exp : BitVec 4) (unit : UnitCode) :
    fieldG .u8 s off .n 1 add exp unit =
      if off < s.pn then Value.num unit exp ((pktByte s (s.poff + off)).toNat + add) else Value.absent := by
  rw [fieldG_one_byte .u8 rfl]
  simp only [rawOf, List.getD_cons_zero, Nat.cast_one, mul_one]

/-! ## VoltageStatus -/

/-- The cell count `N` (R252, R256). -/
def cellCount (s : State) : Nat := if 0 < s.pn then (pktByte s s.poff).toNat else 0

/-- The count entry's value (R252). -/
theorem countField_eq (s : State) : fieldG .u8 s 0 .n 1 0 0 .none =
    if 0 < s.pn then Value.num .none 0 (cellCount s) else Value.absent := by
  rw [fieldG_u8_eq, Int.add_zero, cellCount]
  split <;> rfl

/-- The count field stands for `N`, 0 where it is absent (R252, R256). -/
theorem countOf_countField (s : State) : countOf (fieldG .u8 s 0 .n 1 0 0 .none) = cellCount s := by
  rw [countField_eq, cellCount]
  split <;> rfl

/-- A cell's voltage is a number exactly when the cell has a mantissa (R252, R255). -/
theorem cellVoltage_eq (s : State) (i : Nat) :
    cellVoltage s i = (cellMant s i).elim Value.absent (Value.num .v (-3)) := by
  rw [cellVoltage, fieldG_two_bytes .u16 rfl s _ .z 1 0 (-3) .v (fun a b => be [a, b]) fun _ _ => rfl]
  by_cases hin : 3 + 2 * (i - 1) + 2 ≤ s.pn
  · rw [if_pos hin, cellMant, winByte_inside (by omega), winByte_inside (by omega)]
    simp [be, Nat.add_assoc]
  · rw [if_neg hin, cellMant, winByte_outside (off := 3 + 2 * (i - 1) + 1) (by omega)]
    simp

/-- The voltages the difference is taken over. -/
def cellVoltages (s : State) : List Value := (List.range (cellCount s)).map (fun j => cellVoltage s (j + 1))

/-- The present mantissas are the cells' (R253). -/
theorem mem_presentMants_cellVoltages (s : State) (m : Int) :
    m ∈ presentMants (cellVoltages s) ↔ ∃ i, 1 ≤ i ∧ i ≤ cellCount s ∧ cellMant s i = some m := by
  have hcell : ∀ i, ((cellVoltage s i).tag = .num ∧ (cellVoltage s i).mant = m) ↔ cellMant s i = some m := by
    intro i
    rw [cellVoltage_eq]
    cases cellMant s i <;> simp [Value.absent, Value.num]
  simp only [presentMants, cellVoltages, List.mem_map, List.mem_filter, List.mem_range, decide_eq_true_eq]
  constructor
  · rintro ⟨_, ⟨⟨j, hj, rfl⟩, htag⟩, hm⟩
    exact ⟨j + 1, by omega, hj, (hcell _).1 ⟨htag, hm⟩⟩
  · rintro ⟨i, h1, hn, hm⟩
    obtain ⟨htag, hmant⟩ := (hcell i).2 hm
    exact ⟨_, ⟨⟨i - 1, by omega, by rw [Nat.sub_add_cancel h1]⟩, htag⟩, hmant⟩

/-- No cell is present (R254). -/
theorem voltageDiff_absent {vs : List Value} (h : ∀ m, m ∉ presentMants vs) : voltageDiff vs = Value.absent := by
  rw [voltageDiff, List.eq_nil_iff_forall_not_mem.2 h]

/-- The extremes of the present mantissas give the difference (R253). -/
theorem voltageDiff_extremes {vs : List Value} {hi lo : Int} (hhi : hi ∈ presentMants vs) (hlo : lo ∈ presentMants vs)
    (hall : ∀ m ∈ presentMants vs, lo ≤ m ∧ m ≤ hi) : voltageDiff vs = Value.num .v (-3) (hi - lo) := by
  have hmax := List.max?_eq_some_iff.2 ⟨hhi, fun m hm => (hall m hm).2⟩
  have hmin := List.min?_eq_some_iff.2 ⟨hlo, fun m hm => (hall m hm).1⟩
  rw [voltageDiff]
  cases hms : presentMants vs with
  | nil => simp [hms] at hhi
  | cons m ms =>
    rw [hms, List.max?_cons', Option.some.injEq] at hmax
    rw [hms, List.min?_cons', Option.some.injEq] at hmin
    simp only [hmax, hmin]

/-- The entries of `DVOLT`, with the count spelled out (R252). -/
theorem voltageEntries_eq (s : State) : voltageEntries s =
    [⟨0x01, 0, fieldG .u8 s 0 .n 1 0 0 .none⟩]
      ++ (List.range (cellCount s)).map (fun j => ⟨0x02, BitVec.ofNat 8 (j + 1), cellVoltage s (j + 1)⟩)
      ++ [⟨0x03, 0, voltageDiff (cellVoltages s)⟩] := by
  simp only [voltageEntries, countOf_countField, cellVoltages]

/-- The number of entries of `DVOLT` (R252). -/
theorem voltageEntries_length (s : State) : (voltageEntries s).length = cellCount s + 2 := by
  simp [voltageEntries_eq]

/-- Settles O51: each entry from its place in the program, its value by `countField_eq`, `cellVoltage_eq` and the two
cases of the difference. -/
theorem dvoltDecodesVoltageStatus : Obligations.DvoltDecodesVoltageStatus := by
  refine ⟨fun _ => rfl, fun s hb => ?_⟩
  have hes := voltageEntries_eq s
  have hpresent := mem_presentMants_cellVoltages s
  have hlen := voltageEntries_length s
  refine ⟨_, _, exec_program_idle (entries := voltageEntries) rfl hb rfl hlen, rfl, ?_, fun i h1 hi => ?_,
    fun habsent => ?_, fun hi lo hhi hlo hall => ?_, fun k hk => outAt_outWrite_beyond hlen hk⟩
  · refine (outAt_front hes (k := 0) rfl).trans ?_
    rw [countField_eq, cellCount]
    split <;> rfl
  · refine (outAt_body hes (j := i) (Nat.add_comm i 1) h1 hi).trans ?_
    simp only [Nat.sub_add_cancel h1, cellVoltage_eq]
    cases cellMant s i <;> rfl
  · refine (outAt_back hes 0 (Nat.add_comm _ 1) rfl).trans ?_
    rw [voltageDiff_absent fun m hm => ?_]
    · rfl
    · obtain ⟨i, h1, hn, hm⟩ := (hpresent m).1 hm
      rw [habsent i h1 hn] at hm
      cases hm
  · refine (outAt_back hes 0 (Nat.add_comm _ 1) rfl).trans ?_
    rw [voltageDiff_extremes ((hpresent hi).2 hhi) ((hpresent lo).2 hlo) fun m hm => ?_]
    · rfl
    · obtain ⟨i, h1, hn, hm⟩ := (hpresent m).1 hm
      exact hall i m h1 hn hm

/-! ## CurrentStatus: the flag set -/

/-- The ids of the flag set: the unrelated flags, and the pairs (R264, R265). -/
theorem mem_flagIds (raw : Nat → Bool) (b : Nat) : b ∈ flagIds raw ↔
    (5 ≤ b ∧ b ≤ 9 ∧ raw b = true)
    ∨ ∃ d q, d < 3 ∧ (q = 3 ∨ q = 4) ∧ raw d = true ∧ raw q = true ∧ b = 10 + 2 * d + (q - 3) := by
  simp only [flagIds, List.mem_append, List.mem_flatMap, List.mem_map, List.mem_filter, List.mem_cons,
    List.not_mem_nil, or_false, Bool.and_eq_true]
  constructor
  · rintro (⟨d, hd, q, ⟨hq, hrd, hrq⟩, rfl⟩ | ⟨hb, hr⟩)
    · exact .inr ⟨d, q, by omega, hq, hrd, hrq, rfl⟩
    · exact .inl ⟨by omega, by omega, hr⟩
  · rintro (⟨h5, h9, hr⟩ | ⟨d, q, hd, hq, hrd, hrq, rfl⟩)
    · exact .inr ⟨by omega, hr⟩
    · exact .inl ⟨d, by omega, q, ⟨hq, hrd, hrq⟩, rfl⟩

/-- The pairs of one domain flag are some of its two ids (R264). -/
theorem domainPairs_sublist (p : Nat → Bool) (d : Nat) :
    ((([3, 4] : List Nat).filter p).map (fun q => 10 + 2 * d + (q - 3))).Sublist [10 + 2 * d, 10 + 2 * d + 1] :=
  (List.filter_sublist (l := [3, 4])).map (fun q => 10 + 2 * d + (q - 3))

/-- No id stands twice: the flag set is a selection of eleven different ones (R265). -/
theorem flagIds_nodup (raw : Nat → Bool) : (flagIds raw).Nodup := by
  have hpairs := fun d => domainPairs_sublist (fun q => raw d && raw q) d
  have hsub : (flagIds raw).Sublist [10, 11, 12, 13, 14, 15, 5, 6, 7, 8, 9] :=
    ((hpairs 0).append ((hpairs 1).append ((hpairs 2).append (List.nil_sublist [])))).append List.filter_sublist
  exact hsub.nodup (by decide)

/-- Settles O52: the bits of the set are its ids, and the flags they are made of are the window's bits. -/
theorem compoundFlagsDerived : Obligations.CompoundFlagsDerived := by
  refine fun s hwf => ⟨fun hout => if_pos hout, fun hin => ⟨_, if_neg (Nat.not_lt.2 hin), fun b => ?_⟩⟩
  have hraw := rawFlag_eq_bit s hwf hin
  rw [sum_two_pow_testBit _ (flagIds_nodup _), decide_eq_true_iff, mem_flagIds]
  refine or_congr (and_congr_right fun _ => and_congr_right fun h9 => by rw [hraw b (by omega)])
    (exists_congr fun d => exists_congr fun q => and_congr_right fun hd => and_congr_right fun hq => ?_)
  rw [hraw d (by omega), hraw q (by omega)]

/-! ## CurrentStatus: the current -/

/-- The word of the current before the discharging bit is looked at: its own sign, 0 for the pattern (R215, R262). -/
theorem currentWord_eq (s : State) : fieldG .s16 s 1 .z 1 0 (-2) .a =
    if 3 ≤ s.pn then Value.num .a (-2)
      (if pktByte s (s.poff + 1) = 0xFF ∧ pktByte s (s.poff + 2) = 0xFF then 0
        else (pktByte s (s.poff + 1) ++ pktByte s (s.poff + 2)).toInt)
    else Value.absent := by
  rw [fieldG_two_bytes .s16 rfl s 1 .z 1 0 (-2) .a (fun a b => (a ++ b).toInt)
    fun a b => congrArg some (sext16_be_two a b)]
  simp [Nat.add_assoc]

/-- Settles O53: the current is absent with its word or its discharging byte, and negated with the bit. -/
theorem currentSignRule : Obligations.CurrentSignRule := by
  intro s
  refine ⟨fun hout => ?_, fun hword hbyte => ?_⟩
  · rw [currentValue, currentWord_eq]
    rcases hout with hword | hbyte
    · rw [if_neg (Nat.not_le.2 hword)]
      rfl
    · rw [winByte_outside hbyte]
      split
      · cases ‹_ = some _›
      · rfl
  · rw [currentValue, currentWord_eq, if_pos hword, winByte_inside hbyte]
    dsimp only [Value.num]
    split <;> rfl

/-! ## CurrentStatus: the entries -/

/-- Probe bit `b` of byte 0 of the window, clear where the byte is absent (R261, R266). -/
def probeFlag (s : State) (b : Nat) : Bool := decide (0 < s.pn) && (pktByte s s.poff).getLsbD b

/-- A probe entry's value (R227, R261). -/
theorem fieldBit_zero (s : State) (b : Nat) : fieldBit s 0 b =
    if 0 < s.pn then Value.bool (probeFlag s b) else Value.absent := by
  by_cases hin : 0 < s.pn
  · rw [if_pos hin, fieldBit, winByte_inside hin, probeFlag, decide_eq_true hin, Bool.true_and]
    rfl
  · rw [if_neg hin, fieldBit, winByte_outside (Nat.le_of_not_lt hin)]

/-- A probe exists exactly when its entry is true (R266). -/
theorem fieldBit_zero_eq_true_iff (s : State) (b : Nat) : fieldBit s 0 b = Value.bool true ↔ probeFlag s b = true := by
  rw [fieldBit_zero]
  by_cases hin : 0 < s.pn
  · rw [if_pos hin]
    cases probeFlag s b <;> decide
  · simp [probeFlag, hin, Value.absent, Value.bool]

/-- Where the ambient byte is, after the MOS byte if that exists (R266). -/
def ambientOffset (s : State) : Nat := 7 + s.cfg.csl.nt + (if probeFlag s s.cfg.csl.mospBit then 1 else 0)

/-- Where the shunt is, after the ambient byte if that exists (R266). -/
def shuntOffset (s : State) : Nat := ambientOffset s + (if probeFlag s s.cfg.csl.ambpBit then 1 else 0)

/-- The entries of `DCURR` before the cell temperatures (R261). -/
def currentFront (s : State) : List Entry :=
  [⟨0x10, 0, fieldBit s 0 s.cfg.csl.mospBit⟩, ⟨0x11, 0, fieldBit s 0 s.cfg.csl.ambpBit⟩, ⟨0x12, 0, currentValue s⟩,
    ⟨0x13, 0, flagsValue s⟩]

/-- The entries of `DCURR` after the cell temperatures (R261, R266). -/
def currentBack (s : State) : List Entry :=
  [⟨0x15, 0, if probeFlag s s.cfg.csl.mospBit then temperature s (7 + s.cfg.csl.nt) else Value.absent⟩,
    ⟨0x16, 0, if probeFlag s s.cfg.csl.ambpBit then temperature s (ambientOffset s) else Value.absent⟩,
    ⟨0x17, 0, fieldG .u16 s (shuntOffset s) .z 1 0 (-2) .ohm⟩,
    ⟨0x18, 0, balancingValue s (shuntOffset s + 2)⟩,
    ⟨0x19, 0, fieldG .u8 s (shuntOffset s + 5) .n 1 0 0 .none⟩,
    ⟨0x1A, 0, byteFlags s (shuntOffset s + 6)⟩,
    ⟨0x1B, 0, byteFlags s (shuntOffset s + 7)⟩]

/-- The entries of `DCURR`, the optional bytes decided by the probe bits (R261, R266). -/
theorem currentEntries_eq (s : State) : currentEntries s = currentFront s
    ++ (List.range s.cfg.csl.nt).map (fun j => ⟨0x14, BitVec.ofNat 8 (j + 1), temperature s (7 + j)⟩)
    ++ currentBack s := by
  simp only [currentEntries, currentFront, currentBack, shuntOffset, ambientOffset, fieldBit_zero_eq_true_iff, add_ite,
    Nat.add_zero]

/-- The number of entries of `DCURR` (R261). -/
theorem currentEntries_length (s : State) : (currentEntries s).length = 11 + s.cfg.csl.nt := by
  simp only [currentEntries_eq, List.length_append, List.length_map, List.length_range, currentFront, currentBack,
    List.length_cons, List.length_nil]
  omega

/-- A temperature byte (R261, R269). -/
theorem temperature_eq (s : State) (o : Nat) : temperature s o =
    if o < s.pn then Value.num .degc 0 ((pktByte s (s.poff + o)).toNat + s.cfg.csl.tAdd) else Value.absent :=
  fieldG_u8_eq s o _ 0 .degc

/-- A byte of flags (R261). -/
theorem byteFlags_eq (s : State) (o : Nat) : byteFlags s o =
    if o < s.pn then Value.flags (pktByte s (s.poff + o)).toNat else Value.absent := by
  by_cases hin : o < s.pn
  · rw [if_pos hin, byteFlags, winByte_inside hin]
  · rw [if_neg hin, byteFlags, winByte_outside (Nat.le_of_not_lt hin)]

/-- Three bytes big-endian (R72). -/
theorem be_three (a b c : Byte) : be [a, b, c] = a.toNat * 2 ^ 16 + b.toNat * 2 ^ 8 + c.toNat := by
  simp only [be, List.foldl_cons, List.foldl_nil]
  omega

/-- The balancing bits: three bytes, big-endian (R267). -/
theorem balancingValue_eq (s : State) (o : Nat) : balancingValue s o =
    if o + 3 ≤ s.pn then Value.flags ((pktByte s (s.poff + o)).toNat * 2 ^ 16
      + (pktByte s (s.poff + o + 1)).toNat * 2 ^ 8 + (pktByte s (s.poff + o + 2)).toNat) else Value.absent := by
  by_cases hin : o + 3 ≤ s.pn
  · rw [if_pos hin, balancingValue, memRead_inside hin]
    refine congrArg Value.flags (Eq.trans ?_ (be_three _ _ _))
    rfl
  · rw [if_neg hin, balancingValue, memRead_outside (Nat.lt_of_not_le hin)]

/-- Settles O54: each entry from its place in `currentEntries_eq`, its value by the equation of its kind. -/
theorem dcurrDecodesCurrentStatus : Obligations.DcurrDecodesCurrentStatus := by
  refine ⟨fun _ => rfl, fun s hb => ?_⟩
  have hes := currentEntries_eq s
  have hfront : (currentFront s).length = 4 := rfl
  have hlen := currentEntries_length s
  refine ⟨_, _, exec_program_idle (entries := currentEntries) rfl hb rfl hlen, rfl, ?_, ?_, outAt_front hes rfl,
    outAt_front hes rfl, fun j h1 hj => ?_, ?_, ?_, outAt_back hes 2 (by omega) rfl, ?_, ?_, ?_, ?_,
    fun k hk => outAt_outWrite_beyond hlen hk⟩
  · exact (outAt_front hes rfl).trans (congrArg _ (fieldBit_zero s _))
  · exact (outAt_front hes rfl).trans (congrArg _ (fieldBit_zero s _))
  · refine (outAt_body hes (j := j) (by omega) h1 hj).trans ?_
    rw [temperature_eq, Nat.sub_add_cancel h1, show 7 + (j - 1) = 6 + j by omega]
    rfl
  · refine (outAt_back hes 0 (by omega) rfl).trans ?_
    rw [temperature_eq]
    rfl
  · refine (outAt_back hes 1 (by omega) rfl).trans ?_
    rw [temperature_eq]
    rfl
  · exact (outAt_back hes 3 (by omega) rfl).trans (congrArg _ (balancingValue_eq s _))
  · refine (outAt_back hes 4 (by omega) rfl).trans ?_
    rw [fieldG_u8_eq, Int.add_zero]
    rfl
  · exact (outAt_back hes 5 (by omega) rfl).trans (congrArg _ (byteFlags_eq s _))
  · exact (outAt_back hes 6 (by omega) rfl).trans (congrArg _ (byteFlags_eq s _))

/-! ## PowerStatus -/

/-- The tail's marker byte is there and is 0x0D (R275). -/
def tailMarked (s : State) : Bool :=
  decide (s.cfg.psl.oMark < s.pn) && decide (pktByte s (s.poff + s.cfg.psl.oMark) = 0x0D)

/-- The condition of the tail (R275). -/
theorem winByte_mark_iff (s : State) : winByte s s.cfg.psl.oMark = some 0x0D ↔ tailMarked s = true := by
  by_cases hin : s.cfg.psl.oMark < s.pn
  · simp [tailMarked, winByte_inside hin, hin]
  · simp [tailMarked, winByte_outside (Nat.le_of_not_lt hin), hin]

/-- The tail under its marker byte (R275). -/
theorem powerTail_marked {s : State} (h : tailMarked s = true) : powerTail s =
    [⟨0x29, 0, fieldG .u8 s s.cfg.psl.oHw .n 1 0 0 .none⟩, ⟨0x2A, 0, frontEnd s.cfg (winByte s s.cfg.psl.oFe)⟩,
      ⟨0x2B, 0, fieldG .nl s s.cfg.psl.oFe .n 1 0 0 .none⟩] :=
  if_pos ((winByte_mark_iff s).2 h)

/-- The tail without it (R276). -/
theorem powerTail_unmarked {s : State} (h : tailMarked s = false) : powerTail s =
    [⟨0x29, 0, Value.absent⟩, ⟨0x2A, 0, Value.code 0xFF 0⟩, ⟨0x2B, 0, Value.absent⟩] :=
  if_neg (by rw [winByte_mark_iff, h]; exact Bool.false_ne_true)

/-- The tail has three entries either way (R273). -/
theorem powerTail_length (s : State) : (powerTail s).length = 3 := by
  cases h : tailMarked s
  · rw [powerTail_unmarked h]
    rfl
  · rw [powerTail_marked h]
    rfl

/-- A front-end nibble its table maps (R277). -/
theorem frontEnd_some {p : Params} {b id : Byte} (h : codeOf p 0xFF (BitVec.ofNat 8 (hiNibble b)) = some id) :
    frontEnd p (some b) = Value.code 0xFF id := by
  simp only [frontEnd, h]

/-- A front-end nibble its table does not map (R277). -/
theorem frontEnd_none {p : Params} {b : Byte} (h : codeOf p 0xFF (BitVec.ofNat 8 (hiNibble b)) = none) :
    frontEnd p (some b) = Value.rawhex (hiNibble b) := by
  simp only [frontEnd, h]

/-- The entries of `DPWR` before the cell voltages (R273). -/
def powerFront (s : State) : List Entry :=
  let l := s.cfg.psl
  [⟨0x20, 0, fieldG .u8 s l.oSoc .n 1 0 0 .pct⟩, ⟨0x21, 0, fieldG .u16 s l.oCyc .n 1 0 0 .none⟩,
    ⟨0x22, 0, fieldG .u32 s l.oDcap .n 1 0 l.capExp .none⟩, ⟨0x23, 0, fieldG .u32 s l.oFcap .n 1 0 l.capExp .none⟩,
    ⟨0x24, 0, fieldG .u32 s l.oRcap .n 1 0 l.capExp .none⟩, ⟨0x25, 0, fieldG .u16 s l.oDmin .m 1 0 0 .min⟩,
    ⟨0x26, 0, fieldG .u16 s l.oCmin .m 1 0 0 .min⟩, ⟨0x27, 0, fieldG .u16 s l.oVbat .n 1 0 l.vbatExp .v⟩]

/-- The entries of `DPWR`: those before the cell voltages, the voltages, the tail (R273, R274). -/
theorem powerEntries_eq (s : State) : powerEntries s = powerFront s
    ++ (List.range s.cfg.psl.nvc).map (fun j => ⟨0x28, BitVec.ofNat 8 (j + 1),
        fieldG .u16 s (s.cfg.psl.oVcell + 2 * j) .n 1 0 s.cfg.psl.vcellExp .v⟩)
    ++ powerTail s := rfl

/-- The number of entries of `DPWR` (R273). -/
theorem powerEntries_length (s : State) : (powerEntries s).length = 11 + s.cfg.psl.nvc := by
  simp only [powerEntries_eq, List.length_append, List.length_map, List.length_range, powerTail_length, powerFront,
    List.length_cons, List.length_nil]
  omega

/-- Settles O55: each entry from its place in `powerEntries_eq`, the tail's by whether its marker byte is there. -/
theorem dpwrDecodesPowerStatus : Obligations.DpwrDecodesPowerStatus := by
  refine ⟨fun _ => rfl, fun s hb => ?_⟩
  have hes := powerEntries_eq s
  have hfront : (powerFront s).length = 8 := rfl
  have hlen := powerEntries_length s
  refine ⟨_, _, exec_program_idle (entries := powerEntries) rfl hb rfl hlen, rfl, outAt_front hes rfl,
    outAt_front hes rfl, outAt_front hes rfl, outAt_front hes rfl, outAt_front hes rfl, outAt_front hes rfl,
    outAt_front hes rfl, outAt_front hes rfl, fun j h1 hj => ?_, fun hmark => ?_, fun hmark => ?_,
    fun k hk => outAt_outWrite_beyond hlen hk⟩
  · refine (outAt_body hes (j := j) (by omega) h1 hj).trans ?_
    rw [Nat.sub_add_cancel h1]
  · rw [powerTail_marked hmark] at hes
    have hfe : outAt (outWrite (powerEntries s) s.out) (9 + s.cfg.psl.nvc) =
        ⟨0x2A, 0, frontEnd s.cfg (winByte s s.cfg.psl.oFe)⟩ := outAt_back hes 1 (by omega) rfl
    refine ⟨outAt_back hes 0 (by omega) rfl, fun hout => hfe.trans ?_, fun hin => ⟨fun id hid => hfe.trans ?_,
      fun hnone => hfe.trans ?_⟩, outAt_back hes 2 (by omega) rfl⟩
    · rw [winByte_outside hout]
      rfl
    · rw [winByte_inside hin, frontEnd_some hid]
      rfl
    · rw [winByte_inside hin, frontEnd_none hnone]
      rfl
  · rw [powerTail_unmarked hmark] at hes
    exact ⟨outAt_back hes 0 (by omega) rfl, outAt_back hes 1 (by omega) rfl, outAt_back hes 2 (by omega) rfl⟩

end Sys2Proof.Proofs
end

section
/-! SUPPORT. The system commands (spec/44_system.md): that the decoder sends the listed illegal words to `illegal` (R105,
R124), what `NOP`, `SRST` and an illegal word leave of an idle block (R290 to R292), and the statements about them. -/

namespace Sys2Proof.Proofs

open Sys2Proof.Machine Sys2Proof.Laws

/-! ## What makes a listed word illegal -/

/-- The operation code by its number, as the decoder's match names it. -/
theorem opcOf_eq_ofNat {w : CmdWord} {n : Nat} (h : (opcOf w).toNat = n) : opcOf w = BitVec.ofNat 8 n := by
  rw [← h, BitVec.ofNat_toNat, BitVec.setWidth_eq]

/-- A word with an operation code of R104 is illegal by an unused bit or, in format G, by a reserved `SENT` or `UNIT`
(R124). -/
theorem wordIllegal_iff {w m : CmdWord} {c : Byte} (hc : opcOf w = c) (hm : unusedBits c = some m) :
    wordIllegal w = true ↔
      w &&& m ≠ 0 ∨ isFormatG c = true ∧ (w.extractLsb' 40 2 = 3 ∨ 7 ≤ (fieldUnit w).toNat) := by
  subst hc
  rw [opcOf] at hm ⊢
  simp only [wordIllegal, hm, fieldUnit, Bool.or_eq_true, Bool.and_eq_true, decide_eq_true_eq]

/-- Outside format G only an unused bit makes it illegal. -/
theorem unused_ne_zero {w m : CmdWord} {c : Byte} (h : wordIllegal w = true) (hc : opcOf w = c)
    (hm : unusedBits c = some m) (hG : isFormatG c = false) : w &&& m ≠ 0 := by
  rcases (wordIllegal_iff hc hm).1 h with hbits | ⟨hG', -⟩
  · exact hbits
  · rw [hG] at hG'
    cases hG'

/-! ## The formats on illegal words -/

/-- An unused bit in a run of them is a run that is not zero. -/
theorem extract_ne_zero {w m : CmdWord} (s n : Nat) (hrun : ∀ i, i < 64 → m.getLsbD i = decide (s ≤ i ∧ i < s + n))
    (hn : s + n ≤ 64) (h : w &&& m ≠ 0) : w.extractLsb' s n ≠ 0 :=
  fun hzero => h ((and_mask_zero_iff w m s n hrun hn).2 hzero)

/-- Format Z uses no bit below `OPC` (R101). -/
theorem formatZ_illegal {w : CmdWord} (i : Instr) (h : w &&& 0x00FFFFFFFFFFFFFF ≠ 0) : formatZ w i = .illegal w :=
  if_neg (extract_ne_zero 0 56 (by decide) (by decide) h)

/-- Formats N and O use `A` only. -/
theorem formatN_illegal {w : CmdWord} (mk : Byte → Instr) (h : w &&& 0x0000FFFFFFFFFFFF ≠ 0) :
    formatN w mk = .illegal w :=
  if_neg (extract_ne_zero 0 48 (by decide) (by decide) h)

/-- Format W uses `M` and `D` only. -/
theorem formatW_illegal {w : CmdWord} (mk : BitVec 16 → BitVec 16 → Instr) (h : w &&& 0x00FFFFFF00000000 ≠ 0) :
    formatW w mk = .illegal w :=
  if_neg (extract_ne_zero 32 24 (by decide) (by decide) h)

/-- Format K uses `A` and `B` only. -/
theorem formatK_illegal {w : CmdWord} (mk : Byte → Byte → Instr) (h : w &&& 0x000000FFFFFFFFFF ≠ 0) :
    formatK w mk = .illegal w :=
  if_neg (extract_ne_zero 0 40 (by decide) (by decide) h)

/-- Format B has two runs of unused bits, above and below `B[2:0]`. -/
theorem formatB_illegal {w : CmdWord} (mk : Byte → BitVec 3 → Instr) (h : w &&& 0x0000F8FFFFFFFFFF ≠ 0) :
    formatB w mk = .illegal w := by
  refine if_neg fun ⟨habove, hbelow⟩ => h ?_
  have hmask : (0x0000F8FFFFFFFFFF : CmdWord) = 0x0000F80000000000 ||| 0x000000FFFFFFFFFF := by decide
  rw [hmask, BitVec.and_or_distrib_left, (and_mask_zero_iff w 0x0000F80000000000 43 5 (by decide) (by decide)).2 habove,
    (and_mask_zero_iff w 0x000000FFFFFFFFFF 0 40 (by decide) (by decide)).2 hbelow, BitVec.or_self]

/-- In format G with a sentinel policy bits 47:42, then `SENT` and `UNIT` are what can be wrong (R102). -/
theorem formatGSent_illegal {w : CmdWord} (mk : Byte → Sent → BitVec 16 → BitVec 16 → BitVec 4 → UnitCode → Instr)
    (h : w &&& 0x0000FC0000000000 ≠ 0 ∨ w.extractLsb' 40 2 = 3 ∨ 7 ≤ (fieldUnit w).toNat) :
    formatGSent w mk = .illegal w := by
  unfold formatGSent
  rcases h with hbits | hsent | hunit
  · exact if_neg (extract_ne_zero 42 6 (by decide) (by decide) hbits)
  · rw [(sentOfCode_none_iff _).2 hsent, ite_self]
  · rw [(unitOfCode_none_iff _).2 hunit]
    cases sentOfCode (w.extractLsb' 40 2) <;> exact ite_self _

/-- In format G without one `SENT` is two bits of a field `B` that must be zero. -/
theorem formatG_illegal {w : CmdWord} (mk : Byte → BitVec 16 → BitVec 16 → BitVec 4 → UnitCode → Instr)
    (h : w &&& 0x0000FF0000000000 ≠ 0 ∨ w.extractLsb' 40 2 = 3 ∨ 7 ≤ (fieldUnit w).toNat) :
    formatG w mk = .illegal w := by
  unfold formatG
  rcases h with hbits | hsent | hunit
  · exact if_neg (extract_ne_zero 40 8 (by decide) (by decide) hbits)
  · refine if_neg fun hB => ?_
    rw [extract_sub_zero w 40 8 40 2 hB (by decide) (by decide)] at hsent
    exact absurd hsent (by decide)
  · rw [(unitOfCode_none_iff _).2 hunit, ite_self]

/-- The decoder sends every listed illegal word to `illegal`, by the format of its operation code (R105, R124). -/
theorem decodeCmd_of_wordIllegal {w : CmdWord} (h : wordIllegal w = true) : decodeCmd w = .illegal w := by
  have plain {n : Nat} {m : CmdWord} (hn : (opcOf w).toNat = n) := unused_ne_zero (m := m) h (opcOf_eq_ofNat hn)
  have inG {n : Nat} {m : CmdWord} (hn : (opcOf w).toNat = n) (hm : unusedBits (BitVec.ofNat 8 n) = some m) :=
    ((wordIllegal_iff (opcOf_eq_ofNat hn) hm).1 h).imp_right And.right
  unfold decodeCmd
  split
  case h_1 hn | h_2 hn | h_3 hn | h_5 hn | h_7 hn | h_21 hn | h_22 hn | h_23 hn =>
    exact formatZ_illegal _ (plain hn rfl rfl)
  case h_4 hn | h_6 hn | h_8 hn | h_9 hn | h_20 hn => exact formatN_illegal _ (plain hn rfl rfl)
  case h_10 hn => exact formatW_illegal _ (plain hn rfl rfl)
  case h_11 hn | h_14 hn | h_15 hn | h_16 hn | h_17 hn => exact formatG_illegal _ (inG hn rfl)
  case h_12 hn | h_13 hn => exact formatGSent_illegal _ (inG hn rfl)
  case h_18 hn => exact formatB_illegal _ (plain hn rfl rfl)
  case h_19 hn => exact formatK_illegal _ (plain hn rfl rfl)
  case h_24 => rfl

/-! ## The system commands of an idle block -/

/-- `NOP` ends with `OK` (R290). -/
theorem exec_nop_idle {s : State} (hb : s.status.busy = false) : exec .nop s = .next (ended .ok s) := by
  rw [show exec .nop s = hostCommand (finish .ok) s from rfl, hostCommand_idle hb, finish_accept]

/-- `SRST` ends with `OK` in the state its resets leave (R291). -/
theorem exec_srst_idle {s : State} (hb : s.status.busy = false) : exec .srst s = .next (ended .ok (softReset s)) := by
  rw [show exec .srst s = hostCommand (fun t => finish .ok (softReset t)) s from rfl, hostCommand_idle hb]
  rfl

/-- What is left of `STATUS` when a command of an idle block ends: only `DONE` and `CODE` are not as they were. -/
theorem ended_of_idle (c : Code) {s : State} (hb : s.status.busy = false) :
    ended c s = { s with status := { s.status with done := true, code := c }, opr := .none } := by
  rw [ended, ← hb]

/-- An illegal word ends at once with `ILLEGAL_CMD` and changes only `DONE` and `CODE` (R292, R313). -/
theorem exec_illegal_idle (w : CmdWord) {s : State} (hb : s.status.busy = false) : exec (.illegal w) s
    = .next { s with status := { s.status with done := true, code := .illegalCmd }, opr := .none } := by
  rw [show exec (.illegal w) s = hostCommand (finish .illegalCmd) s from rfl, hostCommand_idle hb, finish_accept,
    ended_of_idle _ hb]

/-- Settles O14: a busy block drops the two words as it does every word. -/
theorem nopAndSrst : Obligations.NopAndSrst :=
  ⟨fun _ => ⟨rfl, rfl⟩, fun _ hb => ⟨exec_nop_idle hb, exec_srst_idle hb⟩,
    fun s w rest hb _ hin => (wordWhileBusyIsDropped s w rest (.inl hin)).2 hb⟩

/-- Settles O15: the step runs what the word decodes to, which is `illegal`; a busy block drops it as it does every
word. -/
theorem illegalWordEndsIllegal : Obligations.IllegalWordEndsIllegal := by
  refine ⟨rfl, fun s w => ⟨exec_illegal_idle w, fun rest hill hin => ?_⟩⟩
  obtain ⟨hidle, hbusy⟩ := wordWhileBusyIsDropped s w rest (.inl hin)
  refine ⟨fun hb => ?_, hbusy⟩
  rw [hidle hb, decodeCmd_of_wordIllegal hill]
  exact exec_illegal_idle (s := { s with inbox := rest }) w hb

end Sys2Proof.Proofs
end

section
/-! SUPPORT. Decoding and encoding agree: words (spec/30_encoding.md R100 to R105), received frames (R112, R114 to R118) and
the SP packet (spec/41_codec.md R190 to R194), and the illegal words are those R124 lists. -/

namespace Sys2Proof.Proofs

open Sys2Proof.Machine Sys2Proof.Laws

/-! ## The formats on the words of the encoder -/

/-- Format Z on a word written from its fields. -/
theorem formatZ_wordOf (opc : Byte) (i : Instr) : formatZ (wordOf opc 0 0 0 0 0 0) i = i :=
  if_pos (formatZ_low_zero opc)

/-- Format N or O on a word written from its fields. -/
theorem formatN_wordOf (opc a : Byte) (mk : Byte → Instr) : formatN (wordOf opc a 0 0 0 0 0) mk = mk a := by
  rw [formatN, if_pos (formatN_low_zero opc a), fieldA_wordOf]

/-- Format W on a word written from its fields. -/
theorem formatW_wordOf (opc : Byte) (m d : BitVec 16) (mk : BitVec 16 → BitVec 16 → Instr) :
    formatW (wordOf opc 0 0 0 0 m d) mk = mk m d := by
  rw [formatW, if_pos (formatW_gap_zero opc m d), fieldM_wordOf, fieldD_wordOf]

/-- Format K on a word written from its fields. -/
theorem formatK_wordOf (opc a b : Byte) (mk : Byte → Byte → Instr) : formatK (wordOf opc a b 0 0 0 0) mk = mk a b := by
  rw [formatK, if_pos (formatBK_low_zero opc a b), fieldA_wordOf, fieldB_wordOf]

/-- The low bits of a field that was widened are the field. -/
theorem extract_setWidth_low {n : Nat} (x : BitVec n) (h : n ≤ 8) : (x.setWidth 8).extractLsb' 0 n = x := by
  apply BitVec.eq_of_getLsbD_eq
  intro i hi
  simp [hi, show i < 8 by omega]

/-- The high bits of a field that was widened are zero. -/
theorem extract_setWidth_high {n : Nat} (x : BitVec n) (k : Nat) : (x.setWidth 8).extractLsb' n k = 0 := by
  apply BitVec.eq_of_getLsbD_eq
  intro i _
  simp [BitVec.getLsbD_extractLsb', BitVec.getLsbD_setWidth]

/-- Format B on a word written from its fields. -/
theorem formatB_wordOf (opc a : Byte) (bit : BitVec 3) (mk : Byte → BitVec 3 → Instr) :
    formatB (wordOf opc a (bit.setWidth 8) 0 0 0 0) mk = mk a bit := by
  have hhigh : (wordOf opc a (bit.setWidth 8) 0 0 0 0).extractLsb' 43 5 = 0 := by
    rw [extract_in_fieldB_wordOf _ _ _ _ _ _ _ 43 5 (by decide) (by decide)]
    exact extract_setWidth_high bit 5
  rw [formatB, if_pos ⟨hhigh, formatBK_low_zero _ _ _⟩, fieldA_wordOf,
    extract_in_fieldB_wordOf _ _ _ _ _ _ _ 40 3 (by decide) (by decide)]
  exact congrArg (mk a) (extract_setWidth_low bit (by decide))

/-- Format G on a word written from its fields. -/
theorem formatG_wordG (opc off : Byte) (mul add : BitVec 16) (exp : BitVec 4) (unit : UnitCode)
    (mk : Byte → BitVec 16 → BitVec 16 → BitVec 4 → UnitCode → Instr) :
    formatG (wordG opc off 0 mul add exp unit) mk = mk off mul add exp unit := by
  simp only [wordG, formatG, fieldA_wordOf, fieldB_wordOf, fieldM_wordOf, fieldD_wordOf, fieldExp_wordOf,
    fieldUnit_wordOf, unitOfCode_codeOfUnit]
  rfl

/-- Format G with a sentinel policy on a word written from its fields. -/
theorem formatGSent_wordG (opc off : Byte) (sent : Sent) (mul add : BitVec 16) (exp : BitVec 4) (unit : UnitCode)
    (mk : Byte → Sent → BitVec 16 → BitVec 16 → BitVec 4 → UnitCode → Instr) :
    formatGSent (wordG opc off (codeOfSent sent) mul add exp unit) mk = mk off sent mul add exp unit := by
  have hhigh : (wordG opc off (codeOfSent sent) mul add exp unit).extractLsb' 42 6 = 0 := by
    rw [wordG, extract_in_fieldB_wordOf _ _ _ _ _ _ _ 42 6 (by decide) (by decide)]
    exact extract_setWidth_high _ 6
  have hsent : (wordG opc off (codeOfSent sent) mul add exp unit).extractLsb' 40 2 = codeOfSent sent := by
    rw [wordG, extract_in_fieldB_wordOf _ _ _ _ _ _ _ 40 2 (by decide) (by decide)]
    exact extract_setWidth_low _ (by decide)
  rw [formatGSent, if_pos hhigh, hsent, sentOfCode_codeOfSent]
  simp only [wordG, fieldA_wordOf, fieldM_wordOf, fieldD_wordOf, fieldExp_wordOf, fieldUnit_wordOf,
    unitOfCode_codeOfUnit]

/-! ## What is encoded decodes -/

/-- The word of a command decodes to it, by the format of its operation code (R100 to R104). -/
theorem decode_encode_command (p : Params) (k : Byte) (i : Instr) (hi : (rowOpcode i).isSome) :
    decode p k (encode p i) = .instr i := by
  cases i with
  | nop | srst | frs | ufs | depad | dvolt | dcurr | dpwr =>
    rw [encode, decode, decodeCmd, opcOf_wordOf]
    exact congrArg _ (formatZ_wordOf ..)
  | fra | ufa | bld | val | gts =>
    rw [encode, decode, decodeCmd, opcOf_wordOf]
    exact congrArg _ (formatN_wordOf ..)
  | setw =>
    rw [encode, decode, decodeCmd, opcOf_wordOf]
    exact congrArg _ (formatW_wordOf ..)
  | gu8 | gu32 | gnh | gnl | gbcd =>
    rw [encode, decode, decodeCmd, opcOf_wordG]
    exact congrArg _ (formatG_wordG ..)
  | gu16 | gs16 =>
    rw [encode, decode, decodeCmd, opcOf_wordG]
    exact congrArg _ (formatGSent_wordG ..)
  | gbit =>
    rw [encode, decode, decodeCmd, opcOf_wordOf]
    exact congrArg _ (formatB_wordOf ..)
  | gcode =>
    rw [encode, decode, decodeCmd, opcOf_wordOf]
    exact congrArg _ (formatK_wordOf ..)
  | _ => cases hi

/-- A frame within its length is decoded by its class in a running `UFS`. -/
theorem decode_sentinel {p : Params} {k : Byte} {f : Frame} {i : Instr} (hlen : f.len ≤ 8)
    (hi : classifySentinel p f = i) : decode p k (.sentinel f) = .instr i := by
  have hwf : f.wf = true := decide_eq_true hlen
  rw [decode, if_pos hwf, hi]

/-- A frame within its length is decoded by its class in a running `UFA`. -/
theorem decode_addressed {p : Params} {k : Byte} {f : Frame} {i : Instr} (hlen : f.len ≤ 8)
    (hi : classifyAddressed k f = i) : decode p k (.addressed f) = .instr i := by
  have hwf : f.wf = true := decide_eq_true hlen
  rw [decode, if_pos hwf, hi]

/-- A data frame of eight bytes decodes to them (R112). -/
theorem decode_sentinelData (p : Params) (k : Byte) (d : List Byte) (hw : p.wf = true) (hd : d.length = 8) :
    decode p k (.sentinel ⟨p.rxSidData, d⟩) = .instr (.frameSentinelData d) := by
  obtain ⟨hsd, -, -⟩ := rxSids_distinct p hw
  refine decode_sentinel (Nat.le_of_eq hd) ?_
  rw [classifySentinel_data p _ hsd.symm rfl, map_byte_eq_data _ hd]

/-- The bytes of an addressed frame: its node, its chunk, its marker (R114). -/
theorem addressedData_bytes (id : FrameId) (node marker : Byte) (c : List Byte) (hc : c.length ≤ 6) :
    let f : Frame := ⟨id, addressedData node marker c⟩
    f.len = 8 ∧ f.byte 0 = node ∧ f.byte 7 = marker ∧ f.chunk c.length = c := by
  have hlen : (addressedData node marker c).length = 8 := addressedData_length node marker c hc
  refine ⟨hlen, rfl, ?_, ?_⟩
  · rw [Frame.byte, addressedData_eq node marker c hc]
    rfl
  · rw [frame_chunk_eq_take _ _ (by rw [Frame.len, hlen]; omega)]
    simp [addressedData]

/-- The header frame of a node decodes to its total (R115, R118). -/
theorem decode_header (p : Params) (k total : Byte) :
    decode p k (.addressed ⟨p.txAid, addressedData k 0 [total]⟩) = .instr (.frameAddressedHeader k total) :=
  decode_addressed (Nat.le_refl 8) (classifyAddressed_header k _ rfl rfl rfl)

/-- The chunk frame with marker `m` of a node decodes to its chunk (R116, R118). -/
theorem decode_chunk (p : Params) (k : Byte) (m : Nat) (c : List Byte) (h1 : 1 ≤ m) (h6 : m ≤ 6)
    (hc : c.length = chunkCap m) :
    decode p k (.addressed ⟨p.txAid, addressedData k (BitVec.ofNat 8 m) c⟩) = .instr (chunkInstr m k c) := by
  obtain ⟨hlen, hnode, hmarker, hchunk⟩ :=
    addressedData_bytes p.txAid k (BitVec.ofNat 8 m) c (hc ▸ chunkCap_le_six m)
  have hm : (BitVec.ofNat 8 m).toNat = m := by rw [BitVec.toNat_ofNat, Nat.mod_eq_of_lt (by omega)]
  refine decode_addressed (Nat.le_of_eq hlen) ?_
  rw [classifyAddressed_chunk k _ m h1 h6 hlen hnode (by rw [hmarker, hm]), ← hc, hchunk]

/-- Settles O2: a command decodes by its format, an illegal word by the list of R124, a frame by its class, and a packet by
its bytes. -/
theorem decodeInvertsEncode : Obligations.DecodeInvertsEncode := by
  intro p k i hp hw hk
  obtain ⟨-, hse, hde⟩ := rxSids_distinct p hp
  cases i with
  | illegal w => exact congrArg Decoded.instr (decodeCmd_of_wordIllegal hw)
  | frameSentinelStart => exact decode_sentinel (Nat.le_refl 8) (classifySentinel_start p _ rfl)
  | frameSentinelData d => exact decode_sentinelData p k d hp (of_decide_eq_true hw)
  | frameSentinelEnd => exact decode_sentinel (Nat.le_refl 8) (classifySentinel_end p _ hse.symm hde.symm rfl)
  | frameSentinelOther id =>
    obtain ⟨hs, hd, he⟩ := of_decide_eq_true hk
    exact decode_sentinel (Nat.le_refl 8) (classifySentinel_other p _ hs hd he)
  | frameAddressedHeader node total =>
    obtain rfl := of_decide_eq_true hk
    exact decode_header p node total
  | frameAddressedChunk1 node c =>
    obtain rfl := of_decide_eq_true hk
    exact decode_chunk p node 1 c (by decide) (by decide) (of_decide_eq_true hw)
  | frameAddressedChunk2 node c =>
    obtain rfl := of_decide_eq_true hk
    exact decode_chunk p node 2 c (by decide) (by decide) (of_decide_eq_true hw)
  | frameAddressedChunk3 node c =>
    obtain rfl := of_decide_eq_true hk
    exact decode_chunk p node 3 c (by decide) (by decide) (of_decide_eq_true hw)
  | frameAddressedChunk4 node c =>
    obtain rfl := of_decide_eq_true hk
    exact decode_chunk p node 4 c (by decide) (by decide) (of_decide_eq_true hw)
  | frameAddressedChunk5 node c =>
    obtain rfl := of_decide_eq_true hk
    exact decode_chunk p node 5 c (by decide) (by decide) (of_decide_eq_true hw)
  | frameAddressedChunk6 node c =>
    obtain rfl := of_decide_eq_true hk
    exact decode_chunk p node 6 c (by decide) (by decide) (of_decide_eq_true hw)
  | frameAddressedIgnored f =>
    simp only [Instr.inContext, Frame.ignoredBy, Bool.or_eq_true, decide_eq_true_eq, or_assoc] at hk
    exact decode_addressed (of_decide_eq_true hw) (classifyAddressed_ignored k f hk)
  | packetSp addr body => exact decodePacket_packetBytes addr body (of_decide_eq_true hw)
  | _ => exact decode_encode_command p k _ rfl

/-! ## What is decoded encodes -/

/-- A word without bits below `B` is its first three fields (R100). -/
theorem wordOf_of_low_zero {w : CmdWord} (h : w.extractLsb' 0 40 = 0) :
    wordOf (opcOf w) (fieldA w) (fieldB w) 0 0 0 0 = w := by
  have hexp : fieldExp w = 0 := extract_sub_zero w 0 40 36 4 h (by decide) (by decide)
  have hunit : fieldUnit w = 0 := extract_sub_zero w 0 40 32 4 h (by decide) (by decide)
  have hm : fieldM w = 0 := extract_sub_zero w 0 40 16 16 h (by decide) (by decide)
  have hd : fieldD w = 0 := extract_sub_zero w 0 40 0 16 h (by decide) (by decide)
  have hw := wordOf_fields w
  rwa [hexp, hunit, hm, hd] at hw

/-- A field in the low bits of `B` is `B` when the bits above it are zero (R101, R102). -/
theorem setWidth_low_eq_fieldB {w : CmdWord} {n : Nat} (h : w.extractLsb' (40 + n) (8 - n) = 0) :
    (w.extractLsb' 40 n).setWidth 8 = fieldB w := by
  apply BitVec.eq_of_getLsbD_eq
  intro i hi
  by_cases hin : i < n
  · simp [fieldB, hin, hi]
  · have hbit := congrArg (fun x => x.getLsbD (i - n)) h
    simp only [BitVec.getLsbD_extractLsb', show 40 + n + (i - n) = 40 + i by omega] at hbit
    simpa [fieldB, hin, hi, show i - n < 8 - n by omega] using hbit

/-- The code of a unit that a field decodes to is the field (R43). -/
theorem codeOfUnit_of_unitOfCode {c : BitVec 4} {u : UnitCode} (h : unitOfCode c = some u) : codeOfUnit u = c := by
  have hall : ∀ c : BitVec 4, ∀ u ∈ unitOfCode c, codeOfUnit u = c := by decide
  exact hall c u h

/-- The code of a sentinel policy that a field decodes to is the field (R102). -/
theorem codeOfSent_of_sentOfCode {c : BitVec 2} {s : Sent} (h : sentOfCode c = some s) : codeOfSent s = c := by
  have hall : ∀ c : BitVec 2, ∀ s ∈ sentOfCode c, codeOfSent s = c := by decide
  exact hall c s h

section

variable {p : Params} {w : CmdWord}

/-- A word of format Z is put back together (R101). -/
theorem encode_formatZ {i : Instr} (hi : encode p i = .cmd (wordOf (opcOf w) 0 0 0 0 0 0)) :
    encode p (formatZ w i) = .cmd w := by
  unfold formatZ
  split
  next hz =>
    have hA : fieldA w = 0 := extract_sub_zero w 0 56 48 8 hz (by decide) (by decide)
    have hB : fieldB w = 0 := extract_sub_zero w 0 56 40 8 hz (by decide) (by decide)
    have hw := wordOf_of_low_zero (extract_sub_zero w 0 56 0 40 hz (by decide) (by decide))
    rw [hA, hB] at hw
    rw [hi, hw]
  next => rfl

/-- A word of format N or O is put back together (R101). -/
theorem encode_formatN {mk : Byte → Instr} (hmk : ∀ a, encode p (mk a) = .cmd (wordOf (opcOf w) a 0 0 0 0 0)) :
    encode p (formatN w mk) = .cmd w := by
  unfold formatN
  split
  next hz =>
    have hB : fieldB w = 0 := extract_sub_zero w 0 48 40 8 hz (by decide) (by decide)
    have hw := wordOf_of_low_zero (extract_sub_zero w 0 48 0 40 hz (by decide) (by decide))
    rw [hB] at hw
    rw [hmk, hw]
  next => rfl

/-- A word of format K is put back together (R101). -/
theorem encode_formatK {mk : Byte → Byte → Instr}
    (hmk : ∀ a b, encode p (mk a b) = .cmd (wordOf (opcOf w) a b 0 0 0 0)) : encode p (formatK w mk) = .cmd w := by
  unfold formatK
  split
  next hz => rw [hmk, wordOf_of_low_zero hz]
  next => rfl

/-- A word of format B is put back together (R101). -/
theorem encode_formatB {mk : Byte → BitVec 3 → Instr}
    (hmk : ∀ a bit, encode p (mk a bit) = .cmd (wordOf (opcOf w) a (bit.setWidth 8) 0 0 0 0)) :
    encode p (formatB w mk) = .cmd w := by
  unfold formatB
  split
  next hz => rw [hmk, setWidth_low_eq_fieldB hz.1, wordOf_of_low_zero hz.2]
  next => rfl

/-- A word of format W is put back together (R101). -/
theorem encode_formatW {mk : BitVec 16 → BitVec 16 → Instr}
    (hmk : ∀ m d, encode p (mk m d) = .cmd (wordOf (opcOf w) 0 0 0 0 m d)) : encode p (formatW w mk) = .cmd w := by
  unfold formatW
  split
  next hz =>
    have hA : fieldA w = 0 := extract_sub_zero w 32 24 48 8 hz (by decide) (by decide)
    have hB : fieldB w = 0 := extract_sub_zero w 32 24 40 8 hz (by decide) (by decide)
    have hexp : fieldExp w = 0 := extract_sub_zero w 32 24 36 4 hz (by decide) (by decide)
    have hunit : fieldUnit w = 0 := extract_sub_zero w 32 24 32 4 hz (by decide) (by decide)
    have hw := wordOf_fields w
    rw [hA, hB, hexp, hunit] at hw
    rw [hmk, hw]
  next => rfl

/-- A word of format G is put back together (R101). -/
theorem encode_formatG {mk : Byte → BitVec 16 → BitVec 16 → BitVec 4 → UnitCode → Instr}
    (hmk : ∀ a m d exp unit, encode p (mk a m d exp unit) = .cmd (wordG (opcOf w) a 0 m d exp unit)) :
    encode p (formatG w mk) = .cmd w := by
  unfold formatG
  split
  next hB =>
    split
    next unit hunit =>
      have hw := wordOf_fields w
      rw [hB, ← codeOfUnit_of_unitOfCode hunit] at hw
      rw [hmk]
      exact congrArg Wire.cmd hw
    next => rfl
  next => rfl

/-- A word of format G with a sentinel policy is put back together (R101). -/
theorem encode_formatGSent {mk : Byte → Sent → BitVec 16 → BitVec 16 → BitVec 4 → UnitCode → Instr}
    (hmk : ∀ a sent m d exp unit,
      encode p (mk a sent m d exp unit) = .cmd (wordG (opcOf w) a (codeOfSent sent) m d exp unit)) :
    encode p (formatGSent w mk) = .cmd w := by
  unfold formatGSent
  split
  next hz =>
    split
    next sent unit hsent hunit =>
      rw [hmk, wordG, codeOfSent_of_sentOfCode hsent, codeOfUnit_of_unitOfCode hunit, setWidth_low_eq_fieldB hz,
        wordOf_fields]
    next => rfl
  next => rfl

end

/-- Settles O3: by the format of the word's operation code, whose fields the encoder puts back in their places. -/
theorem encodeInvertsWordDecode : Obligations.EncodeInvertsWordDecode := by
  intro p w
  unfold decodeCmd
  split
  case h_1 hn | h_2 hn | h_3 hn | h_5 hn | h_7 hn | h_21 hn | h_22 hn | h_23 hn =>
    exact encode_formatZ (by rw [opcOf_eq_ofNat hn]; rfl)
  case h_4 hn | h_6 hn | h_8 hn | h_9 hn | h_20 hn => exact encode_formatN fun _ => by rw [opcOf_eq_ofNat hn]; rfl
  case h_10 hn => exact encode_formatW fun _ _ => by rw [opcOf_eq_ofNat hn]; rfl
  case h_11 hn | h_14 hn | h_15 hn | h_16 hn | h_17 hn =>
    exact encode_formatG fun _ _ _ _ _ => by rw [opcOf_eq_ofNat hn]; rfl
  case h_12 hn | h_13 hn => exact encode_formatGSent fun _ _ _ _ _ _ => by rw [opcOf_eq_ofNat hn]; rfl
  case h_18 hn => exact encode_formatB fun _ _ => by rw [opcOf_eq_ofNat hn]; rfl
  case h_19 hn => exact encode_formatK fun _ _ => by rw [opcOf_eq_ofNat hn]; rfl
  case h_24 => rfl

/-! ## The illegal words -/

/-- An operation code that is not in R104 makes its word illegal (R124). -/
theorem wordIllegal_of_no_opcode {w : CmdWord} (h : unusedBits (opcOf w) = none) : wordIllegal w = true := by
  rw [opcOf] at h
  simp only [wordIllegal, h]

/-- A run of unused bits that is not zero is an unused bit that is not. -/
theorem and_mask_ne_zero {w m : CmdWord} (s n : Nat) (hrun : ∀ i, i < 64 → m.getLsbD i = decide (s ≤ i ∧ i < s + n))
    (hn : s + n ≤ 64) (h : w.extractLsb' s n ≠ 0) : w &&& m ≠ 0 :=
  fun hzero => h ((and_mask_zero_iff w m s n hrun hn).1 hzero)

section

variable {w : CmdWord}

/-- In format Z an unused bit is all that can be wrong. -/
theorem unused_of_formatZ_illegal {i : Instr} (h : formatZ w i = .illegal w) (hi : i ≠ .illegal w) :
    w &&& 0x00FFFFFFFFFFFFFF ≠ 0 :=
  and_mask_ne_zero 0 56 (by decide) (by decide) fun hz => hi ((if_pos hz).symm.trans h)

/-- In format N or O an unused bit is all that can be wrong. -/
theorem unused_of_formatN_illegal {mk : Byte → Instr} (h : formatN w mk = .illegal w)
    (hmk : ∀ a, mk a ≠ .illegal w) : w &&& 0x0000FFFFFFFFFFFF ≠ 0 :=
  and_mask_ne_zero 0 48 (by decide) (by decide) fun hz => hmk _ ((if_pos hz).symm.trans h)

/-- In format W an unused bit is all that can be wrong. -/
theorem unused_of_formatW_illegal {mk : BitVec 16 → BitVec 16 → Instr} (h : formatW w mk = .illegal w)
    (hmk : ∀ m d, mk m d ≠ .illegal w) : w &&& 0x00FFFFFF00000000 ≠ 0 :=
  and_mask_ne_zero 32 24 (by decide) (by decide) fun hz => hmk _ _ ((if_pos hz).symm.trans h)

/-- In format K an unused bit is all that can be wrong. -/
theorem unused_of_formatK_illegal {mk : Byte → Byte → Instr} (h : formatK w mk = .illegal w)
    (hmk : ∀ a b, mk a b ≠ .illegal w) : w &&& 0x000000FFFFFFFFFF ≠ 0 :=
  and_mask_ne_zero 0 40 (by decide) (by decide) fun hz => hmk _ _ ((if_pos hz).symm.trans h)

/-- In format B an unused bit is all that can be wrong. -/
theorem unused_of_formatB_illegal {mk : Byte → BitVec 3 → Instr} (h : formatB w mk = .illegal w)
    (hmk : ∀ a b, mk a b ≠ .illegal w) : w &&& 0x0000F8FFFFFFFFFF ≠ 0 := by
  have hmask : (0x0000F8FFFFFFFFFF : CmdWord) = 0x0000F80000000000 ||| 0x000000FFFFFFFFFF := by decide
  rw [hmask, BitVec.and_or_distrib_left]
  intro hzero
  obtain ⟨habove, hbelow⟩ := BitVec.or_eq_zero_iff.1 hzero
  refine hmk _ _ ((if_pos ⟨?_, ?_⟩).symm.trans h)
  · exact (and_mask_zero_iff w 0x0000F80000000000 43 5 (by decide) (by decide)).1 habove
  · exact (and_mask_zero_iff w 0x000000FFFFFFFFFF 0 40 (by decide) (by decide)).1 hbelow

/-- In format G without a sentinel policy an unused bit, or the unit, is what was wrong (R102). -/
theorem unused_of_formatG_illegal {mk : Byte → BitVec 16 → BitVec 16 → BitVec 4 → UnitCode → Instr}
    (h : formatG w mk = .illegal w) (hmk : ∀ a m d exp unit, mk a m d exp unit ≠ .illegal w) :
    w &&& 0x0000FF0000000000 ≠ 0 ∨ w.extractLsb' 40 2 = 3 ∨ 7 ≤ (fieldUnit w).toNat := by
  by_cases hB : fieldB w = 0
  · rw [formatG, if_pos hB] at h
    cases hunit : unitOfCode (fieldUnit w) with
    | none => exact .inr (.inr ((unitOfCode_none_iff _).1 hunit))
    | some unit =>
      rw [hunit] at h
      exact absurd h (hmk _ _ _ _ _)
  · exact .inl (and_mask_ne_zero 40 8 (by decide) (by decide) hB)

/-- In format G with one an unused bit, the policy or the unit (R102). -/
theorem unused_of_formatGSent_illegal {mk : Byte → Sent → BitVec 16 → BitVec 16 → BitVec 4 → UnitCode → Instr}
    (h : formatGSent w mk = .illegal w) (hmk : ∀ a sent m d exp unit, mk a sent m d exp unit ≠ .illegal w) :
    w &&& 0x0000FC0000000000 ≠ 0 ∨ w.extractLsb' 40 2 = 3 ∨ 7 ≤ (fieldUnit w).toNat := by
  by_cases hhigh : w.extractLsb' 42 6 = 0
  · rw [formatGSent, if_pos hhigh] at h
    cases hsent : sentOfCode (w.extractLsb' 40 2) with
    | none => exact .inr (.inl ((sentOfCode_none_iff _).1 hsent))
    | some sent =>
      cases hunit : unitOfCode (fieldUnit w) with
      | none => exact .inr (.inr ((unitOfCode_none_iff _).1 hunit))
      | some unit =>
        rw [hsent, hunit] at h
        exact absurd h (hmk _ _ _ _ _ _)
  · exact .inl (and_mask_ne_zero 42 6 (by decide) (by decide) hhigh)

end

/-- A word that the decoder calls illegal is one R124 lists, by the format of its operation code. -/
theorem wordIllegal_of_decodeCmd {w : CmdWord} (h : decodeCmd w = .illegal w) : wordIllegal w = true := by
  have plain {n : Nat} {m : CmdWord} (hn : (opcOf w).toNat = n) (hm : unusedBits (BitVec.ofNat 8 n) = some m)
      (hbits : w &&& m ≠ 0) : wordIllegal w = true := (wordIllegal_iff (opcOf_eq_ofNat hn) hm).2 (.inl hbits)
  have inG {n : Nat} {m : CmdWord} (hn : (opcOf w).toNat = n) (hm : unusedBits (BitVec.ofNat 8 n) = some m)
      (hG : isFormatG (BitVec.ofNat 8 n) = true)
      (hbits : w &&& m ≠ 0 ∨ w.extractLsb' 40 2 = 3 ∨ 7 ≤ (fieldUnit w).toNat) : wordIllegal w = true :=
    (wordIllegal_iff (opcOf_eq_ofNat hn) hm).2 (hbits.imp_right (And.intro hG))
  by_cases hopc : unusedBits (opcOf w) = none
  · exact wordIllegal_of_no_opcode hopc
  unfold decodeCmd at h
  split at h
  case h_1 hn | h_2 hn | h_3 hn | h_5 hn | h_7 hn | h_21 hn | h_22 hn | h_23 hn =>
    exact plain hn rfl (unused_of_formatZ_illegal h nofun)
  case h_4 hn | h_6 hn | h_8 hn | h_9 hn | h_20 hn => exact plain hn rfl (unused_of_formatN_illegal h nofun)
  case h_10 hn => exact plain hn rfl (unused_of_formatW_illegal h nofun)
  case h_11 hn | h_14 hn | h_15 hn | h_16 hn | h_17 hn => exact inG hn rfl rfl (unused_of_formatG_illegal h nofun)
  case h_12 hn | h_13 hn => exact inG hn rfl rfl (unused_of_formatGSent_illegal h nofun)
  case h_18 hn => exact plain hn rfl (unused_of_formatB_illegal h nofun)
  case h_19 hn => exact plain hn rfl (unused_of_formatK_illegal h nofun)
  case h_24 =>
    have hlisted := opcode_listed _ hopc
    simp_all [← BitVec.toNat_inj]

/-- Settles O4: the two directions, each by the format of the operation code. -/
theorem illegalWordsAreThoseListed : Obligations.IllegalWordsAreThoseListed :=
  fun _ => ⟨wordIllegal_of_decodeCmd, decodeCmd_of_wordIllegal⟩

/-! ## The words of the test vectors -/

/-- Settles O1: each word's operation code and fields are numbers. -/
theorem specWordsDecode : Obligations.SpecWordsDecode := by
  unfold Obligations.SpecWordsDecode
  decide

end Sys2Proof.Proofs
end

section
/-! SUPPORT. What an instruction can change, said once: the run of a command (spec/00_scope.md R10, spec/60_exceptions.md
R300, R301), a frame rule and the attempt it is part of (spec/40_framer.md R151), and the statements that follow. -/

namespace Sys2Proof.Proofs

open Sys2Proof.Machine Sys2Proof.Laws

/-! ## The run of a command -/

/-- Everything the run of an accepted command can leave, each with what it guarantees of its operands. -/
inductive RunEffect (i : Instr) (t : State) : State → Prop where
  /-- the end alone: `NOP`, an illegal word, what is refused, a `DEPAD` without padding -/
  | only (c : Code) : RunEffect i t (finish c t)
  /-- `SRST` (R291) -/
  | reset (command : i = .srst) : RunEffect i t (finish .ok (softReset t))
  /-- frames sent (R141, R145), each with its 8 bytes (R110) -/
  | sent (fs : List Frame) (command : i = .frs ∨ ∃ k, i = .fra k) (full : ∀ f ∈ fs, f.data.length = 8) :
    RunEffect i t (finish .ok (sendAll fs t))
  /-- the start of a reassembly (R150) -/
  | started (o : Opr) (k : Byte) (runs : o ≠ .none) : RunEffect i t (startReassembly o { t with knode := k })
  /-- a buffer cut to a length (R175) -/
  | shortened (n : Nat) (shorter : n ≤ t.plen) : RunEffect i t (finish .ok (clearWindow { t with plen := n }))
  /-- a buffer replaced by bytes it can hold (R192) -/
  | replaced (bs : List Byte) (room : bs.length ≤ pktCap) : RunEffect i t (finish .ok (setBuffer bs t))
  /-- a window inside the buffer, the cleared one included (R199, R200, R212) -/
  | windowed (c : Code) (poff pn : Nat) (vaddr vlen : Byte) (inside : poff + pn ≤ t.plen) :
    RunEffect i t (finish c { t with poff := poff, pn := pn, vaddr := vaddr, vlen := vlen })
  /-- a field read (R216) -/
  | valued (v : Value) (shaped : v.shaped) : RunEffect i t (finish .ok { t with res := v })
  /-- a decode program (R251) -/
  | decoded (es : List Entry) (room : t.cfg.wf = true → es.length ≤ outCap) :
    RunEffect i t (finish .ok { t with out := outWrite es t.out, outn := es.length })

/-- Every frame of sentinel mode has 8 data bytes (R110, R111, R141). -/
theorem sentinelFrames_full (p : Params) (bs : List Byte) : ∀ f ∈ sentinelFrames p bs, f.data.length = 8 := by
  intro f hf
  simp only [sentinelFrames, List.mem_append, List.mem_singleton, List.mem_map] at hf
  rcases hf with (rfl | ⟨j, -, rfl⟩) | rfl
  · rfl
  · simp [dataFrame]
  · rfl

/-- Every frame of addressed mode has 8 data bytes (R110, R114). -/
theorem addressedFrames_full (p : Params) (k : Byte) (bs : List Byte) :
    ∀ f ∈ addressedFrames p k bs, f.data.length = 8 := by
  intro f hf
  rcases List.mem_cons.1 hf with rfl | hf
  · rfl
  · obtain ⟨m, -, rfl⟩ := List.mem_map.1 hf
    exact (chunkFrame_bytes p k bs m).1

/-- The payload of a packet that passes the checks is inside the buffer (R199). -/
theorem packetAccepted_inside {e : Byte} {t : State} (h : PassesChecks e t) :
    (packetAccepted t).poff + (packetAccepted t).pn ≤ t.plen := by
  have hlen := h.length_eq
  have hge := h.length_ge
  simp only [packetAccepted]
  omega

/-- `DVOLT` writes at most 257 entries (R252). -/
theorem voltageEntries_room (s : State) : (voltageEntries s).length ≤ outCap := by
  rw [voltageEntries_length]
  have hcount : cellCount s ≤ 255 := by
    unfold cellCount
    split <;> omega
  exact (Nat.add_le_add_right hcount 2).trans (by decide)

/-- `DCURR` writes at most 43 entries (R260, R261). -/
theorem currentEntries_room (s : State) (hw : s.cfg.wf = true) : (currentEntries s).length ≤ outCap := by
  have hnt : s.cfg.csl.nt ≤ 32 := by
    simp only [Params.wf, CurrentLayout.wf, Bool.and_eq_true, decide_eq_true_eq] at hw
    exact hw.1.2.1.2
  rw [currentEntries_length]
  exact (Nat.add_le_add_left hnt 11).trans (by decide)

/-- `DPWR` writes at most 19 entries (R272, R273). -/
theorem powerEntries_room (s : State) (hw : s.cfg.wf = true) : (powerEntries s).length ≤ outCap := by
  have hnvc : s.cfg.psl.nvc ≤ 8 := by
    simp only [Params.wf, PowerLayout.wf, Bool.and_eq_true, decide_eq_true_eq] at hw
    exact hw.2.2
  rw [powerEntries_length]
  exact (Nat.add_le_add_left hnvc 11).trans (by decide)

/-- A field read is a command that writes a shaped value to `RES` (R42, R216). -/
theorem fieldRead_effect (i : Instr) (hi : fieldSpan i ≠ none) :
    ∃ run, (∀ s, exec i s = hostCommand run s) ∧ ∀ t, RunEffect i t (run t) := by
  obtain ⟨value, hex, hshaped⟩ := exec_fieldRead i hi
  exact ⟨fun t => finish .ok { t with res := value t }, hex, fun t => .valued _ (hshaped t)⟩

/-- A decode program is a command that writes its entries to `OUT` (R251). -/
theorem decodeProgram_effect (i : Instr) (entries : State → List Entry) (hex : ∀ s, exec i s = decodeProgram entries s)
    (hroom : ∀ t, t.cfg.wf = true → (entries t).length ≤ outCap) :
    ∃ run, (∀ s, exec i s = hostCommand run s) ∧ ∀ t, RunEffect i t (run t) :=
  ⟨fun t => finish .ok { t with out := outWrite (entries t) t.out, outn := (entries t).length }, hex,
    fun t => .decoded _ (hroom t)⟩

/-- Every command is `hostCommand` of a run with one of the effects listed. -/
theorem exec_command_effect (i : Instr) (hi : isCommand i = true) :
    ∃ run, (∀ s, exec i s = hostCommand run s) ∧ ∀ t, RunEffect i t (run t) := by
  cases i with
  | nop => exact ⟨_, fun _ => rfl, fun t => .only .ok⟩
  | srst => exact ⟨_, fun _ => rfl, fun t => .reset rfl⟩
  | illegal w => exact ⟨_, fun _ => rfl, fun t => .only .illegalCmd⟩
  | frs =>
    refine ⟨_, fun s => (rfl : execFrs s = _), fun t => ?_⟩
    split
    exacts [.only .emptyBuffer, .sent _ (.inl rfl) (sentinelFrames_full _ _)]
  | fra k =>
    refine ⟨_, fun s => (rfl : execFra k s = _), fun t => ?_⟩
    split
    exacts [.only .tooLong, .sent _ (.inr ⟨k, rfl⟩) (addressedFrames_full _ _ _)]
  | ufs => exact ⟨_, fun _ => rfl, fun t => .started .ufs t.knode nofun⟩
  | ufa k => exact ⟨_, fun s => (rfl : execUfa k s = _), fun t => .started .ufa k nofun⟩
  | depad =>
    refine ⟨_, fun s => (rfl : execDepad s = _), fun t => ?_⟩
    split
    next n hn =>
      obtain ⟨rfl, -, hlt, -⟩ := (depadTo_eq_some_iff t n).1 hn
      exact .shortened _ hlt.le
    next => exact .only .ok
  | bld a =>
    refine ⟨_, fun s => (rfl : execBld a s = _), fun t => ?_⟩
    split
    next => exact .only .tooLong
    next hle =>
      refine .replaced _ ?_
      rw [Machine.packetBytes_length, pktBytes_length, pktCap]
      omega
  | val e =>
    refine ⟨_, fun s => (rfl : execVal e s = _), fun t => ?_⟩
    split
    next c _ => exact .windowed c 0 0 0 0 (Nat.zero_le _)
    next hf => exact .windowed .ok _ _ _ _ (packetAccepted_inside ((firstFailure_eq_none_iff e t).1 hf))
  | setw off len =>
    refine ⟨_, fun s => (rfl : execSetw off len s = _), fun t => ?_⟩
    split
    next => exact .only .badWindow
    next hin => exact .windowed .ok _ _ 0 0 (Nat.not_lt.1 hin)
  | gu8 | gu16 | gs16 | gu32 | gnh | gnl | gbcd | gbit | gcode | gts => exact fieldRead_effect _ nofun
  | dvolt => exact decodeProgram_effect _ _ (fun _ => rfl) fun t _ => voltageEntries_room t
  | dcurr => exact decodeProgram_effect _ _ (fun _ => rfl) currentEntries_room
  | dpwr => exact decodeProgram_effect _ _ (fun _ => rfl) powerEntries_room
  | frameSentinelStart | frameSentinelData | frameSentinelEnd | frameSentinelOther | frameAddressedHeader
  | frameAddressedChunk1 | frameAddressedChunk2 | frameAddressedChunk3 | frameAddressedChunk4 | frameAddressedChunk5
  | frameAddressedChunk6 | frameAddressedIgnored | packetSp => cases hi

/-- A command is dropped by a busy block, or runs from the accepted state of an idle one. -/
theorem exec_command_cases {i : Instr} {s t : State} (hi : isCommand i = true) (h : exec i s = .next t) :
    (s.status.busy = true ∧ t = overrun s) ∨ (s.status.busy = false ∧ RunEffect i (accept s) t) := by
  obtain ⟨run, hrun, heffect⟩ := exec_command_effect i hi
  rw [hrun] at h
  refine (hostCommand_cases run s t h).imp_right fun ⟨hb, ht⟩ => ⟨hb, ?_⟩
  rw [ht]
  exact heffect _

/-! ## A frame rule and its attempt -/

/-- `s` with the reassembly state of `r` (R49 to R51, R53). -/
def withReassembly (r s : State) : State :=
  { s with
    sph := r.sph, rn := r.rn, rb := r.rb
    aOpen := r.aOpen, aNode := r.aNode, aNext := r.aNext, aT := r.aT, aN := r.aN, ab := r.ab }

/-- What a frame rule can leave: only the reassembly state changed, or a buffer delivered, the window cleared and the
command ended with `OK` (R158, R165, R169). -/
inductive RuleEffect (s : State) : State → Prop where
  | kept (r : State) : RuleEffect s (withReassembly r s)
  | delivered (r : State) (pkt : Memory) (n : Nat) :
    RuleEffect s (finish .ok (clearWindow { withReassembly r s with pkt := pkt, plen := n }))

/-- An ignored frame (R163). -/
theorem id_effect (s : State) : RuleEffect s (id s) := .kept s

/-- A start frame (R154). -/
theorem onSentinelStart_effect (s : State) : RuleEffect s (onSentinelStart s) := .kept (onSentinelStart s)

/-- An abandoned sequence (R160). -/
theorem abandon_effect (s : State) : RuleEffect s (abandon s) := .kept (abandon s)

/-- A data frame (R155 to R157). -/
theorem onSentinelData_effect (d : List Byte) (s : State) : RuleEffect s (onSentinelData d s) := by
  by_cases hidle : s.sph = .idle
  · rw [onSentinelData_idle d s hidle]
    exact .kept s
  · rcases Nat.lt_or_ge rbCap (s.rn + 8) with hfull | hroom
    · rw [onSentinelData_full d s hidle hfull]
      exact .kept (abandon s)
    · rw [onSentinelData_room d s hidle hroom]
      exact .kept (storeData d s)

/-- An end frame (R158, R159). -/
theorem onSentinelEnd_effect (s : State) : RuleEffect s (onSentinelEnd s) := by
  by_cases hdata : s.sph = .data
  · rw [onSentinelEnd_data s hdata]
    exact .delivered { s with rn := 0, sph := .idle } _ _
  · rw [onSentinelEnd_not_data s hdata]
    exact .kept (abandon s)

/-- A header frame (R163 to R165). -/
theorem onAddressedHeader_effect (node total : Byte) (s : State) : RuleEffect s (onAddressedHeader node total s) := by
  unfold onAddressedHeader
  split
  · exact .kept s
  split
  · exact .kept s
  split
  · exact .delivered { s with aOpen := false, aT := 0, aN := 0, aNext := 1 } _ _
  · exact .kept { s with aOpen := true, aNode := s.knode, aT := total.toNat, aN := 0, aNext := 1 }

/-- A chunk frame (R166, R167, R169). -/
theorem onAddressedChunk_effect (m : Nat) (node : Byte) (c : List Byte) (s : State) :
    RuleEffect s (onAddressedChunk m node c s) := by
  unfold onAddressedChunk
  split
  · dsimp only
    split
    · exact .delivered { storeChunk m (c.take (chunkCap m)) s with aOpen := false, aNext := 1, aN := 0 } _ _
    · exact .kept (storeChunk m (c.take (chunkCap m)) s)
  · exact .kept s

/-- What an attempt of a running command can leave: one unit of budget less, the reassembly state changed, and the command
still running, ended with `TIMEOUT` at budget 0, or ended with `OK` and a buffer (R151, R171). -/
inductive AttemptEffect (s : State) : State → Prop where
  | running (r : State) (left : s.bud - 1 ≠ 0) : AttemptEffect s (withReassembly r { s with bud := s.bud - 1 })
  | timedOut (r : State) (spent : s.bud - 1 = 0) :
    AttemptEffect s (finish .timeout (withReassembly r { s with bud := s.bud - 1 }))
  | delivered (r : State) (pkt : Memory) (n : Nat) : AttemptEffect s
      (finish .ok (clearWindow { withReassembly r { s with bud := s.bud - 1 } with pkt := pkt, plen := n }))

/-- The attempt of a frame rule while a command runs. -/
theorem attempt_effect {rule : State → State} (hrule : ∀ u, RuleEffect u (rule u)) {s : State} (ho : s.opr ≠ .none) :
    AttemptEffect s (attempt rule s) := by
  generalize hu : rule { s with bud := s.bud - 1 } = u
  have heffect : RuleEffect { s with bud := s.bud - 1 } u := hu ▸ hrule _
  cases heffect with
  | kept r =>
    rw [attempt_of_running rule s _ hu ho, timeoutAtZero]
    split
    next hzero => exact .timedOut r hzero
    next hleft => exact .running r hleft
  | delivered r pkt n =>
    rw [attempt_of_ended rule s _ hu rfl]
    exact .delivered r pkt n

/-- An answer the block takes is the attempt of a rule with one of the effects listed, while a command runs (R150). -/
theorem answer_effect {s t : State} {a : Answer} (h : stepEvent (.rxAnswer a) s = .next t) : AttemptEffect s t := by
  obtain ⟨rule, rfl, ho, hrule⟩ := answer_is_attempt s a t h
  refine attempt_effect (fun u => ?_) ho
  rcases hrule with
    rfl | ⟨-, rfl | ⟨d, -, rfl⟩ | rfl | rfl⟩ | ⟨-, rfl | ⟨node, total, rfl⟩ | ⟨m, node, c, -, -, -, rfl⟩⟩
  · exact id_effect u
  · exact onSentinelStart_effect u
  · exact onSentinelData_effect d u
  · exact onSentinelEnd_effect u
  · exact abandon_effect u
  · exact id_effect u
  · exact onAddressedHeader_effect node total u
  · exact onAddressedChunk_effect m node c u

/-- At the step a running command takes every answer, as one attempt (R150, R151). -/
theorem step_answer_effect {s : State} {a : Answer} {rest : List Event} (hin : s.inbox = .rxAnswer a :: rest)
    (ho : s.opr ≠ .none) (hlen : ∀ f, a = .frame f → f.len ≤ 8) :
    ∃ t, step s = .next t ∧ AttemptEffect { s with inbox := rest } t := by
  obtain ⟨t, ht⟩ := step_answer_of_running s a rest hin hlen ho
  refine ⟨t, ht, ?_⟩
  rw [step_cons s _ rest hin] at ht
  exact answer_effect ht

/-! ## The retry logic -/

/-- Settles O29: the three effects of an attempt are the three outcomes. -/
theorem attemptCostsOneUnit : Obligations.AttemptCostsOneUnit := by
  intro s a rest hin ho _ hlen
  obtain ⟨t, hstep, heffect⟩ := step_answer_effect hin ho hlen
  refine ⟨t, hstep, ?_⟩
  cases heffect with
  | running r left => exact ⟨rfl, .inl ⟨rfl, rfl, Nat.one_le_iff_ne_zero.2 left⟩⟩
  | timedOut r spent => exact ⟨rfl, .inr (.inr ⟨rfl, rfl, spent, rfl, rfl, rfl, rfl, rfl, fun _ => rfl⟩)⟩
  | delivered r pkt n => exact ⟨rfl, .inr (.inl ⟨rfl, rfl⟩)⟩

/-- Settles O30, by induction on the answers: an attempt ends the command, or leaves it running with a unit less for the
answers that are left. -/
theorem reassemblyEndsWithinBudget : Obligations.ReassemblyEndsWithinBudget := by
  intro s as
  induction as generalizing s with
  | nil =>
    intro rest _ hbud hlen
    rw [← hlen] at hbud
    cases hbud
  | cons a as ih =>
    intro rest ho hbud hcount hlen hin
    rw [List.length_cons] at hcount
    obtain ⟨t, hstep, heffect⟩ := step_answer_effect hin ho fun f hf => hlen f (by simp [hf])
    cases heffect with
    | running r left =>
      obtain ⟨n, u, hn, hsteps, hended⟩ :=
        ih (withReassembly r { s with inbox := as.map .rxAnswer ++ rest, bud := s.bud - 1 }) rest ho
          (Nat.one_le_iff_ne_zero.2 left) (Nat.eq_sub_of_add_eq hcount) (fun f hf => hlen f (List.mem_cons_of_mem _ hf))
          rfl
      exact ⟨n + 1, u, (Nat.le_sub_iff_add_le hbud).1 hn, (steps_succ hstep n).trans hsteps, hended⟩
    | timedOut r spent => exact ⟨1, _, hbud, by rw [steps_succ hstep, steps], rfl, rfl, rfl, .inr rfl⟩
    | delivered r pkt n => exact ⟨1, _, hbud, by rw [steps_succ hstep, steps], rfl, rfl, rfl, .inl rfl⟩

/-! ## Who sends -/

/-- A command other than `FRS` and `FRA` leaves `TX` as it was; those two append (R76). -/
theorem RunEffect.tx_eq {i : Instr} {t u : State} (h : RunEffect i t u) :
    ((i = .frs ∨ ∃ k, i = .fra k) ∧ ∃ fs, u.tx = t.tx ++ fs) ∨ u.tx = t.tx := by
  cases h with
  | sent fs command => exact .inl ⟨command, fs, rfl⟩
  | _ => exact .inr rfl

/-- A frame rule sends nothing. -/
theorem RuleEffect.tx_eq {s t : State} (h : RuleEffect s t) : t.tx = s.tx := by
  cases h <;> rfl

/-- A received frame sends nothing (R70). -/
theorem receive_tx {o : Opr} {rule : State → State} {s t : State} (hrule : ∀ u, RuleEffect u (rule u))
    (h : receive o rule s = .next t) : t.tx = s.tx := by
  obtain ⟨-, rfl⟩ := receive_next h
  have htx := (hrule { s with bud := s.bud - 1 }).tx_eq
  rcases attempt_cases rule s with ⟨ha, -⟩ | ⟨ha, -⟩ | ⟨ha, -⟩ <;> rw [ha] <;> exact htx

/-- A write of a buffer byte sends nothing. -/
theorem writePktByte_tx (i : Nat) (b : Byte) (s : State) : (writePktByte i b s).tx = s.tx := by
  rcases writePktByte_cases i b s with ⟨-, h⟩ | ⟨-, h⟩ <;> rw [h] <;> rfl

/-- A hand-over sends nothing. -/
theorem loadBuffer_tx (bs : List Byte) (s : State) : (loadBuffer bs s).tx = s.tx := by
  have hbytes (i : Nat) (s : State) : (writePktBytes i bs s).tx = s.tx := by
    induction bs generalizing i s with
    | nil => rfl
    | cons b bs ih => exact (ih (i + 1) _).trans (writePktByte_tx i b s)
  rw [loadBuffer]
  rcases writePlen_cases bs.length (writePktBytes 0 bs s) with ⟨-, h⟩ | ⟨-, -, h⟩ | ⟨-, -, h⟩ <;> rw [h] <;>
    exact hbytes 0 s

/-- Settles O33: a command by its effect; a received frame by its rule; a packet is only loaded. -/
theorem onlyFramingCommandsSend : Obligations.OnlyFramingCommandsSend := by
  intro i s t h
  by_cases hi : isCommand i = true
  · rcases exec_command_cases hi h with ⟨-, rfl⟩ | ⟨-, heffect⟩
    exacts [.inr rfl, heffect.tx_eq]
  right
  cases i with
  | packetSp addr body =>
    cases h
    exact loadBuffer_tx _ s
  | frameSentinelStart => exact receive_tx onSentinelStart_effect h
  | frameSentinelData d => exact receive_tx (onSentinelData_effect d) h
  | frameSentinelEnd => exact receive_tx onSentinelEnd_effect h
  | frameSentinelOther id => exact receive_tx abandon_effect h
  | frameAddressedHeader node total => exact receive_tx (onAddressedHeader_effect node total) h
  | frameAddressedChunk1 node c => exact receive_tx (onAddressedChunk_effect 1 node c) h
  | frameAddressedChunk2 node c => exact receive_tx (onAddressedChunk_effect 2 node c) h
  | frameAddressedChunk3 node c => exact receive_tx (onAddressedChunk_effect 3 node c) h
  | frameAddressedChunk4 node c => exact receive_tx (onAddressedChunk_effect 4 node c) h
  | frameAddressedChunk5 node c => exact receive_tx (onAddressedChunk_effect 5 node c) h
  | frameAddressedChunk6 node c => exact receive_tx (onAddressedChunk_effect 6 node c) h
  | frameAddressedIgnored f => exact receive_tx id_effect h
  | _ => exact absurd rfl hi

end Sys2Proof.Proofs
end

section
/-! SUPPORT. What one event can do, said once (spec/00_scope.md R10), and the statements about every step that follow from
it: the reassembly state (spec/10_state.md R53) and the window (R47). -/

namespace Sys2Proof.Proofs

open Sys2Proof.Machine Sys2Proof.Laws

/-! ## One event -/

/-- Everything one event can leave. -/
inductive EventEffect (e : Event) (s : State) : State → Prop where
  /-- a command that an idle block accepts (R300) -/
  | command (i : Instr) (t : State) (presented : commandOf e = some i) (idle : s.status.busy = false)
      (effect : RunEffect i (accept s) t) : EventEffect e s t
  /-- what a busy block drops (R32, R44) -/
  | dropped (busy : s.status.busy = true) : EventEffect e s (overrun s)
  /-- a host write to `STATUS` (R33) -/
  | statusWrite (v : BitVec 32) : EventEffect e s { s with status := statusWritten v s.status }
  /-- a host write without effect (R34, R44) -/
  | ignored : EventEffect e s s
  /-- a host write of the buffer or its length, or a hand-over (R34, R35, R47) -/
  | loaded (pkt : Memory) (n : Nat) (idle : s.status.busy = false) (room : s.plen ≤ pktCap → n ≤ pktCap)
      (canonical : Memory.wf pktCap s.pkt = true → Memory.wf pktCap pkt = true) :
    EventEffect e s (clearWindow { s with pkt := pkt, plen := n })
  /-- a host read (R44) -/
  | read (r : HostReg) (x : BitVec 128) : EventEffect e s { s with reads := s.reads ++ [(r, x)] }
  /-- an answer that a running command takes (R151) -/
  | answered (a : Answer) (t : State) (event : e = .rxAnswer a) (effect : AttemptEffect s t) : EventEffect e s t
  /-- the reset input (R340) -/
  | reset (event : e = .reset) : EventEffect e s (applyReset s)

/-- An event that presents a command. -/
theorem command_effect {e : Event} {i : Instr} {s t : State} (hc : commandOf e = some i)
    (h : stepEvent e s = .next t) : EventEffect e s t := by
  obtain ⟨hex, hi⟩ := stepEvent_command e i s hc
  rw [hex] at h
  rcases exec_command_cases hi h with ⟨hb, rfl⟩ | ⟨hb, heffect⟩
  exacts [.dropped hb, .command i t hc hb heffect]

/-- The map has only the 264 bytes of `PKT` (R31). -/
theorem lt_of_regAt_pkt {off width i : Nat} (h : regAt off width = some (.pkt i)) : i < pktCap := by
  unfold regAt at h
  split_ifs at h with h64 hcmd h32 h8 hpkt h128 hres hout
  · cases h
  · split at h <;> cases h
  · injection h with h
    injection h with h
    omega
  · cases h
  · cases h

/-- A host write that presents no command. -/
theorem hostWrite_effect {off width : Nat} {v : BitVec 128} {s t : State}
    (hc : commandOf (.hostWrite off width v) = none) (h : stepEvent (.hostWrite off width v) s = .next t) :
    EventEffect (.hostWrite off width v) s t := by
  cases hr : regAt off width with
  | none => simp [stepEvent, hostWrite, hr] at h
  | some r =>
    have hcmd : r ≠ .cmd := by
      rintro rfl
      simp [commandOf_hostWrite, hr] at hc
    rw [stepEvent_hostWrite off width v s r hr hcmd] at h
    cases h
    cases r with
    | cmd => exact absurd rfl hcmd
    | status => exact .statusWrite _
    | plen =>
      rw [show writeReg .plen v s = writePlen (v.setWidth 32).toNat s from rfl]
      rcases writePlen_cases (v.setWidth 32).toNat s with ⟨hb, hw⟩ | ⟨-, -, hw⟩ | ⟨hb, hle, hw⟩ <;> rw [hw]
      exacts [.dropped hb, .ignored, .loaded s.pkt _ hb (fun _ => hle) id]
    | pkt i =>
      rw [show writeReg (.pkt i) v s = writePktByte i (v.setWidth 8) s from rfl]
      rcases writePktByte_cases i (v.setWidth 8) s with ⟨hb, hw⟩ | ⟨hb, hw⟩ <;> rw [hw]
      exacts [.dropped hb, .loaded _ s.plen hb id (memory_blit_wf i _ s.pkt (lt_of_regAt_pkt hr))]
    | vaddr | vlen | poff | pn | res | outn | bud | out => exact .ignored

/-- A host read that answers (R44). -/
theorem hostRead_effect {off width : Nat} {s t : State} (h : hostRead off width s = .next t) :
    ∃ r x, t = { s with reads := s.reads ++ [(r, x)] } := by
  unfold hostRead at h
  split at h
  · cases h
  · split at h
    · cases h
    · cases h
      exact ⟨_, _, rfl⟩

/-- Bytes that the block takes over are no more than `PKT` holds, and are loaded (R35; log entry 10). -/
theorem presentBuffer_eq_loadBuffer {bs : List Byte} {s t : State} (h : presentBuffer bs s = .next t) :
    bs.length ≤ pktCap ∧ t = loadBuffer bs s := by
  unfold presentBuffer at h
  split at h
  next i hdec =>
    obtain ⟨a, body, hbody, rfl, rfl⟩ := eq_packetBytes_of_decodePacket bs i hdec
    cases h
    refine ⟨?_, rfl⟩
    rw [Machine.packetBytes_length, pktCap]
    omega
  next =>
    split at h
    next hle =>
      cases h
      exact ⟨hle, rfl⟩
    next => cases h

/-- A hand-over (R34, R35). -/
theorem hostBuffer_effect {e : Event} {bs : List Byte} {s t : State} (h : presentBuffer bs s = .next t) :
    EventEffect e s t := by
  obtain ⟨hle, rfl⟩ := presentBuffer_eq_loadBuffer h
  cases hb : s.status.busy with
  | true =>
    rw [loadBuffer_busy bs s hb]
    exact .dropped hb
  | false =>
    obtain ⟨pkt, hload, -, hwf⟩ := loadBuffer_idle bs s hb hle
    rw [hload]
    exact .loaded pkt _ hb (fun _ => hle) hwf

/-- What an event does is one of the effects listed. -/
theorem stepEvent_effect {e : Event} {s t : State} (h : stepEvent e s = .next t) : EventEffect e s t := by
  cases hc : commandOf e with
  | some i => exact command_effect hc h
  | none =>
    cases e with
    | hostCmd w => cases hc
    | hostWrite off width v => exact hostWrite_effect hc h
    | hostRead off width =>
      obtain ⟨r, x, rfl⟩ := hostRead_effect h
      exact .read r x
    | hostBuffer bs => exact hostBuffer_effect h
    | rxAnswer a => exact .answered a t rfl (answer_effect h)
    | reset =>
      cases h
      exact .reset rfl

/-! ## The reassembly state -/

/-- The reassembly state of two states is the same (R49 to R51, R53). -/
def SameReassembly (s t : State) : Prop :=
  t.sph = s.sph ∧ t.rb = s.rb ∧ t.rn = s.rn ∧ t.aOpen = s.aOpen ∧ t.aNode = s.aNode ∧ t.aNext = s.aNext
  ∧ t.aT = s.aT ∧ t.aN = s.aN ∧ t.ab = s.ab

theorem SameReassembly.refl (s : State) : SameReassembly s s := ⟨rfl, rfl, rfl, rfl, rfl, rfl, rfl, rfl, rfl⟩

/-- A command other than `SRST` does not touch the reassembly state. -/
theorem RunEffect.sameReassembly {i : Instr} {t u : State} (h : RunEffect i t u) (hne : i ≠ .srst) :
    SameReassembly t u := by
  cases h with
  | reset command => exact absurd command hne
  | _ => exact .refl t

/-- `TIMEOUT` at budget 0 does not touch it. -/
theorem sameReassembly_timeoutAtZero (s : State) : SameReassembly s (timeoutAtZero s) := by
  unfold timeoutAtZero
  split <;> exact .refl s

/-- Settles O32: by the effect of the event; of the answers only `Empty` is left, which costs its unit alone. -/
theorem reassemblyStatePersists : Obligations.ReassemblyStatePersists := by
  intro s t e rest hin h hreset hframe hsrst
  have hstep := h
  rw [step_cons s e rest hin] at h
  have hs : SameReassembly s { s with inbox := rest } := .refl s
  cases stepEvent_effect h with
  | command i _ presented _ effect => exact effect.sameReassembly fun hi => hsrst (by rw [presented, hi])
  | dropped | statusWrite | ignored | loaded | read => exact hs
  | reset event => exact absurd event hreset
  | answered a _ event =>
    subst event
    cases a with
    | frame f => exact absurd rfl (hframe f)
    | empty =>
      by_cases ho : s.opr = .none
      · rw [step_empty_refused s rest hin ho] at hstep
        cases hstep
      · rw [step_empty s rest hin ho] at hstep
        cases hstep
        exact sameReassembly_timeoutAtZero { s with inbox := rest, bud := s.bud - 1 }

/-! ## The window and the buffer -/

/-- A step either keeps the buffer and its length, or leaves the window cleared (R47). -/
def KeepsBufferOrClears (s t : State) : Prop :=
  (t.plen = s.plen ∧ ∀ i, pktByte t i = pktByte s i) ∨ (t.poff = 0 ∧ t.pn = 0 ∧ t.vaddr = 0 ∧ t.vlen = 0)

/-- A command replaces or cuts the buffer only with the window cleared. -/
theorem RunEffect.keepsBufferOrClears {i : Instr} {t u : State} (h : RunEffect i t u) : KeepsBufferOrClears t u := by
  cases h with
  | shortened | replaced => exact .inr ⟨rfl, rfl, rfl, rfl⟩
  | _ => exact .inl ⟨rfl, fun _ => rfl⟩

/-- An attempt delivers a buffer only with the window cleared. -/
theorem AttemptEffect.keepsBufferOrClears {s t : State} (h : AttemptEffect s t) : KeepsBufferOrClears s t := by
  cases h with
  | delivered => exact .inr ⟨rfl, rfl, rfl, rfl⟩
  | _ => exact .inl ⟨rfl, fun _ => rfl⟩

/-- So does every event. -/
theorem EventEffect.keepsBufferOrClears {e : Event} {s t : State} (h : EventEffect e s t) :
    KeepsBufferOrClears s t := by
  cases h with
  | command _ _ _ _ effect => exact effect.keepsBufferOrClears
  | answered _ _ _ effect => exact effect.keepsBufferOrClears
  | loaded | reset => exact .inr ⟨rfl, rfl, rfl, rfl⟩
  | dropped | statusWrite | ignored | read => exact .inl ⟨rfl, fun _ => rfl⟩

/-- Settles O60: a step without an event changes nothing; with one, by its effect. -/
theorem bufferChangeClearsWindow : Obligations.BufferChangeClearsWindow := by
  intro s t h hchange
  have heffect : KeepsBufferOrClears s t := by
    rcases step_cases s t h with ⟨-, rfl⟩ | ⟨e, rest, -, hevent⟩
    · exact .inl ⟨rfl, fun _ => rfl⟩
    · exact (stepEvent_effect hevent).keepsBufferOrClears
  refine heffect.resolve_left fun ⟨hplen, hpkt⟩ => ?_
  rcases hchange with hne | ⟨i, hne⟩
  exacts [hne hplen, hne (hpkt i)]

end Sys2Proof.Proofs
end

section
/-! SUPPORT. The invariant of the block (spec/10_state.md sections 1, 5 and 7, spec/40_framer.md R168, R172): each operation
keeps it, so every step does. -/

namespace Sys2Proof.Proofs

open Sys2Proof.Machine Sys2Proof.Laws

/-! ## The invariant without the command cycle -/

/-- `Sound` but for `STATUS`: what a command that ends leaves sound whatever `STATUS` was. -/
structure DataSound (s : State) : Prop where
  cfg_ok : s.cfg.wf = true
  window_ok : windowSound s
  sentinel_ok : sentinelSound s
  addressed_ok : addressedSound s
  memories_ok : memoriesSound s
  frames_ok : ∀ f, f ∈ s.tx → f.data.length = 8
  res_ok : s.res.fits

theorem sound_iff (s : State) : Sound s ↔ statusSound s ∧ DataSound s :=
  ⟨fun h => ⟨h.status_ok, { h with cfg_ok := h.instance_ok }⟩,
    fun ⟨hst, h⟩ => { h with instance_ok := h.cfg_ok, status_ok := hst }⟩

theorem DataSound.of_sound {s : State} (h : Sound s) : DataSound s := ((sound_iff s).1 h).2

theorem DataSound.sound {s : State} (h : DataSound s) (hst : statusSound s) : Sound s := (sound_iff s).2 ⟨hst, h⟩

/-- A command that has ended runs no more (R301). -/
theorem statusSound_finish (c : Code) (s : State) : statusSound (finish c s) :=
  ⟨⟨nofun, fun h => absurd rfl h⟩, nofun, nofun⟩

/-- Ending a command touches nothing but the command cycle (R301). -/
theorem DataSound.ended {s : State} (h : DataSound s) (c : Code) : DataSound (finish c s) := { h with }

theorem DataSound.finish {s : State} (c : Code) (h : DataSound s) : Sound (finish c s) :=
  (h.ended c).sound (statusSound_finish c s)

/-! ## Values fit their record -/

/-- What R42 allows under each tag fits the 64 bits of `MANT`. -/
theorem fits_of_shaped {v : Value} (h : v.shaped) : v.fits := by
  obtain ⟨-, hmant⟩ := h
  unfold Value.fits
  split at hmant
  · omega
  · omega
  · exact hmant
  · omega
  · obtain ⟨b, hb⟩ := hmant
    omega
  · obtain ⟨t, id, ht⟩ := hmant
    omega
  · obtain ⟨yy, mo, dd, hh, mi, ss, hyy, -, hmo, -, hdd, hhh, hmi, hss, hm⟩ := hmant
    omega
  · exact hmant.2

/-! ## The window and the buffer -/

/-- A window inside a buffer that `PKT` holds (R34, R37). -/
theorem DataSound.with_window {s : State} (h : DataSound s) (plen poff pn : Nat) (vaddr vlen : Byte)
    (hin : poff + pn ≤ plen) (hcap : plen ≤ pktCap) :
    DataSound { s with plen := plen, poff := poff, pn := pn, vaddr := vaddr, vlen := vlen } := by
  obtain ⟨-, -, hout⟩ := h.window_ok
  exact { h with window_ok := ⟨hin, hcap, hout⟩ }

/-- A buffer in canonical form whose window is cleared (R47, R88). -/
theorem DataSound.with_buffer {s : State} (h : DataSound s) (pkt : Memory) (n : Nat) (hwf : Memory.wf pktCap pkt = true)
    (hcap : n ≤ pktCap) : DataSound (clearWindow { s with pkt := pkt, plen := n }) := by
  obtain ⟨-, hrb, hab, hout⟩ := h.memories_ok
  exact { h.with_window n 0 0 0 0 (Nat.zero_le _) hcap with memories_ok := ⟨hwf, hrb, hab, hout⟩ }

/-- Replacing the buffer by bytes it can hold. -/
theorem DataSound.setBuffer {s : State} (h : DataSound s) (bs : List Byte) (hlen : bs.length ≤ pktCap) :
    DataSound (setBuffer bs s) :=
  h.with_buffer _ _ (memory_blit_wf 0 bs s.pkt (by omega) h.memories_ok.1) hlen

/-! ## Commands -/

/-- Nothing is accumulated (R172). -/
theorem sentinelSound_of_empty {s : State} (hsph : s.sph ≠ .data) (hrn : s.rn = 0) : sentinelSound s :=
  ⟨fun _ => hrn, fun hdata => absurd hdata hsph, fun i hi => absurd hi (by omega)⟩

/-- No addressed reassembly is open (R168). -/
theorem addressedSound_of_closed {s : State} (hclosed : s.aOpen = false) (hnext : s.aNext = 1) (hn : s.aN = 0)
    (ht : s.aT ≤ abCap) : addressedSound s :=
  ⟨by omega, by omega, ht, fun hopen => absurd hopen (by simp [hclosed]), fun _ => ⟨hnext, hn⟩,
    fun i hi => absurd hi (by omega)⟩

/-- `SRST` puts the reassembly and the window at their reset values (R291). -/
theorem DataSound.softReset {s : State} (h : DataSound s) : DataSound (softReset s) where
  cfg_ok := h.cfg_ok
  window_ok := ⟨Nat.zero_le _, h.window_ok.2.1, Nat.zero_le _⟩
  sentinel_ok := sentinelSound_of_empty nofun rfl
  addressed_ok := addressedSound_of_closed rfl rfl rfl (Nat.zero_le _)
  memories_ok := h.memories_ok
  frames_ok := h.frames_ok
  res_ok := fits_of_shaped shaped_absent

/-- A reassembly that starts has budget (R6, R150). -/
theorem DataSound.startReassembly {s : State} (h : DataSound s) (o : Opr) (k : Byte) (ho : o ≠ .none) :
    Sound (startReassembly o { s with knode := k }) := by
  have hbudget : 1 ≤ s.cfg.rxBudget := by
    have hw := h.cfg_ok
    simp only [Params.wf, Bool.and_eq_true, decide_eq_true_eq] at hw
    exact hw.1.1.1.2
  exact DataSound.sound { h with } ⟨⟨fun _ => ho, fun _ => rfl⟩, nofun, fun _ => hbudget⟩

/-- The run of a command on sound data ends in a sound state. -/
theorem RunEffect.sound {i : Instr} {t u : State} (h : RunEffect i t u) (ht : DataSound t) : Sound u := by
  obtain ⟨_, hplen, houtn⟩ := ht.window_ok
  cases h with
  | only c => exact ht.finish c
  | reset => exact ht.softReset.finish .ok
  | sent fs _ full =>
    refine DataSound.finish .ok { ht with frames_ok := fun f hf => ?_ }
    exact (List.mem_append.1 hf).elim (ht.frames_ok f) (full f)
  | started o k runs => exact ht.startReassembly o k runs
  | shortened n shorter =>
    exact (ht.with_window n 0 0 0 0 (Nat.zero_le _) (shorter.trans hplen)).finish .ok
  | replaced bs room => exact (ht.setBuffer bs room).finish .ok
  | windowed c poff pn vaddr vlen inside => exact (ht.with_window t.plen poff pn vaddr vlen inside hplen).finish c
  | valued v shaped => exact DataSound.finish .ok { ht with res_ok := fits_of_shaped shaped }
  | decoded es room =>
    obtain ⟨hpkt, hrb, hab, hout⟩ := ht.memories_ok
    obtain ⟨hin, -, -⟩ := ht.window_ok
    have hroom := room ht.cfg_ok
    exact DataSound.finish .ok { ht with
      window_ok := ⟨hin, hplen, hroom⟩
      memories_ok := ⟨hpkt, hrb, hab, outWrite_wf es t.out hroom hout⟩ }

/-! ## Frame rules -/

/-- A start frame (R154). -/
theorem DataSound.onSentinelStart {s : State} (h : DataSound s) : DataSound (onSentinelStart s) :=
  { h with sentinel_ok := sentinelSound_of_empty nofun rfl }

/-- An abandoned sequence (R156, R160). -/
theorem DataSound.abandon {s : State} (h : DataSound s) : DataSound (abandon s) :=
  { h with sentinel_ok := sentinelSound_of_empty nofun rfl }

/-- No addressed reassembly is open; what `AB` holds does not matter (R165, R169). -/
theorem DataSound.closed {s : State} (h : DataSound s) (n : Nat) (ab : Memory) (hn : n ≤ abCap)
    (hwf : Memory.wf abCap ab = true) :
    DataSound { s with aOpen := false, aT := n, aN := 0, aNext := 1, ab := ab } := by
  obtain ⟨hpkt, hrb, -, hout⟩ := h.memories_ok
  exact { h with
    addressed_ok := addressedSound_of_closed rfl rfl rfl hn
    memories_ok := ⟨hpkt, hrb, hwf, hout⟩ }

/-- The bytes below an end that a write reaches have been written. -/
theorem blit_isSome {base : Nat} {bs : List Byte} {m : Memory} {i : Nat}
    (hbelow : ∀ i, i < base → (cellAt m i).isSome = true) (hi : i < base + bs.length) :
    (cellAt (blit base bs m) i).isSome = true := by
  rw [cellAt_blit]
  split
  next hin => simp; omega
  next hout => exact hbelow i (by omega)

/-- `RN` is a multiple of 8 in every phase (R172). -/
theorem rn_mod_eight {s : State} (h : sentinelSound s) : s.rn % 8 = 0 := by
  obtain ⟨hempty, hdata, -⟩ := h
  by_cases hsph : s.sph = .data
  · exact (hdata hsph).2.2
  · rw [hempty hsph]

/-- Eight bytes more, inside `RB` (R155). -/
theorem DataSound.storeData {s : State} (h : DataSound s) (d : List Byte) (hd : d.length = 8)
    (hroom : s.rn + 8 ≤ rbCap) : DataSound (storeData d s) := by
  obtain ⟨hpkt, hrb, hab, hout⟩ := h.memories_ok
  have hmod := rn_mod_eight h.sentinel_ok
  obtain ⟨-, -, hwritten⟩ := h.sentinel_ok
  refine { h with
    sentinel_ok := ⟨fun hne => absurd rfl hne, fun _ => ⟨?_, hroom, ?_⟩, fun i hi => blit_isSome hwritten (hd ▸ hi)⟩
    memories_ok := ⟨hpkt, memory_blit_wf s.rn d s.rb (hd ▸ hroom) hrb, hab, hout⟩ }
  · exact Nat.le_add_left 8 s.rn
  · exact (Nat.add_mod_right s.rn 8).trans hmod

/-- A data frame, in any phase (R155 to R157). -/
theorem DataSound.onSentinelData {s : State} (h : DataSound s) (d : List Byte) (hd : d.length = 8) :
    DataSound (onSentinelData d s) := by
  by_cases hidle : s.sph = .idle
  · rwa [onSentinelData_idle d s hidle]
  · rcases Nat.lt_or_ge rbCap (s.rn + 8) with hfull | hroom
    · rw [onSentinelData_full d s hidle hfull]
      exact h.abandon
    · rw [onSentinelData_room d s hidle hroom]
      exact h.storeData d hd hroom

/-- An end frame delivers at most the 264 bytes of `RB` (R158, R159). -/
theorem DataSound.onSentinelEnd {s : State} (h : DataSound s) : DataSound (onSentinelEnd s) := by
  by_cases hdata : s.sph = .data
  · rw [onSentinelEnd_data s hdata]
    have hlen : (rbBytes s s.rn).length ≤ pktCap := by
      rw [rbBytes_length]
      exact (h.sentinel_ok.2.1 hdata).2.1
    exact (h.abandon.setBuffer _ hlen).ended .ok
  · rw [onSentinelEnd_not_data s hdata]
    exact h.abandon

/-- A header frame (R163 to R165). -/
theorem DataSound.onAddressedHeader {s : State} (h : DataSound s) (node total : Byte) :
    DataSound (onAddressedHeader node total s) := by
  by_cases hnode : node = s.knode
  case neg => rwa [onAddressedHeader_other node total s hnode]
  rcases Nat.lt_or_ge 32 total.toNat with hlong | h32
  · rwa [onAddressedHeader_tooLong node total s hnode hlong]
  rcases Nat.eq_zero_or_pos total.toNat with h0 | h1
  · obtain rfl : total = 0 := BitVec.eq_of_toNat_eq h0
    rw [onAddressedHeader_zero node s hnode]
    obtain ⟨-, -, hab, -⟩ := h.memories_ok
    exact ((h.closed 0 s.ab (Nat.zero_le _) hab).with_window 0 0 0 0 0 (Nat.zero_le _) (Nat.zero_le _)).ended .ok
  · rw [onAddressedHeader_opens node total s hnode h1 h32]
    exact { h with addressed_ok :=
      ⟨Nat.le_refl 1, (by decide : 1 ≤ 6), h32, fun _ => ⟨rfl, h1⟩, nofun, fun i hi => absurd hi (Nat.not_lt_zero i)⟩ }

/-- The awaited chunk, below the total: the next marker is awaited (R166, R168). -/
theorem DataSound.storeChunk {s : State} (h : DataSound s) (c : List Byte) (hc : c.length = chunkCap s.aNext)
    (hopen : s.aOpen = true) (hmore : chunkBase s.aNext + chunkCap s.aNext < s.aT) :
    DataSound (storeChunk s.aNext c s) := by
  obtain ⟨hpkt, hrb, hab, hout⟩ := h.memories_ok
  obtain ⟨h1, h6, hT, hopened, -, hwritten⟩ := h.addressed_ok
  obtain ⟨hle, hnext, hlast⟩ := chunkBase_add_chunkCap s.aNext h1 h6
  obtain ⟨hbase, -⟩ := hopened hopen
  rw [hbase] at hwritten
  rw [abCap] at hT
  have hlt : s.aNext < 6 := by
    refine Nat.lt_of_le_of_ne h6 fun he => ?_
    have := hlast he
    omega
  have hstored : (Proofs.storeChunk s.aNext c s).aNext = s.aNext + 1 := if_pos hlt
  refine { h with
    addressed_ok := ⟨?_, ?_, hT, fun _ => ⟨?_, hmore⟩, fun hclosed => absurd (hopen.symm.trans hclosed) nofun,
      fun i hi => blit_isSome hwritten (hc ▸ hi)⟩
    memories_ok := ⟨hpkt, hrb, memory_blit_wf _ c s.ab (hc ▸ hle) hab, hout⟩ }
  · rw [hstored]; omega
  · rw [hstored]; omega
  · rw [hstored]
    exact (hnext hlt).symm

/-- A completed reassembly delivers at most 32 bytes and is closed (R169). -/
theorem DataSound.completeAddressed {s : State} (h : DataSound s) (m : Nat) (c : List Byte) (hc : c.length = chunkCap m)
    (hle : chunkBase m + chunkCap m ≤ 32) : DataSound (completeAddressed (Proofs.storeChunk m c s)) := by
  obtain ⟨-, -, hab, -⟩ := h.memories_ok
  obtain ⟨-, -, hT, -⟩ := h.addressed_ok
  have hlen : (abBytes (Proofs.storeChunk m c s) s.aT).length ≤ pktCap := by
    rw [abBytes_length]
    exact hT.trans (by decide)
  have hstored := h.closed s.aT _ hT (memory_blit_wf _ c s.ab (hc ▸ hle) hab)
  exact (hstored.setBuffer _ hlen).ended .ok

/-- A chunk frame (R166, R167, R169). -/
theorem DataSound.onAddressedChunk {s : State} (h : DataSound s) (m : Nat) (node : Byte) (c : List Byte)
    (hc : c.length = chunkCap m) (h1 : 1 ≤ m) (h6 : m ≤ 6) : DataSound (onAddressedChunk m node c s) := by
  by_cases hacc : chunkAccepted m node s = true
  · rcases Nat.lt_or_ge (chunkBase m + chunkCap m) s.aT with hmore | hlast
    · rw [onAddressedChunk_stores m node c s hc hacc hmore]
      obtain ⟨-, hopen, -, rfl⟩ := (chunkAccepted_iff m node s).1 hacc
      exact h.storeChunk c hc hopen hmore
    · rw [onAddressedChunk_completes m node c s hc hacc hlast]
      exact h.completeAddressed m c hc (chunkBase_add_chunkCap m h1 h6).1
  · rwa [onAddressedChunk_unexpected m node c s (mt (chunkAccepted_iff m node s).2 hacc)]

/-! ## Answers -/

/-- An attempt leaves the command cycle sound: a command that runs on has budget (R151). -/
theorem AttemptEffect.statusSound {s t : State} (h : AttemptEffect s t) (hs : statusSound s) : statusSound t := by
  obtain ⟨hbusy, hexcl, -⟩ := hs
  cases h with
  | running r left => exact ⟨hbusy, hexcl, fun _ => Nat.one_le_iff_ne_zero.2 left⟩
  | timedOut => exact statusSound_finish _ _
  | delivered => exact statusSound_finish _ _

/-- An attempt of a rule that keeps the data sound keeps them sound. -/
theorem DataSound.attempt {rule : State → State} {s : State} (h : DataSound (rule { s with bud := s.bud - 1 })) :
    DataSound (attempt rule s) := by
  rcases attempt_cases rule s with ⟨ha, -⟩ | ⟨ha, -⟩ | ⟨ha, -⟩ <;> rw [ha]
  exacts [h, h.ended .timeout, h]

/-- An answer keeps the invariant. -/
theorem answer_sound {s t : State} {a : Answer} (hs : Sound s) (h : stepEvent (.rxAnswer a) s = .next t) : Sound t := by
  have hst := (answer_effect h).statusSound hs.status_ok
  have hu : DataSound { s with bud := s.bud - 1 } := { DataSound.of_sound hs with }
  obtain ⟨rule, rfl, -, hrule⟩ := answer_is_attempt s a t h
  refine DataSound.sound (DataSound.attempt ?_) hst
  rcases hrule with
    rfl | ⟨-, rfl | ⟨d, hd, rfl⟩ | rfl | rfl⟩ | ⟨-, rfl | ⟨node, total, rfl⟩ | ⟨m, node, c, hc, h1, h6, rfl⟩⟩
  · exact hu
  · exact hu.onSentinelStart
  · exact hu.onSentinelData d hd
  · exact hu.onSentinelEnd
  · exact hu.abandon
  · exact hu
  · exact hu.onAddressedHeader node total
  · exact hu.onAddressedChunk m node c hc h1 h6

/-! ## Reset -/

/-- The reset values of an implementation that meets the constraints (R55, R340). -/
theorem sound_resetOf (p : Params) (hw : p.wf = true) : Sound (State.resetOf p) where
  instance_ok := hw
  status_ok := ⟨⟨nofun, fun h => absurd rfl h⟩, nofun, nofun⟩
  window_ok := ⟨Nat.zero_le _, Nat.zero_le _, Nat.zero_le _⟩
  sentinel_ok := sentinelSound_of_empty nofun rfl
  addressed_ok := addressedSound_of_closed rfl rfl rfl (Nat.zero_le _)
  memories_ok := reset_memories_wf p
  frames_ok := nofun
  res_ok := fits_of_shaped shaped_absent

/-- The parameters of `State.reset` meet the constraints (R6). -/
theorem chosen_wf : Config.chosen.wf = true := by
  unfold Config.chosen
  split
  · assumption
  · decide

/-- Settles O10: the reset values, of every implementation and of the one of `State.reset`. -/
theorem resetHasInvariant : Obligations.ResetHasInvariant := ⟨sound_resetOf, sound_resetOf _ chosen_wf⟩

/-! ## Every step -/

/-- Every event keeps the invariant. -/
theorem stepEvent_sound {e : Event} {s t : State} (hs : Sound s) (h : stepEvent e s = .next t) : Sound t := by
  cases stepEvent_effect h with
  | command i _ _ _ effect => exact effect.sound { DataSound.of_sound hs with }
  | dropped => exact { hs with }
  | statusWrite v =>
    unfold statusWritten
    split
    exacts [{ hs with }, hs]
  | ignored => exact hs
  | loaded pkt n _ room canonical =>
    obtain ⟨-, hplen, -⟩ := hs.window_ok
    obtain ⟨hpkt, -⟩ := hs.memories_ok
    exact ((DataSound.of_sound hs).with_buffer pkt n (canonical hpkt) (room hplen)).sound hs.status_ok
  | read => exact { hs with }
  | answered a _ event =>
    subst event
    exact answer_sound hs h
  | reset => exact { sound_resetOf s.cfg hs.instance_ok with }

/-- No event changes the parameters (R56). -/
theorem stepEvent_cfg {e : Event} {s t : State} (h : stepEvent e s = .next t) : t.cfg = s.cfg := by
  cases stepEvent_effect h with
  | command _ _ _ _ effect => cases effect <;> rfl
  | answered _ _ _ effect => cases effect <;> rfl
  | dropped | statusWrite | ignored | loaded | read | reset => rfl

/-- Settles O11: a step without an event changes nothing; with one, `stepEvent_sound` and `stepEvent_cfg`. -/
theorem stepKeepsInvariant : Obligations.StepKeepsInvariant := by
  intro s t hs h
  rcases step_cases s t h with ⟨-, rfl⟩ | ⟨e, rest, -, hevent⟩
  · exact ⟨hs, rfl⟩
  · have hrest : Sound { s with inbox := rest } := { hs with }
    have hcfg := stepEvent_cfg hevent
    exact ⟨stepEvent_sound hrest hevent, hcfg⟩

end Sys2Proof.Proofs
end

section
/-! SUPPORT. The bound of the linear transform (spec/00_scope.md R14 (f)), and that field reads and decode programs depend
on the window and the parameters alone (spec/43_status_decoders.md R251, R279). -/

namespace Sys2Proof.Proofs

open Sys2Proof.Machine Sys2Proof.Laws

/-! ## The size of a field's mantissa -/

/-- The product of a raw value and a multiplier, with a signed addend (R14 (f), R218). -/
theorem transform_bound {raw : Int} {mul : Nat} {add : Int} (hraw : -(2 : Int) ^ 15 ≤ raw ∧ raw < 2 ^ 32)
    (hmul : mul < 2 ^ 16) (hadd : -(2 : Int) ^ 15 ≤ add ∧ add < (2 : Int) ^ 15) :
    -(2 ^ 48 + 2 ^ 15) < raw * mul + add ∧ raw * mul + add < 2 ^ 48 + 2 ^ 15 := by
  have hmul0 : (0 : Int) ≤ mul := Int.natCast_nonneg mul
  have hmul1 : (mul : Int) < 2 ^ 16 := by exact_mod_cast hmul
  have hupper : raw * mul ≤ 2 ^ 32 * (2 ^ 16 - 1) := by nlinarith
  have hlower : -(2 ^ 15 * 2 ^ 16) ≤ raw * mul := by nlinarith
  constructor <;> omega

/-- The mantissa a format G field read leaves (R213, R215, R218). -/
theorem fieldG_mant_bound (k : FieldKind) (s : State) (off : Nat) (sent : Sent) {mul : Nat} {add : Int}
    (exp : BitVec 4) (unit : UnitCode) (hmul : mul < 2 ^ 16) (hadd : -(2 : Int) ^ 15 ≤ add ∧ add < (2 : Int) ^ 15) :
    -(2 ^ 48 + 2 ^ 15) < (fieldG k s off sent mul add exp unit).mant
    ∧ (fieldG k s off sent mul add exp unit).mant < 2 ^ 48 + 2 ^ 15 := by
  rcases fieldG_cases k s off sent mul add exp unit with
    ⟨-, h⟩ | ⟨bs, hbs, ⟨-, h⟩ | ⟨raw, hraw, ⟨m, hm, -, h⟩ | ⟨-, h⟩⟩⟩ <;> rw [h]
  · decide
  · decide
  · have hm : m = 0 ∨ m = -1 := by cases sent <;> cases hm <;> simp
    simp only [Value.num]
    omega
  · exact transform_bound (rawOf_range k s off bs hbs raw hraw) hmul hadd

/-- Settles O50: the operands of a command are a 16-bit multiplier and a signed 16-bit addend. -/
theorem transformFitsMantissa : Obligations.TransformFitsMantissa := by
  intro k s off sent mul add exp unit
  obtain ⟨hlow, hhigh⟩ := fieldG_mant_bound k s off sent exp unit mul.isLt ⟨BitVec.le_toInt add, BitVec.toInt_lt⟩
  refine ⟨?_, ?_, ?_⟩ <;> omega

/-! ## States with the same window -/

/-- Two states with the same parameters and the same window bytes (R211). -/
structure SameWindow (s1 s2 : State) : Prop where
  cfg_eq : s1.cfg = s2.cfg
  byte_eq : ∀ o, winByte s1 o = winByte s2 o

/-- Accepting a command changes neither. -/
theorem SameWindow.accept {s1 s2 : State} (h : SameWindow s1 s2) : SameWindow (accept s1) (accept s2) :=
  ⟨h.cfg_eq, h.byte_eq⟩

/-- The window bytes give its length. -/
theorem SameWindow.pn_eq {s1 s2 : State} (h : SameWindow s1 s2) : s1.pn = s2.pn := by
  have hin (o : Nat) : decide (o < s1.pn) = decide (o < s2.pn) := by
    rw [← winByte_isSome, ← winByte_isSome, h.byte_eq]
  have h1 := hin s1.pn
  have h2 := hin s2.pn
  simp only [decide_eq_decide] at h1 h2
  omega

/-- They give every multi-byte read. -/
theorem SameWindow.memRead_eq {s1 s2 : State} (h : SameWindow s1 s2) (o n : Nat) : memRead s1 o n = memRead s2 o n := by
  by_cases hin : o + n ≤ s2.pn
  · have hin1 : o + n ≤ s1.pn := h.pn_eq ▸ hin
    rw [memRead_inside hin, memRead_inside hin1]
    refine congrArg some (pktBytes_congr fun i hi => ?_)
    have hbyte := h.byte_eq (o + i)
    rw [winByte_inside (by omega), winByte_inside (by omega)] at hbyte
    rw [Nat.add_assoc, Nat.add_assoc]
    exact Option.some.inj hbyte
  · have hin1 : ¬ o + n ≤ s1.pn := h.pn_eq ▸ hin
    rw [memRead_outside (Nat.lt_of_not_le hin), memRead_outside (Nat.lt_of_not_le hin1)]

section

variable {s1 s2 : State} (h : SameWindow s1 s2)

include h

/-! ## Field reads -/

theorem SameWindow.fieldG_eq (k : FieldKind) (off : Nat) (sent : Sent) (mul : Nat) (add : Int) (exp : BitVec 4)
    (unit : UnitCode) : fieldG k s1 off sent mul add exp unit = fieldG k s2 off sent mul add exp unit := by
  simp only [fieldG, h.memRead_eq]

theorem SameWindow.fieldBit_eq (off bit : Nat) : fieldBit s1 off bit = fieldBit s2 off bit := by
  simp only [fieldBit, h.byte_eq]

theorem SameWindow.fieldCode_eq (off : Nat) (t : Byte) : fieldCode s1 off t = fieldCode s2 off t := by
  simp only [fieldCode, h.byte_eq, h.cfg_eq]

theorem SameWindow.fieldTime_eq (off : Nat) : fieldTime s1 off = fieldTime s2 off := by
  simp only [fieldTime, h.memRead_eq, h.cfg_eq]

/-! ## Decode programs -/

theorem SameWindow.voltageEntries_eq : voltageEntries s1 = voltageEntries s2 := by
  simp only [voltageEntries, cellVoltage, h.fieldG_eq]

theorem SameWindow.currentValue_eq : currentValue s1 = currentValue s2 := by
  simp only [currentValue, h.fieldG_eq, h.byte_eq, h.cfg_eq]

theorem SameWindow.flagsValue_eq : flagsValue s1 = flagsValue s2 := by
  have hraw : rawFlag s1 = rawFlag s2 := by
    funext k
    simp only [rawFlag, h.byte_eq, h.cfg_eq]
  simp only [flagsValue, h.pn_eq, hraw]

theorem SameWindow.currentEntries_eq : currentEntries s1 = currentEntries s2 := by
  simp only [currentEntries, temperature, byteFlags, balancingValue, h.currentValue_eq, h.flagsValue_eq, h.fieldG_eq,
    h.fieldBit_eq, h.memRead_eq, h.byte_eq, h.cfg_eq]

theorem SameWindow.powerEntries_eq : powerEntries s1 = powerEntries s2 := by
  simp only [powerEntries, powerTail, h.fieldG_eq, h.byte_eq, h.cfg_eq]

end

/-! ## Purity -/

/-- A field read is `readField` of a value that the window and the parameters give (R251). -/
theorem exec_fieldRead_pure (i : Instr) (hi : fieldSpan i ≠ none) :
    ∃ value, (∀ s, exec i s = readField value s) ∧ ∀ s1 s2, SameWindow s1 s2 → value s1 = value s2 := by
  cases i with
  | gu8 | gu16 | gs16 | gu32 | gnh | gnl | gbcd => exact ⟨_, fun _ => rfl, fun _ _ h => h.fieldG_eq ..⟩
  | gbit off bit => exact ⟨_, fun s => (rfl : execGbit off bit s = _), fun _ _ h => h.fieldBit_eq ..⟩
  | gcode off table => exact ⟨_, fun s => (rfl : execGcode off table s = _), fun _ _ h => h.fieldCode_eq ..⟩
  | gts off => exact ⟨_, fun s => (rfl : execGts off s = _), fun _ _ h => h.fieldTime_eq ..⟩
  | _ => exact absurd rfl hi

/-- A decode program is `decodeProgram` of entries that the window and the parameters give (R279). -/
theorem exec_decodeProgram_pure (i : Instr) (hi : i = .dvolt ∨ i = .dcurr ∨ i = .dpwr) :
    ∃ entries, (∀ s, exec i s = decodeProgram entries s) ∧ ∀ s1 s2, SameWindow s1 s2 → entries s1 = entries s2 := by
  rcases hi with rfl | rfl | rfl
  · exact ⟨voltageEntries, fun _ => rfl, fun _ _ h => h.voltageEntries_eq⟩
  · exact ⟨currentEntries, fun _ => rfl, fun _ _ h => h.currentEntries_eq⟩
  · exact ⟨powerEntries, fun _ => rfl, fun _ _ h => h.powerEntries_eq⟩

/-- Settles O56: the value read and the entries written are the same from either accepted state. -/
theorem decodersDependOnWindowOnly : Obligations.DecodersDependOnWindowOnly := by
  intro s1 s2 t1 t2 i hb1 hb2 hcfg hwin hex1 hex2
  have hsame : SameWindow (accept s1) (accept s2) := SameWindow.accept ⟨hcfg, hwin⟩
  refine ⟨fun hi => ?_, fun hi => ?_⟩
  · obtain ⟨value, hval, hpure⟩ := exec_fieldRead_pure i hi
    rw [hval, readField_idle value _ hb1] at hex1
    rw [hval, readField_idle value _ hb2] at hex2
    cases hex1
    cases hex2
    exact hpure _ _ hsame
  · obtain ⟨entries, hent, hpure⟩ := exec_decodeProgram_pure i hi
    rw [hent, decodeProgram_idle entries _ hb1] at hex1
    rw [hent, decodeProgram_idle entries _ hb2] at hex2
    cases hex1
    cases hex2
    dsimp only
    rw [hpure _ _ hsame]
    refine ⟨rfl, fun k hk => ?_⟩
    rw [outAt_outWrite, outAt_outWrite, if_pos hk, if_pos hk]

end Sys2Proof.Proofs
end

section
/-! SUPPORT. The events at the step (spec/00_scope.md R10): what a step runs, the reset input (spec/70_reset_and_hazards.md
R340), the register map and the host's accesses (spec/10_state.md R31 to R35, R44), and the statements about them. -/

namespace Sys2Proof.Proofs

open Sys2Proof.Machine Sys2Proof.Laws

/-! ## What a step runs -/

/-- A hand-over of bytes that are a packet is the packet (log entry 10). -/
theorem step_hostBuffer {s : State} {bs : List Byte} {i : Instr} {rest : List Event}
    (hin : s.inbox = .hostBuffer bs :: rest) (hi : decodePacket bs = .instr i) :
    step s = exec i { s with inbox := rest } := by
  rw [step_cons s _ rest hin]
  simp only [stepEvent, presentBuffer, hi]

/-- Settles O8: each event is presented to the instruction it stands for. -/
theorem stepRunsDecodedInstruction : Obligations.StepRunsDecodedInstruction := by
  refine fun s rest => ⟨fun w hin => step_cons s _ rest hin, fun v hin => step_cons s _ rest hin,
    fun f hin hlen ho => ?_, fun f hin hlen ho => ?_, fun bs i hin hi => step_hostBuffer hin hi, step_nil s⟩
  · exact step_frame s f rest _ hin hlen (by rw [ho]; rfl)
  · exact step_frame s f rest _ hin hlen (by rw [ho]; rfl)

/-- Settles O12: the event is `applyReset`. -/
theorem resetInputGivesResetState : Obligations.ResetInputGivesResetState :=
  fun s rest hin => step_cons s _ rest hin

/-! ## The register map -/

/-- The map has `OUT[k]` at `0x2000 + 16k` (R31). -/
theorem regAt_out {k : Nat} (hk : k < outCap) : regAt (0x2000 + 16 * k) 128 = some (.out k) := by
  have hne : ¬ 0x2000 + 16 * k = 0x020 := by omega
  have hrange : 0x2000 ≤ 0x2000 + 16 * k ∧ 0x2000 + 16 * k < 0x2000 + 16 * outCap
      ∧ (0x2000 + 16 * k) % 16 = 0 := by omega
  have hindex : (0x2000 + 16 * k - 0x2000) / 16 = k := by omega
  simp only [regAt, hne, hrange, hindex]
  rfl

/-- Every other offset, and every other width, is outside the map (R31, R75). -/
theorem regAt_outside {off width : Nat} (hcmd : ¬ (width = 64 ∧ off = 0x000))
    (hreg : ¬ (width = 32 ∧ off ∈ [0x008, 0x00C, 0x010, 0x014, 0x018, 0x01C, 0x030, 0x034]))
    (hres : ¬ (width = 128 ∧ off = 0x020)) (hpkt : ¬ (width = 8 ∧ 0x100 ≤ off ∧ off ≤ 0x207))
    (hout : ¬ (width = 128 ∧ ∃ k, k < 512 ∧ off = 0x2000 + 16 * k)) : regAt off width = none := by
  unfold regAt
  split
  next h64 => exact if_neg fun h => hcmd ⟨h64, h⟩
  split
  next h32 =>
    split
    case h_9 => rfl
    all_goals exact absurd ⟨h32, by decide⟩ hreg
  split
  next h8 => exact if_neg fun ⟨hlow, hhigh⟩ => hpkt ⟨h8, hlow, Nat.le_of_lt_succ hhigh⟩
  split
  next h128 =>
    rw [if_neg fun h => hres ⟨h128, h⟩, if_neg]
    rintro ⟨hlow, hhigh, hmod⟩
    rw [outCap] at hhigh
    exact hout ⟨h128, (off - 0x2000) / 16, by omega, by omega⟩
  next => rfl

/-! ## Refusals -/

/-- An access outside the map is refused (R31, U1). -/
theorem step_access_refused {s : State} {off width : Nat} {v : BitVec 128} {rest : List Event}
    (hr : regAt off width = none)
    (hin : s.inbox = .hostRead off width :: rest ∨ s.inbox = .hostWrite off width v :: rest) :
    step s = .refused .hostAccessUndefined := by
  rcases hin with hin | hin <;> rw [step_cons s _ rest hin]
  · simp only [stepEvent, hostRead, hr]
  · simp only [stepEvent, hostWrite, hr]

/-- Settles O31: answers while nothing runs, accesses off the map, and the read of the register that is not stored. -/
theorem undefinedEventsRefused : Obligations.UndefinedEventsRefused := by
  refine ⟨fun s rest ho => ⟨fun hin => step_empty_refused s rest hin ho,
      fun f hlen hin => step_frame_refused s f rest hin hlen ho⟩,
    fun s off width v rest hcmd hreg hres hpkt hout => ?_, fun s rest hin => step_cons s _ rest hin⟩
  have hr := regAt_outside hcmd hreg hres hpkt hout
  exact ⟨fun hin => step_access_refused (v := v) hr (.inl hin), fun hin => step_access_refused hr (.inr hin)⟩

/-! ## Host reads -/

/-- A read of a register that is stored answers its value (R44). -/
theorem step_read {s : State} {off width : Nat} {rest : List Event} {r : HostReg} {x : BitVec 128}
    (hin : s.inbox = .hostRead off width :: rest) (hr : regAt off width = some r)
    (hx : hostValue { s with inbox := rest } r = some x) :
    step s = .next { s with inbox := rest, reads := s.reads ++ [(r, x)] } := by
  rw [step_cons s _ rest hin]
  simp only [stepEvent, hostRead, hr, hx]

/-- `BUD` reads as its count where it fits (R40). -/
theorem budgetWord_of_lt {n : Nat} (h : n < 2 ^ 32) : (budgetWord n).setWidth 128 = BitVec.ofNat 128 n := by
  rw [budgetWord, if_pos h]
  exact BitVec.eq_of_toNat_eq (by simp; omega)

/-- Settles O59: each register is at its place in the map, and `hostValue` is its value. -/
theorem hostReadsReturnRegisters : Obligations.HostReadsReturnRegisters := by
  intro s off width rest hin
  refine ⟨?_, ?_, ?_, ?_, ?_, ?_, ?_, ?_, ?bud, fun i hi => ?pkt, fun k hk => ?out⟩
  case bud =>
    rintro rfl rfl hlt
    exact step_read hin rfl (congrArg some (budgetWord_of_lt hlt))
  case pkt =>
    rintro rfl rfl
    exact step_read hin (regAt_pkt i hi) rfl
  case out =>
    rintro rfl rfl
    exact step_read hin (regAt_out hk) rfl
  all_goals
    rintro rfl rfl
    exact step_read hin rfl rfl

/-! ## Host writes -/

/-- A write of a register other than `CMD` (R44). -/
theorem step_write {s : State} {off width : Nat} {v : BitVec 128} {rest : List Event} {r : HostReg}
    (hin : s.inbox = .hostWrite off width v :: rest) (hr : regAt off width = some r) (hcmd : r ≠ .cmd) :
    step s = .next (writeReg r v { s with inbox := rest }) := by
  rw [step_cons s _ rest hin]
  exact stepEvent_hostWrite off width v _ r hr hcmd

/-- The registers a host write does not change (R44). -/
def readOnly : HostReg → Bool
  | .vaddr | .vlen | .poff | .pn | .res | .outn | .bud | .out _ => true
  | .cmd | .status | .plen | .pkt _ => false

/-- A write of a read-only register is dropped without effect (R44). -/
theorem step_write_readOnly {s : State} {off width : Nat} {v : BitVec 128} {rest : List Event} {r : HostReg}
    (hin : s.inbox = .hostWrite off width v :: rest) (hr : regAt off width = some r) (hro : readOnly r = true) :
    step s = .next { s with inbox := rest } := by
  rw [step_write hin hr (by rintro rfl; cases hro)]
  cases r with
  | vaddr | vlen | poff | pn | res | outn | bud | out => rfl
  | cmd | status | plen | pkt => cases hro

/-- The read-only registers are those at the offsets the statement lists (R31). -/
theorem regAt_readOnly {off width : Nat} (h : (width = 32 ∧ off ∈ [0x010, 0x014, 0x018, 0x01C, 0x030, 0x034])
    ∨ (width = 128 ∧ off = 0x020) ∨ (width = 128 ∧ ∃ k, k < 512 ∧ off = 0x2000 + 16 * k)) :
    ∃ r, regAt off width = some r ∧ readOnly r = true := by
  rcases h with ⟨rfl, hoff⟩ | ⟨rfl, rfl⟩ | ⟨rfl, k, hk, rfl⟩
  · simp only [List.mem_cons, List.not_mem_nil, or_false] at hoff
    rcases hoff with rfl | rfl | rfl | rfl | rfl | rfl <;> exact ⟨_, rfl, rfl⟩
  · exact ⟨.res, rfl, rfl⟩
  · exact ⟨.out k, regAt_out hk, rfl⟩

/-- Settles O58: a write to `STATUS` is `statusWritten_eq`; the other registers are read-only. -/
theorem hostWritesStatusAndReadOnly : Obligations.HostWritesStatusAndReadOnly := by
  refine fun s v rest => ⟨fun hin => ?_, fun off width hin hplace => ?_⟩
  · rw [step_write hin (r := .status) rfl nofun, writeReg, statusWritten_eq]
    cases v.getLsbD 2 <;> simp
  · obtain ⟨r, hr, hro⟩ := regAt_readOnly hplace
    exact step_write_readOnly hin hr hro

/-! ## The hand-over of a packet -/

/-- A byte of a loaded buffer: the byte of the list whose cells it holds, the old one beyond them (R35). -/
theorem pktByte_loaded {s : State} {pkt : Memory} {bs : List Byte} (n : Nat)
    (hcells : ∀ i, cellAt pkt i = if i < bs.length then bs[i]? else cellAt s.pkt i) (i : Nat) :
    pktByte (clearWindow { s with pkt := pkt, plen := n }) i = if i < bs.length then bs.getD i 0 else pktByte s i := by
  rw [pktByte, clearWindow_pkt, hcells]
  split
  next hi => simp [hi]
  next => rfl

/-- Settles O40: an idle block loads the packet's bytes, which `PKT` holds; a busy block drops each write. -/
theorem packetHandOver : Obligations.PacketHandOver := by
  intro s a body hbody
  have hlen : (packetBytes a body).length = body.length + 6 := Machine.packetBytes_length a body
  have hexec : exec (.packetSp a body) s = .next (loadBuffer (packetBytes a body) s) := rfl
  refine ⟨fun hb => ?_, fun hb => ?_⟩
  · obtain ⟨pkt', hload, hcells, -⟩ := loadBuffer_idle (packetBytes a body) s hb (by omega)
    rw [hlen] at hload
    refine ⟨_, pkt', hexec.trans (congrArg _ hload), rfl, fun i => ?_⟩
    rw [← hlen]
    exact pktByte_loaded _ hcells i
  · rw [hexec, loadBuffer_busy _ s hb]
    rfl

end Sys2Proof.Proofs
end
